-- ==== Sys2Proof/Word.lean ====
section
/-! DEFINITION. The word types of F25519U and the names of its registers (spec/10_state.md R10, R13). -/

namespace Sys2Proof

/-- One byte of DMEM or of the IMEM window. -/
abbrev Byte := BitVec 8

/-- The content of a field register or of the scalar register: 256 bits (R10, R15). -/
abbrev Fe := BitVec 256

/-- An instruction word (R60). -/
abbrev IWord := BitVec 64

/-- A word of the host window (R44). -/
abbrev HWord := BitVec 32

/-- The number of a field register, 0 to 15 (R10). -/
abbrev Reg := Fin 16

/-! The aliases of R13. -/

abbrev Reg.t0 : Reg := 6
abbrev Reg.dx : Reg := 7
abbrev Reg.x0 : Reg := 8
abbrev Reg.z0 : Reg := 9
abbrev Reg.x1 : Reg := 10
abbrev Reg.z1 : Reg := 11
abbrev Reg.t1 : Reg := 12
abbrev Reg.t2 : Reg := 13
abbrev Reg.t3 : Reg := 14
abbrev Reg.t4 : Reg := 15

end Sys2Proof
end

