-- ==== Sys2Proof/Config.lean ====
section
/-! DEFINITION. What is fixed for the machine (spec/00_scope.md R4, spec/10_state.md R31) and the values the spec leaves open
(spec/93_implementation_defined.md U5, U6). An opaque constant here has no body: nothing can be proved of its value. -/

namespace Sys2Proof.Config

/-- The field prime P = 2^255 - 19 (R4, R31). -/
def P : Nat := 2 ^ 255 - 19

/-- (A - 2) / 4 for the curve constant A = 486662 (R4, R123). -/
def A24 : HWord := 121665

/-- The x-coordinate of the standard generator (R4, R135). -/
def GX : HWord := 9

/-- The number of 32-byte slots of DMEM (R4, R27). -/
def NSLOT : Nat := 16

/-- The number of words of IMEM (R4, R28). -/
def IMEM_WORDS : Nat := 256

/-- The largest magnitude of the multiplier of MULS (R4, R98). -/
def MULS_BOUND : Int := 2 ^ 28

/-- FREE VALUE (log 1): the byte that byte `a` of IMEM holds after reset number `gen` and before the host writes it
(R32, U5: "any value" per word). -/
opaque imemUnwritten (gen a : Nat) : Byte

/-- FREE VALUE (log 2): STATUS.PC in the `n`th read of STATUS made while STATE = BUSY (R22, U6). -/
opaque busyPc (n : Nat) : BitVec 8

/-- FREE VALUE (log 2): STATUS.OVF in the `n`th read of STATUS made while STATE = BUSY (R22, U6). -/
opaque busyOvf (n : Nat) : Bool

/-- FREE VALUE (log 2): STATUS.NEG in the `n`th read of STATUS made while STATE = BUSY (R22, U6). -/
opaque busyNeg (n : Nat) : Bool

end Sys2Proof.Config
end

