-- ==== Sys2Proof/Syntax.lean ====
section
/-! DEFINITION. The 23 instructions of spec/30_encoding.md R62, one constructor for each row of spec/opcode_table.json, and
the pseudo-instructions of R70. The operands of a constructor stand in the order of the word's fields: rd, ra, rb, rc, imm. -/

namespace Sys2Proof

/-- An instruction with its operands as the word's fields hold them; a value check on an operand (slot number, multiplier,
register restriction) is no part of the syntax (R65). -/
inductive Instr where
  /-- `HALT` (R140) -/
  | halt
  /-- `SET Fd, #imm` (R80) -/
  | set (rd : Reg) (imm : HWord)
  /-- `CPY Fd, Fa` (R81) -/
  | cpy (rd ra : Reg)
  /-- `UNPACK Fd, @imm` (R82) -/
  | unpack (rd : Reg) (imm : HWord)
  /-- `PACK @imm, Fa` (R83) -/
  | pack (ra : Reg) (imm : HWord)
  /-- `LDK @imm` (R84) -/
  | ldk (imm : HWord)
  /-- `WIPE` (R85) -/
  | wipe
  /-- `ADD Fd, Fa, Fb` (R94) -/
  | add (rd ra rb : Reg)
  /-- `SUB Fd, Fa, Fb` (R95) -/
  | sub (rd ra rb : Reg)
  /-- `MUL Fd, Fa, Fb` (R96) -/
  | mul (rd ra rb : Reg)
  /-- `SQR Fd, Fa` (R97) -/
  | sqr (rd ra : Reg)
  /-- `MULS Fd, Fa, #imm`, the immediate read as signed (R98) -/
  | muls (rd ra : Reg) (imm : HWord)
  /-- `REDUCE Fd, Fa` (R99) -/
  | reduce (rd ra : Reg)
  /-- `TSTOVF Fa` (R104) -/
  | tstovf (ra : Reg)
  /-- `TSTNEG Fa` (R105) -/
  | tstneg (ra : Reg)
  /-- `RECIP Fd, Fa` (R112) -/
  | recip (rd ra : Reg)
  /-- `RECIPS Fd, Fa` (R113) -/
  | recips (rd ra : Reg)
  /-- `SQRT Fd, Fa` (R114) -/
  | sqrt (rd ra : Reg)
  /-- `MPREP Frd, Frc, Fra, Frb`: sum to rd, difference to rc (R121) -/
  | mprep (rd ra rb rc : Reg)
  /-- `MADD Fra, Frb, Frc`: the result pair (ra, rb) and the difference rc (R122) -/
  | madd (ra rb rc : Reg)
  /-- `MDBL Fra, Frb` (R123) -/
  | mdbl (ra rb : Reg)
  /-- `LADDER Fa` (R131) -/
  | ladder (ra : Reg)
  /-- `LADDERG` (R135) -/
  | ladderg
  deriving DecidableEq, Repr

/-! The pseudo-instructions of R70. -/

/-- `CLR Fd`: the field zero. -/
def Instr.clr (d : Reg) : Instr := .set d 0

/-- `ONE Fd`: the identity element. -/
def Instr.one (d : Reg) : Instr := .set d 1

/-- `NORM Fd`: reduce in place. -/
def Instr.norm (d : Reg) : Instr := .reduce d d

/-- `MOV Fd, Fa`: a synonym of CPY. -/
def Instr.mov (d a : Reg) : Instr := .cpy d a

/-- The mnemonic of R62. -/
def Instr.mnemonic : Instr → String
  | .halt => "HALT"
  | .set .. => "SET"
  | .cpy .. => "CPY"
  | .unpack .. => "UNPACK"
  | .pack .. => "PACK"
  | .ldk .. => "LDK"
  | .wipe => "WIPE"
  | .add .. => "ADD"
  | .sub .. => "SUB"
  | .mul .. => "MUL"
  | .sqr .. => "SQR"
  | .muls .. => "MULS"
  | .reduce .. => "REDUCE"
  | .tstovf .. => "TSTOVF"
  | .tstneg .. => "TSTNEG"
  | .recip .. => "RECIP"
  | .recips .. => "RECIPS"
  | .sqrt .. => "SQRT"
  | .mprep .. => "MPREP"
  | .madd .. => "MADD"
  | .mdbl .. => "MDBL"
  | .ladder .. => "LADDER"
  | .ladderg => "LADDERG"

end Sys2Proof
end

