-- ==== Sys2Proof/WellFormed.lean ====
section
/-! DEFINITION. Which instructions satisfy every operand restriction, as the table of spec/60_exceptions.md R153 collects
them. The register numbers, immediates and unused fields need no check here: their types hold exactly what the word's fields
hold (R61). The machine's own operand checks are those of Machine/Operands.lean; Laws/Operands.lean proves the two agree. -/

namespace Sys2Proof

/-- No row of R153 forbids the operands of the instruction. -/
def Instr.wellFormed : Instr → Bool
  | .halt => true
  | .set _ _ => true
  | .cpy _ _ => true
  | .unpack _ imm => decide (imm.toNat < 16)
  | .pack _ imm => decide (imm.toNat < 16)
  | .ldk imm => decide (imm.toNat < 16)
  | .wipe => true
  | .add _ _ _ => true
  | .sub _ _ _ => true
  | .mul _ _ _ => true
  | .sqr _ _ => true
  | .muls _ _ imm => decide (-268435456 ≤ imm.toInt ∧ imm.toInt ≤ 268435456)
  | .reduce _ _ => true
  | .tstovf _ => true
  | .tstneg _ => true
  | .recip _ ra => decide (ra ≠ 6 ∧ ra ≠ 12 ∧ ra ≠ 13 ∧ ra ≠ 14 ∧ ra ≠ 15)
  | .recips _ ra => decide (ra ≠ 6 ∧ ra ≠ 12 ∧ ra ≠ 13 ∧ ra ≠ 14 ∧ ra ≠ 15)
  | .sqrt _ ra => decide (ra ≠ 6 ∧ ra ≠ 7 ∧ ra ≠ 8 ∧ ra ≠ 9 ∧ ra ≠ 12 ∧ ra ≠ 13 ∧ ra ≠ 14 ∧ ra ≠ 15)
  | .mprep rd _ _ rc => decide (rd ≠ rc)
  | .madd ra rb rc =>
      decide (ra ≠ rb ∧ ra ≠ rc ∧ rb ≠ rc ∧ ra.val < 12 ∧ rb.val < 12 ∧ rc.val < 12)
  | .mdbl ra rb => decide (ra ≠ rb ∧ ra.val < 12 ∧ rb.val < 12)
  | .ladder _ => true
  | .ladderg => true

end Sys2Proof
end

