-- ==== Sys2Proof/Decode.lean ====
section
/-! DEFINITION. Byte order, the fields of an instruction word, the decoder and the encoder (spec/20_memory.md R40, R41 and
spec/30_encoding.md R60 to R68, R72), and the opcode map's match and mask values. -/

namespace Sys2Proof

/-! ### Byte order (R40, R41) -/

/-- The integer a little-endian byte list stands for. -/
def leNat : List Byte → Nat
  | [] => 0
  | b :: bs => b.toNat + 256 * leNat bs

/-- The `n` low bytes of an integer, the least significant first. -/
def leBytes : Nat → Nat → List Byte
  | 0, _ => []
  | n + 1, v => BitVec.ofNat 8 v :: leBytes n (v / 256)

/-! ### The fields of a word (R61) -/

/-- The seven fields of an instruction word. -/
structure Fields where
  op : BitVec 8 := 0
  rd : BitVec 4 := 0
  ra : BitVec 4 := 0
  rb : BitVec 4 := 0
  rc : BitVec 4 := 0
  z : BitVec 8 := 0
  imm : HWord := 0
  deriving DecidableEq, Repr

/-- The fields of `w`, at the bit positions of R61. -/
def fieldsOf (w : IWord) : Fields where
  op := w.extractLsb' 56 8
  rd := w.extractLsb' 52 4
  ra := w.extractLsb' 48 4
  rb := w.extractLsb' 44 4
  rc := w.extractLsb' 40 4
  z := w.extractLsb' 32 8
  imm := w.extractLsb' 0 32

/-- The word with the given fields. -/
def Fields.word (f : Fields) : IWord := f.op ++ f.rd ++ f.ra ++ f.rb ++ f.rc ++ f.z ++ f.imm

/-- The register a 4-bit field names: "the register's number 0..15 directly" (R61). -/
def regOf (b : BitVec 4) : Reg := b.toFin

/-- The 4-bit field that names a register. -/
def regField (r : Reg) : BitVec 4 := BitVec.ofFin r

/-! ### Decoding (R65, R66, R67 checks 1 and 2, R72) -/

/-- Why a word is no instance of any row of the opcode map (R66). -/
inductive Reject where
  /-- `op` is none of the 23 assigned values: ILLEGAL_OPCODE. -/
  | illegalOpcode
  /-- `z`, or a field the instruction does not use, is not zero: RESERVED_FIELD. -/
  | reservedField
  deriving DecidableEq, Repr

/-- Check 2 of R67: the fields that must be zero are. -/
def reserved (zero : Bool) (i : Instr) : Except Reject Instr :=
  if zero then .ok i else .error .reservedField

/-- The instruction the fields stand for, each row with the fields it does not use (R62, R66). -/
def decodeFields (f : Fields) : Except Reject Instr :=
  match f.op.toNat with
  | 0x01 => reserved (f.rd == 0 && f.ra == 0 && f.rb == 0 && f.rc == 0 && f.z == 0 && f.imm == 0) .halt
  | 0x10 => reserved (f.ra == 0 && f.rb == 0 && f.rc == 0 && f.z == 0) (.set (regOf f.rd) f.imm)
  | 0x11 => reserved (f.rb == 0 && f.rc == 0 && f.z == 0 && f.imm == 0) (.cpy (regOf f.rd) (regOf f.ra))
  | 0x12 => reserved (f.ra == 0 && f.rb == 0 && f.rc == 0 && f.z == 0) (.unpack (regOf f.rd) f.imm)
  | 0x13 => reserved (f.rd == 0 && f.rb == 0 && f.rc == 0 && f.z == 0) (.pack (regOf f.ra) f.imm)
  | 0x14 => reserved (f.rd == 0 && f.ra == 0 && f.rb == 0 && f.rc == 0 && f.z == 0) (.ldk f.imm)
  | 0x15 => reserved (f.rd == 0 && f.ra == 0 && f.rb == 0 && f.rc == 0 && f.z == 0 && f.imm == 0) .wipe
  | 0x20 => reserved (f.rc == 0 && f.z == 0 && f.imm == 0) (.add (regOf f.rd) (regOf f.ra) (regOf f.rb))
  | 0x21 => reserved (f.rc == 0 && f.z == 0 && f.imm == 0) (.sub (regOf f.rd) (regOf f.ra) (regOf f.rb))
  | 0x22 => reserved (f.rc == 0 && f.z == 0 && f.imm == 0) (.mul (regOf f.rd) (regOf f.ra) (regOf f.rb))
  | 0x23 => reserved (f.rb == 0 && f.rc == 0 && f.z == 0 && f.imm == 0) (.sqr (regOf f.rd) (regOf f.ra))
  | 0x24 => reserved (f.rb == 0 && f.rc == 0 && f.z == 0) (.muls (regOf f.rd) (regOf f.ra) f.imm)
  | 0x25 => reserved (f.rb == 0 && f.rc == 0 && f.z == 0 && f.imm == 0) (.reduce (regOf f.rd) (regOf f.ra))
  | 0x28 => reserved (f.rd == 0 && f.rb == 0 && f.rc == 0 && f.z == 0 && f.imm == 0) (.tstovf (regOf f.ra))
  | 0x29 => reserved (f.rd == 0 && f.rb == 0 && f.rc == 0 && f.z == 0 && f.imm == 0) (.tstneg (regOf f.ra))
  | 0x30 => reserved (f.rb == 0 && f.rc == 0 && f.z == 0 && f.imm == 0) (.recip (regOf f.rd) (regOf f.ra))
  | 0x31 => reserved (f.rb == 0 && f.rc == 0 && f.z == 0 && f.imm == 0) (.recips (regOf f.rd) (regOf f.ra))
  | 0x32 => reserved (f.rb == 0 && f.rc == 0 && f.z == 0 && f.imm == 0) (.sqrt (regOf f.rd) (regOf f.ra))
  | 0x40 => reserved (f.z == 0 && f.imm == 0) (.mprep (regOf f.rd) (regOf f.ra) (regOf f.rb) (regOf f.rc))
  | 0x41 => reserved (f.rd == 0 && f.z == 0 && f.imm == 0) (.madd (regOf f.ra) (regOf f.rb) (regOf f.rc))
  | 0x42 => reserved (f.rd == 0 && f.rc == 0 && f.z == 0 && f.imm == 0) (.mdbl (regOf f.ra) (regOf f.rb))
  | 0x43 => reserved (f.rd == 0 && f.rb == 0 && f.rc == 0 && f.z == 0 && f.imm == 0) (.ladder (regOf f.ra))
  | 0x44 => reserved (f.rd == 0 && f.ra == 0 && f.rb == 0 && f.rc == 0 && f.z == 0 && f.imm == 0) .ladderg
  | _ => .error .illegalOpcode

/-- Decoding a word: it depends on the word alone (R72). -/
def decodeWord (w : IWord) : Except Reject Instr := decodeFields (fieldsOf w)

/-- Why a byte list starts with no instruction. -/
inductive DecodeError where
  /-- Fewer than the 8 bytes every instruction has (R68); the machine always fetches 8. -/
  | truncated
  /-- The word is rejected. -/
  | rejected (r : Reject)
  deriving DecidableEq, Repr

/-- The instruction that a byte list starts with, and the bytes after it: 8 bytes, little-endian (R41, R60). -/
def decode : List Byte → Except DecodeError (Instr × List Byte)
  | b0 :: b1 :: b2 :: b3 :: b4 :: b5 :: b6 :: b7 :: rest =>
    match decodeWord (BitVec.ofNat 64 (leNat [b0, b1, b2, b3, b4, b5, b6, b7])) with
    | .ok i => .ok (i, rest)
    | .error r => .error (.rejected r)
  | _ => .error .truncated

/-! ### Encoding (R61, R62) -/

/-- The opcode of R62. -/
def Instr.opcode : Instr → BitVec 8
  | .halt => 0x01
  | .set .. => 0x10
  | .cpy .. => 0x11
  | .unpack .. => 0x12
  | .pack .. => 0x13
  | .ldk .. => 0x14
  | .wipe => 0x15
  | .add .. => 0x20
  | .sub .. => 0x21
  | .mul .. => 0x22
  | .sqr .. => 0x23
  | .muls .. => 0x24
  | .reduce .. => 0x25
  | .tstovf .. => 0x28
  | .tstneg .. => 0x29
  | .recip .. => 0x30
  | .recips .. => 0x31
  | .sqrt .. => 0x32
  | .mprep .. => 0x40
  | .madd .. => 0x41
  | .mdbl .. => 0x42
  | .ladder .. => 0x43
  | .ladderg => 0x44

/-- The fields of an instruction: the opcode, the operands where R62 puts them, zero elsewhere. -/
def Instr.fields (i : Instr) : Fields :=
  match i with
  | .halt => { op := i.opcode }
  | .set rd imm => { op := i.opcode, rd := regField rd, imm := imm }
  | .cpy rd ra => { op := i.opcode, rd := regField rd, ra := regField ra }
  | .unpack rd imm => { op := i.opcode, rd := regField rd, imm := imm }
  | .pack ra imm => { op := i.opcode, ra := regField ra, imm := imm }
  | .ldk imm => { op := i.opcode, imm := imm }
  | .wipe => { op := i.opcode }
  | .add rd ra rb => { op := i.opcode, rd := regField rd, ra := regField ra, rb := regField rb }
  | .sub rd ra rb => { op := i.opcode, rd := regField rd, ra := regField ra, rb := regField rb }
  | .mul rd ra rb => { op := i.opcode, rd := regField rd, ra := regField ra, rb := regField rb }
  | .sqr rd ra => { op := i.opcode, rd := regField rd, ra := regField ra }
  | .muls rd ra imm => { op := i.opcode, rd := regField rd, ra := regField ra, imm := imm }
  | .reduce rd ra => { op := i.opcode, rd := regField rd, ra := regField ra }
  | .tstovf ra => { op := i.opcode, ra := regField ra }
  | .tstneg ra => { op := i.opcode, ra := regField ra }
  | .recip rd ra => { op := i.opcode, rd := regField rd, ra := regField ra }
  | .recips rd ra => { op := i.opcode, rd := regField rd, ra := regField ra }
  | .sqrt rd ra => { op := i.opcode, rd := regField rd, ra := regField ra }
  | .mprep rd ra rb rc =>
      { op := i.opcode, rd := regField rd, ra := regField ra, rb := regField rb, rc := regField rc }
  | .madd ra rb rc => { op := i.opcode, ra := regField ra, rb := regField rb, rc := regField rc }
  | .mdbl ra rb => { op := i.opcode, ra := regField ra, rb := regField rb }
  | .ladder ra => { op := i.opcode, ra := regField ra }
  | .ladderg => { op := i.opcode }

/-- The word of an instruction. -/
def encode (i : Instr) : IWord := i.fields.word

/-- The 8 bytes of an instruction's word, as the IMEM window holds them (R41). -/
def encodeBytes (i : Instr) : List Byte := leBytes 8 (encode i).toNat

/-! ### The opcode map as match and mask (R65) -/

/-- A row of spec/opcode_table.json. -/
structure OpcodeRow where
  mnemonic : String
  pattern : IWord
  mask : IWord
  deriving DecidableEq, Repr

/-- The 23 rows of spec/opcode_table.json. -/
def opcodeTable : List OpcodeRow :=
  [⟨"HALT", 0x0100000000000000, 0xFFFFFFFFFFFFFFFF⟩,
   ⟨"SET", 0x1000000000000000, 0xFF0FFFFF00000000⟩,
   ⟨"CPY", 0x1100000000000000, 0xFF00FFFFFFFFFFFF⟩,
   ⟨"UNPACK", 0x1200000000000000, 0xFF0FFFFF00000000⟩,
   ⟨"PACK", 0x1300000000000000, 0xFFF0FFFF00000000⟩,
   ⟨"LDK", 0x1400000000000000, 0xFFFFFFFF00000000⟩,
   ⟨"WIPE", 0x1500000000000000, 0xFFFFFFFFFFFFFFFF⟩,
   ⟨"ADD", 0x2000000000000000, 0xFF000FFFFFFFFFFF⟩] ++
  [⟨"SUB", 0x2100000000000000, 0xFF000FFFFFFFFFFF⟩,
   ⟨"MUL", 0x2200000000000000, 0xFF000FFFFFFFFFFF⟩,
   ⟨"SQR", 0x2300000000000000, 0xFF00FFFFFFFFFFFF⟩,
   ⟨"MULS", 0x2400000000000000, 0xFF00FFFF00000000⟩,
   ⟨"REDUCE", 0x2500000000000000, 0xFF00FFFFFFFFFFFF⟩,
   ⟨"TSTOVF", 0x2800000000000000, 0xFFF0FFFFFFFFFFFF⟩,
   ⟨"TSTNEG", 0x2900000000000000, 0xFFF0FFFFFFFFFFFF⟩,
   ⟨"RECIP", 0x3000000000000000, 0xFF00FFFFFFFFFFFF⟩] ++
  [⟨"RECIPS", 0x3100000000000000, 0xFF00FFFFFFFFFFFF⟩,
   ⟨"SQRT", 0x3200000000000000, 0xFF00FFFFFFFFFFFF⟩,
   ⟨"MPREP", 0x4000000000000000, 0xFF0000FFFFFFFFFF⟩,
   ⟨"MADD", 0x4100000000000000, 0xFFF000FFFFFFFFFF⟩,
   ⟨"MDBL", 0x4200000000000000, 0xFFF00FFFFFFFFFFF⟩,
   ⟨"LADDER", 0x4300000000000000, 0xFFF0FFFFFFFFFFFF⟩,
   ⟨"LADDERG", 0x4400000000000000, 0xFFFFFFFFFFFFFFFF⟩]

/-- The decoder's answer for a word numbered as spec/opcode_table.json numbers it: the word's 8 bytes are laid out
little-endian, every bit at or above `nbits` zero, and given to `decode`. -/
def decodeTableWord (nbits w : Nat) : Option Instr :=
  match decode (leBytes 8 (w % 2 ^ nbits)) with
  | .ok (i, _) => some i
  | .error _ => none

end Sys2Proof
end

