-- ==== Sys2Proof/Machine/State.lean ====
section
/-! DEFINITION. The machine's state (spec/10_state.md R10 to R30), its value at reset (R32) and the reasons a step can stop. -/

namespace Sys2Proof.Machine

/-- A memory: the bytes it lists, by address, in strictly rising order of addresses (`Memory.wf`, Machine/Ops.lean). -/
abbrev Memory := List Host.Cell

/-- The contents of F0 to F15 (R10). -/
abbrev Regs := Vector Fe 16

/-- The run state, STATUS.STATE (R19). -/
inductive RunState where
  /-- no run -/
  | idle
  /-- a run is in progress -/
  | busy
  /-- the run ended by HALT -/
  | done
  /-- the run ended by a fault -/
  | fault
  deriving DecidableEq, Repr

/-- A move of the world outside the unit (R5): the host at its window, or the platform at the reset input (log 3). -/
inductive HostMove where
  /-- The host makes no access while the unit takes one step. -/
  | wait
  /-- A read of `width` bytes at a byte offset of the window. -/
  | read (offset : BitVec 12) (width : Nat)
  /-- A write of `width` bytes at a byte offset of the window. -/
  | write (offset : BitVec 12) (width : Nat) (value : HWord)
  /-- The reset input is driven (R180). -/
  | reset
  deriving DecidableEq, Repr

/-- The whole state. The first twelve fields are the spec's; the last four are the model's own (log 3, 4, 5). -/
structure State where
  /-- F0–F15 (R10) -/
  regs : Regs
  /-- K (R15) -/
  k : Fe
  /-- PC, the index of a word of IMEM (R17) -/
  pc : BitVec 8
  /-- OVF (R18) -/
  ovf : Bool
  /-- NEG (R18) -/
  neg : Bool
  /-- STATE (R19) -/
  run : RunState
  /-- ERRCODE (R23) -/
  errcode : BitVec 8
  /-- HERR (R24) -/
  herr : Bool
  /-- IE, bit 8 of CTRL (R25) -/
  ie : Bool
  /-- ENTRY bits 7:0 (R21) -/
  entry : BitVec 8
  /-- DMEM, byte addresses 0 to 511; an unlisted byte is 0 (R27, R32) -/
  dmem : Memory
  /-- IMEM, the 2048 bytes of its window; an unlisted byte is a free value (R28, R41, log 1) -/
  imem : Memory
  /-- the moves of host and platform still to come, oldest first (log 3) -/
  hostMoves : List HostMove
  /-- the words the host's reads have returned, oldest first (log 4) -/
  replies : List HWord
  /-- how many resets there were: the index of IMEM's free contents (log 5) -/
  imemGen : Nat
  /-- how many reads of STATUS were made while BUSY: the index of their free values (log 5) -/
  busyReads : Nat
  deriving DecidableEq, Repr

/-- The state after reset: the table of R32. IMEM lists nothing: its contents are unspecified. -/
def State.reset : State where
  regs := Vector.replicate 16 0
  k := 0
  pc := 0
  ovf := false
  neg := false
  run := .idle
  errcode := 0
  herr := false
  ie := false
  entry := 0
  dmem := []
  imem := []
  hostMoves := []
  replies := []
  imemGen := 0
  busyReads := 0

/-- The reasons a step can stop with a fault of the model: none. Every fault of the spec is a next state with
STATE = FAULT (R155, log 8), and every access to an address that does not exist has an effect the spec gives (R24, R43). -/
inductive Fault where
  deriving DecidableEq, Repr

/-- The reasons a step can have no meaning. -/
inductive Refusal where
  /-- Raised by an arm of `exec` whose instruction has no meaning yet; no arm raises it now. Safe: nothing can be proved of
  a next state. -/
  | notModelled (mnemonic : String)
  deriving DecidableEq, Repr

/-- The outcome of a step or a meaning. -/
abbrev Result := Host.Outcome State Fault Refusal

end Sys2Proof.Machine
end

