-- ==== Sys2Proof/Machine/Ops.lean ====
section
/-! DEFINITION. The named operations: registers (spec/10_state.md R10, R14), the two memories (spec/20_memory.md R40 to R45),
taking a fault (spec/60_exceptions.md R155), the host's acknowledgement (R156), and the order of the checks (R154). -/

namespace Sys2Proof.Machine

/-! ### Registers -/

/-- `F[r]` of a register file. -/
def Regs.read (f : Regs) (r : Reg) : Fe := f.get r

/-- `F[r] <- v` on a register file. No register is hardwired (R10). -/
def Regs.write (f : Regs) (r : Reg) (v : Fe) : Regs := f.set r.val v r.isLt

/-- `F[r]`. -/
def State.reg (s : State) (r : Reg) : Fe := s.regs.read r

/-- The state with another register file. -/
def State.withRegs (s : State) (f : Regs) : State := { s with regs := f }

/-- `K <- v`. -/
def State.withK (s : State) (v : Fe) : State := { s with k := v }

/-- `OVF <- b`. -/
def State.withOvf (s : State) (b : Bool) : State := { s with ovf := b }

/-- `NEG <- b`. -/
def State.withNeg (s : State) (b : Bool) : State := { s with neg := b }

/-- The state with other contents of DMEM. -/
def State.withDmem (s : State) (m : Memory) : State := { s with dmem := m }

/-- `pc <- PC + 1` (R17, R141 step 5). -/
def State.advance (s : State) : State := { s with pc := s.pc + 1 }

/-- `STATE <- DONE`, PC kept (R140). -/
def State.finish (s : State) : State := { s with run := .done }

/-- WIPE: F0–F15, K, OVF and NEG to 0 (R85). -/
def State.wipe (s : State) : State :=
  { s with regs := Vector.replicate 16 0, k := 0, ovf := false, neg := false }

/-! ### Memory -/

/-- The byte a memory lists at address `a`, if it lists one. -/
def Memory.get? : Memory → Nat → Option Byte
  | [], _ => none
  | (k, v) :: m, a => if a = k then some v else Memory.get? m a

/-- List byte `b` at address `a`. -/
def Memory.insert : Memory → Nat → Byte → Memory
  | [], a, b => [(a, b)]
  | (k, v) :: m, a, b =>
    if a < k then (a, b) :: (k, v) :: m
    else if a = k then (a, b) :: m
    else (k, v) :: Memory.insert m a b

/-- List nothing at address `a`. -/
def Memory.erase : Memory → Nat → Memory
  | [], _ => []
  | (k, v) :: m, a => if a = k then m else (k, v) :: Memory.erase m a

/-- Store byte `b` at address `a` of a memory whose unlisted bytes read as `unlisted` (`none`: as no value of the state's):
the byte an unlisted address reads as is never listed. -/
def Memory.store (unlisted : Option Byte) (m : Memory) (a : Nat) (b : Byte) : Memory :=
  if unlisted = some b then Memory.erase m a else Memory.insert m a b

/-- Store bytes at rising addresses, from `a`. -/
def Memory.storeList (unlisted : Option Byte) : Memory → Nat → List Byte → Memory
  | m, _, [] => m
  | m, a, b :: bs => Memory.storeList unlisted (Memory.store unlisted m a b) (a + 1) bs

/-- Every listed address is above `lo` and the addresses rise. -/
def Memory.risesFrom : Nat → Memory → Bool
  | _, [] => true
  | lo, (k, _) :: m => decide (lo ≤ k) && Memory.risesFrom (k + 1) m

/-- The canonical form: addresses rise and lie below `size`, and no entry lists what an unlisted address reads as. -/
def Memory.wf (size : Nat) (unlisted : Option Byte) (m : Memory) : Bool :=
  Memory.risesFrom 0 m && m.all fun c => decide (c.1 < size) && decide (unlisted ≠ some c.2)

/-- What an unlisted byte of DMEM reads as: 0, its reset contents (R32). -/
def dmemUnlisted : Byte := 0

/-- What an unlisted byte of IMEM reads as: the free contents left by the last reset (R32, U5, log 1). -/
def imemUnlisted (gen a : Nat) : Byte := Config.imemUnwritten gen a

/-- The size of DMEM in bytes (R27). -/
def dmemSize : Nat := 32 * Config.NSLOT

/-- The size of the IMEM window in bytes (R28, R48). -/
def imemSize : Nat := 8 * Config.IMEM_WORDS

/-- Byte `a` of DMEM. -/
def State.dmemByte (s : State) (a : Nat) : Byte := (Memory.get? s.dmem a).getD dmemUnlisted

/-- Byte `a` of the IMEM window. -/
def State.imemByte (s : State) (a : Nat) : Byte := (Memory.get? s.imem a).getD (imemUnlisted s.imemGen a)

/-- `MemRead(a, n)`: the list of bytes DMEM[a], DMEM[a+1], … (R45). -/
def State.memRead (s : State) (a : Nat) : Nat → List Byte
  | 0 => []
  | n + 1 => s.dmemByte a :: s.memRead (a + 1) n

/-- `MemWrite(a, n, b)` with n the length of `b` (R45). -/
def State.memWrite (s : State) (a : Nat) (b : List Byte) : State :=
  s.withDmem (Memory.storeList (some dmemUnlisted) s.dmem a b)

/-- `n` bytes of the IMEM window from byte offset `a`. -/
def State.imemRead (s : State) (a : Nat) : Nat → List Byte
  | 0 => []
  | n + 1 => s.imemByte a :: s.imemRead (a + 1) n

/-- Store bytes in the IMEM window from byte offset `a`; only the host does this (R28). -/
def State.imemWrite (s : State) (a : Nat) (b : List Byte) : State :=
  { s with imem := Memory.storeList none s.imem a b }

/-- `le256(b)`: the integer of a 32-byte little-endian list (R40). -/
def le256 (b : List Byte) : Fe := BitVec.ofNat 256 (leNat b)

/-- `bytes256(v)`: the 32 bytes of a value, the least significant first (R40). -/
def bytes256 (v : Fe) : List Byte := leBytes 32 v.toNat

/-- The 32-byte value of a slot (R27, R45). -/
def State.slotValue (s : State) (slot : Nat) : Fe := le256 (s.memRead (32 * slot) 32)

/-! ### Fetch (R41, R141 step 1) -/

/-- The byte offset in the IMEM window of the word at PC. -/
def State.fetchAddr (s : State) : Nat := 8 * s.pc.toNat

/-- The 8 bytes of the word at PC. -/
def State.fetchBytes (s : State) : List Byte := s.imemRead s.fetchAddr 8

/-- `W <- IMEM[PC]`. -/
def State.fetchWord (s : State) : IWord := BitVec.ofNat 64 (leNat s.fetchBytes)

/-! ### Faults (R150, R155) -/

/-- The five causes of R150. -/
inductive Cause where
  | illegalOpcode
  | reservedField
  | illegalOperand
  | pcOverrun
  | notReduced
  deriving DecidableEq, Repr

/-- The code ERRCODE holds after the fault (R150). -/
def Cause.code : Cause → BitVec 8
  | .illegalOpcode => 1
  | .reservedField => 2
  | .illegalOperand => 3
  | .pcOverrun => 4
  | .notReduced => 5

/-- The cause of the fault a rejected word raises (R66). -/
def rejectCause : Reject → Cause
  | .illegalOpcode => .illegalOpcode
  | .reservedField => .reservedField

/-- Taking a fault: ERRCODE holds the code, STATE is FAULT, PC keeps the index of the faulting instruction, and nothing else
changes (R155). -/
def State.takeFault (s : State) (c : Cause) : State := { s with errcode := c.code, run := .fault }

/-- The end of a run as the host acknowledges it with CLEAR: there is no return from a fault inside the unit (R156); with
STATE = DONE or FAULT the state becomes IDLE and ERRCODE and HERR 0, with STATE = IDLE only HERR becomes 0 (R20). With
STATE = BUSY the write that carries CLEAR is refused before it comes here (R24). -/
def State.clear (s : State) : State :=
  match s.run with
  | .done => { s with run := .idle, errcode := 0, herr := false }
  | .fault => { s with run := .idle, errcode := 0, herr := false }
  | .idle => { s with herr := false }
  | .busy => s

/-- The START action (R20, R142): with STATE = IDLE a run begins at ENTRY; otherwise there is no start and HERR becomes 1. -/
def State.start (s : State) : State :=
  match s.run with
  | .idle => { s with pc := s.entry, errcode := 0, run := .busy }
  | .done => { s with herr := true }
  | .fault => { s with herr := true }
  | .busy => { s with herr := true }

/-! ### The order of the checks (R67 checks 3 to 6, R154) -/

/-- An instruction other than HALT, after decoding: the operand checks, then PC_OVERRUN, then the data checks, then the effect
and PC + 1. The first check that fails raises its fault and the instruction has no effect. -/
def complete (operandsOk dataOk : Bool) (effect : State → State) (s : State) : Result :=
  match operandsOk, s.pc == 255, dataOk with
  | false, _, _ => .next (s.takeFault .illegalOperand)
  | true, true, _ => .next (s.takeFault .pcOverrun)
  | true, false, false => .next (s.takeFault .notReduced)
  | true, false, true => .next (effect s).advance

end Sys2Proof.Machine
end

