-- ==== Sys2Proof/Machine/Operands.lean ====
section
/-! DEFINITION. The operand forms: slot numbers and multipliers in the immediate (spec/30_encoding.md R63) and the register
restrictions of the composite instructions (R64, spec/60_exceptions.md R153). -/

namespace Sys2Proof.Machine

/-- The slot number of UNPACK, PACK and LDK: `zext_32(imm)` (R63). -/
def slotNumber (imm : HWord) : Nat := imm.toNat

/-- A slot number must be below NSLOT (R63, R43). -/
def slotOk (imm : HWord) : Bool := decide (slotNumber imm < Config.NSLOT)

/-- The byte address of a slot (R43, R45). -/
def slotAddr (imm : HWord) : Nat := 32 * slotNumber imm

/-- The multiplier of MULS: `sext_32(imm)` (R63). -/
def multiplier (imm : HWord) : Int := imm.toInt

/-- A multiplier's magnitude is at most 2^28 (R98). -/
def multiplierOk (imm : HWord) : Bool :=
  decide (-Config.MULS_BOUND ≤ multiplier imm) && decide (multiplier imm ≤ Config.MULS_BOUND)

/-- The value of SET: `zext_32(imm)` (R63). -/
def setValue (imm : HWord) : Fe := imm.zeroExtend 256

/-- One of T1 to T4. -/
def isPointTemp (r : Reg) : Bool := r == Reg.t1 || r == Reg.t2 || r == Reg.t3 || r == Reg.t4

/-- The source of RECIP and RECIPS is none of T0 to T4 (R110). -/
def recipSourceOk (ra : Reg) : Bool := !(ra == Reg.t0 || isPointTemp ra)

/-- The source of SQRT is none of T0, DX, X0, Z0, T1 to T4 (R114). -/
def sqrtSourceOk (ra : Reg) : Bool :=
  !(ra == Reg.t0 || ra == Reg.dx || ra == Reg.x0 || ra == Reg.z0 || isPointTemp ra)

/-- The two destinations of MPREP differ (R121). -/
def mprepOk (rd rc : Reg) : Bool := rd != rc

/-- The operands of MADD are three different registers, none of T1 to T4 (R122). -/
def maddOk (ra rb rc : Reg) : Bool :=
  ra != rb && ra != rc && rb != rc && !(isPointTemp ra) && !(isPointTemp rb) && !(isPointTemp rc)

/-- The operands of MDBL are two different registers, none of T1 to T4 (R123). -/
def mdblOk (ra rb : Reg) : Bool := ra != rb && !(isPointTemp ra) && !(isPointTemp rb)

end Sys2Proof.Machine
end

