-- ==== Sys2Proof/Machine/Flags.lean ====
section
/-! DEFINITION. The forms of a register content (spec/10_state.md R12) and the two flag computations
(spec/41_field_arith.md R102 to R105), with the limb view (R11, R103). -/

namespace Sys2Proof.Machine

/-- Reduced form: V < 2^255 (R12). -/
def isReduced (v : Fe) : Bool := decide (v.toNat < 2 ^ 255)

/-- Canonical form: V < P (R12). -/
def isCanonical (v : Fe) : Bool := decide (v.toNat < Config.P)

/-- `ovf(V)`: V is at least P (R103). -/
def ovfOf (v : Fe) : Bool := decide (Config.P ≤ v.toNat)

/-- The value TSTNEG writes: `ovf(V) xor V[0]` (R105). -/
def negOf (v : Fe) : Bool := (ovfOf v).xor (v.getLsbD 0)

/-- The canonical value PACK stores for a reduced V: V - P if V is at least P, else V (R83). -/
def canonical (v : Fe) : Fe := if Config.P ≤ v.toNat then BitVec.ofNat 256 (v.toNat - Config.P) else v

/-- Limb `i` of a register content (R11). -/
def limb (v : Fe) (i : Nat) : BitVec 16 := v.extractLsb' (16 * i) 16

/-- The limbs of a register content, limb 0 first (R11). -/
def limbs (v : Fe) : List (BitVec 16) :=
  [limb v 0, limb v 1, limb v 2, limb v 3, limb v 4, limb v 5, limb v 6, limb v 7,
   limb v 8, limb v 9, limb v 10, limb v 11, limb v 12, limb v 13, limb v 14, limb v 15]

/-- The integer of a list of limbs, limb 0 first (R11). -/
def limbsNat : List (BitVec 16) → Nat
  | [] => 0
  | l :: ls => l.toNat + 2 ^ 16 * limbsNat ls

/-- `ovf(V)` read off the limbs (R103). -/
def ovfLimbs (v : Fe) : Bool :=
  limb v 15 == 0x7FFF && limb v 14 == 0xFFFF && limb v 13 == 0xFFFF && limb v 12 == 0xFFFF &&
  limb v 11 == 0xFFFF && limb v 10 == 0xFFFF && limb v 9 == 0xFFFF && limb v 8 == 0xFFFF &&
  limb v 7 == 0xFFFF && limb v 6 == 0xFFFF && limb v 5 == 0xFFFF && limb v 4 == 0xFFFF &&
  limb v 3 == 0xFFFF && limb v 2 == 0xFFFF && limb v 1 == 0xFFFF && decide (0xFFED ≤ (limb v 0).toNat)

end Sys2Proof.Machine
end

