-- ==== Sys2Proof/Machine/Field.lean ====
section
/-! DEFINITION. The exact arithmetic of the field instructions (spec/41_field_arith.md R90 to R100): an exact integer from the
operands, then a fixed number of folds. -/

namespace Sys2Proof.Machine

/-- `fold1(t) = (t mod 2^255) + 19·(t div 2^255)` (R90). -/
def fold1 (t : Nat) : Nat := t % 2 ^ 255 + 19 * (t / 2 ^ 255)

/-- One fold, as a register content (R91). -/
def foldOnce (t : Nat) : Fe := BitVec.ofNat 256 (fold1 t)

/-- Two folds, as a register content (R91). -/
def foldTwice (t : Nat) : Fe := BitVec.ofNat 256 (fold1 (fold1 t))

/-- ADD (R94). -/
def feAdd (a b : Fe) : Fe := foldOnce (a.toNat + b.toNat)

/-- SUB: the bias 4·P keeps the integer positive (R95). -/
def feSub (a b : Fe) : Fe := foldOnce (a.toNat + 4 * Config.P - b.toNat)

/-- MUL (R96). -/
def feMul (a b : Fe) : Fe := foldTwice (a.toNat * b.toNat)

/-- SQR (R97). -/
def feSqr (a : Fe) : Fe := foldTwice (a.toNat * a.toNat)

/-- The exact integer of MULS: m·a, plus 2^30·P when m is negative (R98). -/
def mulsExact (a : Fe) (m : Int) : Int :=
  if 0 ≤ m then m * a.toNat else m * a.toNat + 2 ^ 30 * Config.P

/-- MULS (R98). -/
def feMuls (a : Fe) (m : Int) : Fe := foldTwice (mulsExact a m).toNat

/-- REDUCE (R99). -/
def feReduce (a : Fe) : Fe := foldTwice a.toNat

/-! ### The structures inside the unit that have no visible effect of their own (R90, R100) -/

/-- Add `c` into the lowest limb and propagate the carry upward, each limb kept to 16 bits (R90). -/
def addCarry : List (BitVec 16) → Nat → List (BitVec 16)
  | [], _ => []
  | l :: ls, c => BitVec.ofNat 16 (l.toNat + c) :: addCarry ls ((l.toNat + c) / 2 ^ 16)

/-- `fold1` of a register content in the limb view: bit 15 of limb 15 is taken out and 19 times it added into limb 0 (R90). -/
def fold1Limbs (v : Fe) : List (BitVec 16) :=
  let c := (limb v 15).toNat / 2 ^ 15
  addCarry ((limbs v).take 15 ++ [BitVec.ofNat 16 ((limb v 15).toNat % 2 ^ 15)]) (19 * c)

/-- The exact product from three half-size products, the cross term by subtraction (R100). -/
def karatsuba (a b : Nat) : Nat :=
  let aL := a % 2 ^ 128
  let aH := a / 2 ^ 128
  let bL := b % 2 ^ 128
  let bH := b / 2 ^ 128
  let p0 := aL * bL
  let p2 := aH * bH
  let p1 := (aL + aH) * (bL + bH)
  p0 + 2 ^ 128 * (p1 - p0 - p2) + 2 ^ 256 * p2

end Sys2Proof.Machine
end

