-- ==== Sys2Proof/Machine/Micro.lean ====
section
/-! DEFINITION. The primitive operations, the fixed sequences of them that the composite instructions are
(spec/42_exponentiation.md R110 to R114, spec/43_montgomery.md R120 to R123, spec/44_ladder.md R130 to R135), and the trace of
operation names (spec/70_reset_and_hazards.md R192, R194). -/

namespace Sys2Proof.Machine

/-- The name of a primitive operation, as a trace shows it (R194). -/
inductive PrimName where
  | set
  | cpy
  | add
  | sub
  | mul
  | sqr
  | muls
  | reduce
  deriving DecidableEq, Repr

/-- A primitive operation on named registers. `prep` is the pair ADD, SUB of MPREP, whose two sources are both read before
either destination is written (R121, log 9). -/
inductive MicroOp where
  | set (rd : Reg) (imm : HWord)
  | cpy (rd ra : Reg)
  | add (rd ra rb : Reg)
  | sub (rd ra rb : Reg)
  | mul (rd ra rb : Reg)
  | sqr (rd ra : Reg)
  | muls (rd ra : Reg) (imm : HWord)
  | reduce (rd ra : Reg)
  | prep (rd ra rb rc : Reg)
  deriving DecidableEq, Repr

/-- The effect of one operation on the register file: sources are read before the destination is written (R14). -/
def MicroOp.apply : MicroOp → Regs → Regs
  | .set rd imm, f => f.write rd (setValue imm)
  | .cpy rd ra, f => f.write rd (f.read ra)
  | .add rd ra rb, f => f.write rd (feAdd (f.read ra) (f.read rb))
  | .sub rd ra rb, f => f.write rd (feSub (f.read ra) (f.read rb))
  | .mul rd ra rb, f => f.write rd (feMul (f.read ra) (f.read rb))
  | .sqr rd ra, f => f.write rd (feSqr (f.read ra))
  | .muls rd ra imm, f => f.write rd (feMuls (f.read ra) (multiplier imm))
  | .reduce rd ra, f => f.write rd (feReduce (f.read ra))
  | .prep rd ra rb rc, f =>
      (f.write rd (feAdd (f.read ra) (f.read rb))).write rc (feSub (f.read ra) (f.read rb))

/-- The registers an operation writes. -/
def MicroOp.dests : MicroOp → List Reg
  | .set rd _ => [rd]
  | .cpy rd _ => [rd]
  | .add rd _ _ => [rd]
  | .sub rd _ _ => [rd]
  | .mul rd _ _ => [rd]
  | .sqr rd _ => [rd]
  | .muls rd _ _ => [rd]
  | .reduce rd _ => [rd]
  | .prep rd _ _ rc => [rd, rc]

/-- The operations performed one after another, each seeing the writes of those before it (R14). -/
def runOps : List MicroOp → Regs → Regs
  | [], f => f
  | op :: ops, f => runOps ops (op.apply f)

/-- The body of `n × { … }` (R111). -/
def times : Nat → List MicroOp → List MicroOp
  | 0, _ => []
  | n + 1, ops => ops ++ times n ops

/-- An instruction that is a fixed sequence of operations on the registers: the checks, then the sequence, then PC + 1. -/
def sequence (operandsOk : Bool) (ops : List MicroOp) (s : State) : Result :=
  complete operandsOk true (fun s => s.withRegs (runOps ops s.regs)) s

/-! ### Exponentiation -/

/-- Steps 1 to 13 of R111 for the source register `x`: T2 holds x^(2^10 - 1), T0 holds x^11. -/
def chain13 (x : Reg) : List MicroOp :=
  [.sqr .t1 x, .sqr .t2 .t1, .sqr .t0 .t2, .mul .t2 .t0 x, .mul .t0 .t2 .t1, .sqr .t1 .t0, .mul .t3 .t1 .t2,
   .sqr .t1 .t3, .sqr .t2 .t1, .sqr .t1 .t2, .sqr .t2 .t1, .sqr .t1 .t2, .mul .t2 .t1 .t3]

/-- Steps 14 to 17: T1 holds x^(2^20 - 1). -/
def chain17 : List MicroOp :=
  [.sqr .t1 .t2, .sqr .t3 .t1] ++ (times 4 [.sqr .t1 .t3, .sqr .t3 .t1] ++ [.mul .t1 .t3 .t2])

/-- Steps 18 to 21: T3 holds x^(2^40 - 1). -/
def chain21 : List MicroOp :=
  [.sqr .t3 .t1, .sqr .t4 .t3] ++ (times 9 [.sqr .t3 .t4, .sqr .t4 .t3] ++ [.mul .t3 .t4 .t1])

/-- Steps 22 and 23: T1 holds x^(2^50 - 1). -/
def chain23 : List MicroOp := times 5 [.sqr .t1 .t3, .sqr .t3 .t1] ++ [.mul .t1 .t3 .t2]

/-- Steps 24 to 27: T2 holds x^(2^100 - 1). -/
def chain27 : List MicroOp :=
  [.sqr .t2 .t1, .sqr .t3 .t2] ++ (times 24 [.sqr .t2 .t3, .sqr .t3 .t2] ++ [.mul .t2 .t3 .t1])

/-- Steps 28 to 31: T3 holds x^(2^200 - 1). -/
def chain31 : List MicroOp :=
  [.sqr .t3 .t2, .sqr .t4 .t3] ++ (times 49 [.sqr .t3 .t4, .sqr .t4 .t3] ++ [.mul .t3 .t4 .t2])

/-- Steps 32 to 35: T2 holds x^(2^252 - 2^2). -/
def chain35 : List MicroOp :=
  times 25 [.sqr .t4 .t3, .sqr .t3 .t4] ++ [.mul .t2 .t3 .t1, .sqr .t1 .t2, .sqr .t2 .t1]

/-- Steps 1 to 35 of R111 for the source register `x`. -/
def chainOps (x : Reg) : List MicroOp :=
  chain13 x ++ (chain17 ++ (chain21 ++ (chain23 ++ (chain27 ++ (chain31 ++ chain35)))))

/-- RECIP: the chain and steps 36 to 39 (R112). -/
def recipOps (rd x : Reg) : List MicroOp :=
  chainOps x ++ [.sqr .t1 .t2, .sqr .t2 .t1, .sqr .t1 .t2, .mul rd .t1 .t0]

/-- RECIPS: the chain and step 36s (R113). -/
def recipsOps (rd x : Reg) : List MicroOp := chainOps x ++ [.mul rd x .t2]

/-- SQRT: r = u·v·(2u·v² - 1) with v = (2u)^((P-5)/8) (R114). -/
def sqrtOps (rd u : Reg) : List MicroOp :=
  [.add .dx u u] ++ recipsOps .x0 .dx ++
  [.sqr .z0 .x0, .mul .z0 .dx .z0, .set .t0 1, .sub .z0 .z0 .t0, .mul .dx .x0 .z0, .mul rd u .dx]

/-! ### Montgomery point operations -/

/-- MPREP (R121). -/
def mprepOps (rd ra rb rc : Reg) : List MicroOp := [.prep rd ra rb rc]

/-- MADD (R122). -/
def maddOps (x z d : Reg) : List MicroOp :=
  [.mul x .t2 .t3, .mul z .t1 .t4, .add .t1 x z, .sub .t2 x z, .sqr x .t1, .sqr .t1 .t2, .mul z .t1 d]

/-- MDBL (R123). -/
def mdblOps (x z : Reg) : List MicroOp :=
  [.sqr .t1 .t3, .sqr .t2 .t4, .mul x .t1 .t2, .sub .t2 .t1 .t2, .muls z .t2 Config.A24, .add .t1 .t1 z, .mul z .t1 .t2]

/-! ### The ladder -/

/-- The X register of slot `b` (R132). -/
def slotX (b : Bool) : Reg := if b then .x1 else .x0

/-- The Z register of slot `b` (R132). -/
def slotZ (b : Bool) : Reg := if b then .z1 else .z0

/-- One step for key bit `b`: slot A = slot (1 - b) receives the sum, slot B = slot b is doubled (R132). -/
def stepOps (b : Bool) : List MicroOp :=
  mprepOps .t1 (slotX !b) (slotZ !b) .t2 ++ mprepOps .t3 (slotX b) (slotZ b) .t4 ++
  maddOps (slotX !b) (slotZ !b) .dx ++ mdblOps (slotX b) (slotZ b)

/-- The steps for bits n - 1 down to 0 of the scalar (R131, R133). -/
def stepsOps (k : Fe) : Nat → List MicroOp
  | 0 => []
  | n + 1 => stepOps (k.getLsbD n) ++ stepsOps k n

/-- The 256 steps and the affine extraction (R131, R133). -/
def ladderTail (k : Fe) : List MicroOp := stepsOps k 256 ++ recipOps .t1 .z0 ++ [.mul .dx .x0 .t1]

/-- LADDER (R131). -/
def ladderOps (k : Fe) (ra : Reg) : List MicroOp :=
  [.cpy .dx ra, .set .x0 1, .set .z0 0, .cpy .x1 .dx, .set .z1 1] ++ ladderTail k

/-- LADDERG: the first operation sets DX to 9 (R135). -/
def laddergOps (k : Fe) : List MicroOp :=
  [.set .dx Config.GX, .set .x0 1, .set .z0 0, .cpy .x1 .dx, .set .z1 1] ++ ladderTail k

/-! ### The trace (R194): a function of the instruction, no state of the machine (R166, log 12) -/

/-- The primitive operations an instruction performs, for the scalar `k`; none for those that are no field arithmetic (R194).
DESIGN CHOICE (log 20): the list is that of the mnemonic, as R194's table counts it, whatever the operands and PC: an
instruction that faults (ILLEGAL_OPERAND, PC_OVERRUN) has it too, though it performs none of it (R155). -/
def opsOf (k : Fe) : Instr → List MicroOp
  | .halt => []
  | .set rd imm => [.set rd imm]
  | .cpy rd ra => [.cpy rd ra]
  | .unpack _ _ => []
  | .pack _ _ => []
  | .ldk _ => []
  | .wipe => []
  | .add rd ra rb => [.add rd ra rb]
  | .sub rd ra rb => [.sub rd ra rb]
  | .mul rd ra rb => [.mul rd ra rb]
  | .sqr rd ra => [.sqr rd ra]
  | .muls rd ra imm => [.muls rd ra imm]
  | .reduce rd ra => [.reduce rd ra]
  | .tstovf _ => []
  | .tstneg _ => []
  | .recip rd ra => recipOps rd ra
  | .recips rd ra => recipsOps rd ra
  | .sqrt rd ra => sqrtOps rd ra
  | .mprep rd ra rb rc => mprepOps rd ra rb rc
  | .madd ra rb rc => maddOps ra rb rc
  | .mdbl ra rb => mdblOps ra rb
  | .ladder ra => ladderOps k ra
  | .ladderg => laddergOps k

/-- The names an operation adds to the trace. -/
def MicroOp.names : MicroOp → List PrimName
  | .set _ _ => [.set]
  | .cpy _ _ => [.cpy]
  | .add _ _ _ => [.add]
  | .sub _ _ _ => [.sub]
  | .mul _ _ _ => [.mul]
  | .sqr _ _ => [.sqr]
  | .muls _ _ _ => [.muls]
  | .reduce _ _ => [.reduce]
  | .prep _ _ _ _ => [.add, .sub]

/-- The trace of a sequence of operations. -/
def traceOps : List MicroOp → List PrimName
  | [] => []
  | op :: ops => op.names ++ traceOps ops

/-- The primitive-operation trace of an instruction for the scalar `k` (R194); that of a completing run of it, also
for operands or a PC on which it faults (DESIGN CHOICE, log 20). -/
def traceOf (k : Fe) (i : Instr) : List PrimName := traceOps (opsOf k i)

end Sys2Proof.Machine
end

