-- ==== Sys2Proof/Machine/Arith.lean ====
section
/-! DEFINITION. ADD, SUB, MUL, SQR, MULS, REDUCE, TSTOVF, TSTNEG (spec/41_field_arith.md R94 to R105). -/

namespace Sys2Proof.Machine

/-- R94. -/
def execAdd (rd ra rb : Reg) (s : State) : Result := sequence true [.add rd ra rb] s

/-- R95. -/
def execSub (rd ra rb : Reg) (s : State) : Result := sequence true [.sub rd ra rb] s

/-- R96. -/
def execMul (rd ra rb : Reg) (s : State) : Result := sequence true [.mul rd ra rb] s

/-- R97. -/
def execSqr (rd ra : Reg) (s : State) : Result := sequence true [.sqr rd ra] s

/-- R98: the check is on the instruction word only. -/
def execMuls (rd ra : Reg) (imm : HWord) (s : State) : Result := sequence (multiplierOk imm) [.muls rd ra imm] s

/-- R99. -/
def execReduce (rd ra : Reg) (s : State) : Result := sequence true [.reduce rd ra] s

/-- R104: NOT_REDUCED on an unreduced source. -/
def execTstovf (ra : Reg) (s : State) : Result :=
  complete true (isReduced (s.reg ra)) (fun s => s.withOvf (ovfOf (s.reg ra))) s

/-- R105: NOT_REDUCED on an unreduced source. -/
def execTstneg (ra : Reg) (s : State) : Result :=
  complete true (isReduced (s.reg ra)) (fun s => s.withNeg (negOf (s.reg ra))) s

end Sys2Proof.Machine
end

