-- ==== Sys2Proof/Machine/Control.lean ====
section
/-! DEFINITION. HALT (spec/45_control.md R140). -/

namespace Sys2Proof.Machine

/-- R140: the run ends, PC keeps the index of the HALT; legal at every index, so no PC_OVERRUN (R144). -/
def execHalt (s : State) : Result := .next s.finish

end Sys2Proof.Machine
end

