-- ==== Sys2Proof/Machine/Exponent.lean ====
section
/-! DEFINITION. RECIP, RECIPS, SQRT (spec/42_exponentiation.md R110 to R114). The operand check comes before the first
primitive operation, so a faulting composite changes nothing. -/

namespace Sys2Proof.Machine

/-- R112. -/
def execRecip (rd ra : Reg) (s : State) : Result := sequence (recipSourceOk ra) (recipOps rd ra) s

/-- R113. -/
def execRecips (rd ra : Reg) (s : State) : Result := sequence (recipSourceOk ra) (recipsOps rd ra) s

/-- R114. -/
def execSqrt (rd ra : Reg) (s : State) : Result := sequence (sqrtSourceOk ra) (sqrtOps rd ra) s

end Sys2Proof.Machine
end

