-- ==== Sys2Proof/Machine/Ladder.lean ====
section
/-! DEFINITION. LADDER, LADDERG (spec/44_ladder.md R130 to R136). -/

namespace Sys2Proof.Machine

/-- R131. -/
def execLadder (ra : Reg) (s : State) : Result := sequence true (ladderOps s.k ra) s

/-- R135. -/
def execLadderg (s : State) : Result := sequence true (laddergOps s.k) s

end Sys2Proof.Machine
end

