-- ==== Sys2Proof/Machine/Montgomery.lean ====
section
/-! DEFINITION. MPREP, MADD, MDBL (spec/43_montgomery.md R120 to R123). -/

namespace Sys2Proof.Machine

/-- R121: rd receives the sum and rc the difference of ra and rb. -/
def execMprep (rd ra rb rc : Reg) (s : State) : Result := sequence (mprepOk rd rc) (mprepOps rd ra rb rc) s

/-- R122. -/
def execMadd (ra rb rc : Reg) (s : State) : Result := sequence (maddOk ra rb rc) (maddOps ra rb rc) s

/-- R123. -/
def execMdbl (ra rb : Reg) (s : State) : Result := sequence (mdblOk ra rb) (mdblOps ra rb) s

end Sys2Proof.Machine
end

