-- ==== Sys2Proof/Machine/Move.lean ====
section
/-! DEFINITION. SET, CPY, UNPACK, PACK, LDK, WIPE (spec/40_move_and_io.md R80 to R85). -/

namespace Sys2Proof.Machine

/-- R80. -/
def execSet (rd : Reg) (imm : HWord) (s : State) : Result := sequence true [.set rd imm] s

/-- R81. -/
def execCpy (rd ra : Reg) (s : State) : Result := sequence true [.cpy rd ra] s

/-- R82: raw, all 256 bits. -/
def execUnpack (rd : Reg) (imm : HWord) (s : State) : Result :=
  complete (slotOk imm) true (fun s => s.withRegs (s.regs.write rd (s.slotValue (slotNumber imm)))) s

/-- R83: the source must be reduced; the canonical value is stored. -/
def execPack (ra : Reg) (imm : HWord) (s : State) : Result :=
  complete (slotOk imm) (isReduced (s.reg ra))
    (fun s => s.memWrite (slotAddr imm) (bytes256 (canonical (s.reg ra)))) s

/-- R84: all 256 bits, neither clamped nor checked. -/
def execLdk (imm : HWord) (s : State) : Result :=
  complete (slotOk imm) true (fun s => s.withK (s.slotValue (slotNumber imm))) s

/-- R85. -/
def execWipe (s : State) : Result := complete true true State.wipe s

end Sys2Proof.Machine
end

