-- ==== Sys2Proof/Machine/Dispatch.lean ====
section
/-! DEFINITION. One arm per instruction. -/

namespace Sys2Proof.Machine

def exec (i : Instr) (s : State) : Host.Outcome State Fault Refusal :=
  match i with
  | .halt => Sys2Proof.Machine.execHalt s
  | .set rd imm => Sys2Proof.Machine.execSet rd imm s
  | .cpy rd ra => Sys2Proof.Machine.execCpy rd ra s
  | .unpack rd imm => Sys2Proof.Machine.execUnpack rd imm s
  | .pack ra imm => Sys2Proof.Machine.execPack ra imm s
  | .ldk imm => Sys2Proof.Machine.execLdk imm s
  | .wipe => Sys2Proof.Machine.execWipe s
  | .add rd ra rb => Sys2Proof.Machine.execAdd rd ra rb s
  | .sub rd ra rb => Sys2Proof.Machine.execSub rd ra rb s
  | .mul rd ra rb => Sys2Proof.Machine.execMul rd ra rb s
  | .sqr rd ra => Sys2Proof.Machine.execSqr rd ra s
  | .muls rd ra imm => Sys2Proof.Machine.execMuls rd ra imm s
  | .reduce rd ra => Sys2Proof.Machine.execReduce rd ra s
  | .tstovf ra => Sys2Proof.Machine.execTstovf ra s
  | .tstneg ra => Sys2Proof.Machine.execTstneg ra s
  | .recip rd ra => Sys2Proof.Machine.execRecip rd ra s
  | .recips rd ra => Sys2Proof.Machine.execRecips rd ra s
  | .sqrt rd ra => Sys2Proof.Machine.execSqrt rd ra s
  | .mprep rd ra rb rc => Sys2Proof.Machine.execMprep rd ra rb rc s
  | .madd ra rb rc => Sys2Proof.Machine.execMadd ra rb rc s
  | .mdbl ra rb => Sys2Proof.Machine.execMdbl ra rb s
  | .ladder ra => Sys2Proof.Machine.execLadder ra s
  | .ladderg => Sys2Proof.Machine.execLadderg s

end Sys2Proof.Machine
end

