-- ==== Sys2Proof/Machine/HostWindow.lean ====
section
/-! DEFINITION. The host window (spec/10_state.md R20 to R25, spec/20_memory.md R41 to R49, R52), the output line
(spec/60_exceptions.md R160) and the reset input (spec/70_reset_and_hazards.md R180). -/

namespace Sys2Proof.Machine

/-- What a byte offset of the window names: the table of R48. -/
inductive Target where
  | ctrl
  | entry
  | status
  /-- byte address of DMEM -/
  | dmem (a : Nat)
  /-- byte offset in the IMEM window -/
  | imem (a : Nat)
  | unmapped
  deriving DecidableEq, Repr

/-- The table of R48, for an aligned offset. -/
def target (offset : BitVec 12) : Target :=
  let o := offset.toNat
  if o = 0x000 then .ctrl
  else if o = 0x004 then .entry
  else if o = 0x008 then .status
  else if o < 0x400 then .unmapped
  else if o < 0x600 then .dmem (o - 0x400)
  else if o < 0x800 then .unmapped
  else .imem (o - 0x800)

/-- An aligned 32-bit access (R44). -/
def aligned (offset : BitVec 12) (width : Nat) : Bool := width == 4 && offset.toNat % 4 == 0

/-- The output line `irq` (R25, R160). -/
def State.irq (s : State) : Bool := s.ie && (s.run == .done || s.run == .fault)

/-- The code of STATUS.STATE (R19). -/
def RunState.code : RunState → BitVec 2
  | .idle => 0
  | .busy => 1
  | .done => 2
  | .fault => 3

/-- One bit as a field of a word. -/
def bit (b : Bool) : BitVec 1 := BitVec.ofBool b

/-- The word of STATUS with the given fields, at the positions of R22. -/
def statusFields (pc errcode : BitVec 8) (neg ovf herr : Bool) (run : RunState) : HWord :=
  0#8 ++ pc ++ errcode ++ 0#2 ++ bit neg ++ bit ovf ++ 0#1 ++ bit herr ++ run.code

/-- What a read of STATUS returns: PC, OVF and NEG are free values while STATE = BUSY (R22, U6, log 2). -/
def State.statusWord (s : State) : HWord :=
  match s.run with
  | .busy => statusFields (Config.busyPc s.busyReads) s.errcode (Config.busyNeg s.busyReads)
      (Config.busyOvf s.busyReads) s.herr s.run
  | .idle => statusFields s.pc s.errcode s.neg s.ovf s.herr s.run
  | .done => statusFields s.pc s.errcode s.neg s.ovf s.herr s.run
  | .fault => statusFields s.pc s.errcode s.neg s.ovf s.herr s.run

/-- What a read of CTRL returns: IE in bit 8, START and CLEAR and the reserved bits 0 (R20). -/
def State.ctrlWord (s : State) : HWord := 0#23 ++ bit s.ie ++ 0#8

/-- What a read of ENTRY returns: bits 31:8 are 0 (R21). -/
def State.entryWord (s : State) : HWord := s.entry.zeroExtend 32

/-- A read gave the host the word `v`. -/
def State.reply (s : State) (v : HWord) : State := { s with replies := s.replies ++ [v] }

/-- The effect of a refused access: HERR becomes 1 (R24). -/
def State.refuse (s : State) : State := { s with herr := true }

/-- A refused read returns 0 (R24). -/
def State.refuseRead (s : State) : State := s.refuse.reply 0

/-- A read of STATUS: allowed in every STATE; one made while BUSY uses up a free value (R22, R24). -/
def State.readStatus (s : State) : State :=
  match s.run with
  | .busy => { s with replies := s.replies ++ [s.statusWord], busyReads := s.busyReads + 1 }
  | .idle => s.reply s.statusWord
  | .done => s.reply s.statusWord
  | .fault => s.reply s.statusWord

/-- A host read: refused if it is no aligned 32-bit word, if its offset is unmapped, or, while BUSY, if it is not of STATUS;
no accepted read changes the machine (R24, R44, R47 to R49). -/
def hostRead (offset : BitVec 12) (width : Nat) (s : State) : State :=
  if aligned offset width = false then s.refuseRead
  else match target offset with
  | .status => s.readStatus
  | .ctrl => if s.run = .busy then s.refuseRead else s.reply s.ctrlWord
  | .entry => if s.run = .busy then s.refuseRead else s.reply s.entryWord
  | .dmem a => if s.run = .busy then s.refuseRead else s.reply (BitVec.ofNat 32 (leNat (s.memRead a 4)))
  | .imem a => if s.run = .busy then s.refuseRead else s.reply (BitVec.ofNat 32 (leNat (s.imemRead a 4)))
  | .unmapped => s.refuseRead

/-- An accepted write to CTRL: IE, then CLEAR, then START (R20). -/
def State.writeCtrl (s : State) (v : HWord) : State :=
  let s1 := { s with ie := v.getLsbD 8 }
  let s2 := if v.getLsbD 1 then s1.clear else s1
  if v.getLsbD 0 then s2.start else s2

/-- A host write: refused if it is no aligned 32-bit word, while BUSY, to STATUS, or to an unmapped offset; a refused write
changes nothing but HERR (R24, R44, R48, R49, R52). -/
def hostWrite (offset : BitVec 12) (width : Nat) (v : HWord) (s : State) : State :=
  if aligned offset width = false then s.refuse
  else if s.run = .busy then s.refuse
  else match target offset with
  | .ctrl => s.writeCtrl v
  | .entry => { s with entry := v.truncate 8 }
  | .status => s.refuse
  | .dmem a => s.memWrite a (leBytes 4 v.toNat)
  | .imem a => s.imemWrite a (leBytes 4 v.toNat)
  | .unmapped => s.refuse

/-- The reset event, in any STATE: every piece of the spec's state takes its value of R32, and IMEM is unspecified anew
(R180). The moves still to come and the replies belong to the host, not to the unit (log 7). -/
def State.resetEvent (s : State) : State :=
  { State.reset with
    hostMoves := s.hostMoves, replies := s.replies, imemGen := s.imemGen + 1, busyReads := s.busyReads }

end Sys2Proof.Machine
end

