-- ==== Sys2Proof/Machine/Cycle.lean ====
section
/-! DEFINITION. The instruction cycle (spec/45_control.md R141) and whose move comes next (spec/00_scope.md R5, log 3). -/

namespace Sys2Proof.Machine

/-- The unit's move. While BUSY: fetch the word at PC, decode it, and either take the fault of a rejected word or execute the
instruction (R141); in any other STATE nothing executes (R169, R181). -/
def unitStep (s : State) : Result :=
  match s.run with
  | .busy =>
    match decodeWord s.fetchWord with
    | .ok i => exec i s
    | .error r => .next (s.takeFault (rejectCause r))
  | .idle => .next s
  | .done => .next s
  | .fault => .next s

/-- A move of the host or the platform; `wait` lets the unit move. -/
def hostTurn (m : HostMove) (s : State) : Result :=
  match m with
  | .wait => unitStep s
  | .read offset width => .next (hostRead offset width s)
  | .write offset width v => .next (hostWrite offset width v s)
  | .reset => .next s.resetEvent

/-- One step of the whole machine: the oldest move of the host's still to come, or, when none is, the unit's move. -/
def turn (s : State) : Result :=
  match s.hostMoves with
  | [] => unitStep s
  | m :: rest => hostTurn m { s with hostMoves := rest }

/-- The state in which the unit's next move fetches word `w`: `w` stands at PC in IMEM, a run is in progress (as after an
accepted START, so ERRCODE is 0, R20) and no move of the host comes first (log 6). -/
def placeWord (s : State) (w : IWord) : State :=
  { s.imemWrite s.fetchAddr (leBytes 8 w.toNat) with run := .busy, errcode := 0, hostMoves := [] }

end Sys2Proof.Machine
end

