-- ==== Sys2Proof/Machine/Step.lean ====
section
/-! DEFINITION. One step of the machine, and the state that runs a given word next. -/

namespace Sys2Proof.Machine

/-- One step: Machine/Cycle.lean says whose move it is and what it does. -/
def step (s : State) : Host.Outcome State Fault Refusal := turn s

/-- `s` with the instruction of bits `w` (every bit at or above `nbits` zero) standing where the next step fetches it, and
a run in progress (log 6). -/
def State.withFetchWord (s : State) (nbits w : Nat) : State := placeWord s (BitVec.ofNat 64 (w % 2 ^ nbits))

end Sys2Proof.Machine
end

