-- ==== Sys2Proof/Safety.lean ====
section
/-! DEFINITION. The terms claims are made in: the invariant of the machine, the frame of an instruction, the field element a
register stands for, and the x-only curve arithmetic over the field that the composite instructions perform. -/

namespace Sys2Proof.Machine

/-! ### The invariant -/

/-- ERRCODE is 0 except with STATE = FAULT, where it holds the code of a fault (spec/10_state.md R23, spec/60_exceptions.md
R150). -/
def errcodeOk (run : RunState) (errcode : BitVec 8) : Bool :=
  match run with
  | .fault => decide (1 ≤ errcode.toNat) && decide (errcode.toNat ≤ 5)
  | .idle => errcode == 0
  | .busy => errcode == 0
  | .done => errcode == 0

/-- The invariant every step keeps: both memories are in canonical form inside their sizes, and ERRCODE is what R23 says. -/
structure State.Inv (s : State) : Prop where
  dmem : Memory.wf dmemSize (some dmemUnlisted) s.dmem = true
  imem : Memory.wf imemSize none s.imem = true
  errcode : errcodeOk s.run s.errcode = true

/-! ### Whose move it is -/

/-- In the next step of `s` the unit moves, and it moves from `u`: no move of the host's is to come, or the oldest one lets
the unit move and is used up (log 3). -/
def UnitTurn (s u : State) : Prop :=
  (s.hostMoves = [] ∧ u = s) ∨ ∃ rest, s.hostMoves = .wait :: rest ∧ u = { s with hostMoves := rest }

/-- How many of the moves to come are the host's or the platform's own, in which the unit executes nothing. -/
def accessCount (l : List HostMove) : Nat := l.countP (· != .wait)

/-! ### Encodings, windows and traces -/

/-- The word with opcode `op`, the four register fields and the immediate where spec/30_encoding.md R61 lays them out, from the
most significant bit down, and `z` zero. -/
def instrWord (op : BitVec 8) (rd ra rb rc : Reg) (imm : HWord) : IWord :=
  op ++ regField rd ++ regField ra ++ regField rb ++ regField rc ++ 0#8 ++ imm

/-- An offset of the two unmapped ranges of the host window (spec/20_memory.md R48). -/
def unmappedOffset (o : BitVec 12) : Prop :=
  (0x00C ≤ o.toNat ∧ o.toNat < 0x400) ∨ (0x600 ≤ o.toNat ∧ o.toNat < 0x800)

/-- A register with the ladder's two slots taken for one: X1 stands for X0 and Z1 for Z0 (spec/70_reset_and_hazards.md R192:
the selection between them is the one thing a key bit may decide). -/
def mergeSlot (r : Reg) : Reg := if r = Reg.x1 then Reg.x0 else if r = Reg.z1 then Reg.z0 else r

/-- An operation with the ladder's two slots taken for one. -/
def MicroOp.mergeSlots : MicroOp → MicroOp
  | .set rd imm => .set (mergeSlot rd) imm
  | .cpy rd ra => .cpy (mergeSlot rd) (mergeSlot ra)
  | .add rd ra rb => .add (mergeSlot rd) (mergeSlot ra) (mergeSlot rb)
  | .sub rd ra rb => .sub (mergeSlot rd) (mergeSlot ra) (mergeSlot rb)
  | .mul rd ra rb => .mul (mergeSlot rd) (mergeSlot ra) (mergeSlot rb)
  | .sqr rd ra => .sqr (mergeSlot rd) (mergeSlot ra)
  | .muls rd ra imm => .muls (mergeSlot rd) (mergeSlot ra) imm
  | .reduce rd ra => .reduce (mergeSlot rd) (mergeSlot ra)
  | .prep rd ra rb rc => .prep (mergeSlot rd) (mergeSlot ra) (mergeSlot rb) (mergeSlot rc)

/-- How often each name occurs in a trace, in the order of the table of spec/70_reset_and_hazards.md R194. -/
def traceCounts (l : List PrimName) : List Nat :=
  [l.count .set, l.count .cpy, l.count .add, l.count .sub, l.count .mul, l.count .sqr, l.count .muls, l.count .reduce]

/-! ### Frames -/

/-- The destination and the sources of the instructions of the table of spec/41_field_arith.md R92; the others have none
there. -/
def arithmeticOperands : Instr → Option (Reg × List Reg)
  | .add rd ra rb => some (rd, [ra, rb])
  | .sub rd ra rb => some (rd, [ra, rb])
  | .mul rd ra rb => some (rd, [ra, rb])
  | .sqr rd ra => some (rd, [ra])
  | .muls rd ra _ => some (rd, [ra])
  | .reduce rd ra => some (rd, [ra])
  | .halt | .set .. | .cpy .. | .unpack .. | .pack .. | .ldk .. | .wipe | .tstovf .. | .tstneg .. | .recip .. | .recips ..
  | .sqrt .. | .mprep .. | .madd .. | .mdbl .. | .ladder .. | .ladderg => none

/-- Between `s` and `t` nothing changed but PC and the registers of `dests`. -/
structure Frame (dests : List Reg) (s t : State) : Prop where
  reg : ∀ q, q ∉ dests → t.reg q = s.reg q
  k : t.k = s.k
  ovf : t.ovf = s.ovf
  neg : t.neg = s.neg
  run : t.run = s.run
  errcode : t.errcode = s.errcode
  herr : t.herr = s.herr
  ie : t.ie = s.ie
  entry : t.entry = s.entry
  dmem : ∀ a, t.dmemByte a = s.dmemByte a
  imem : ∀ a, t.imemByte a = s.imemByte a
  hostMoves : t.hostMoves = s.hostMoves
  replies : t.replies = s.replies
  imemGen : t.imemGen = s.imemGen
  busyReads : t.busyReads = s.busyReads

/-- The working registers of the reciprocal chain (spec/42_exponentiation.md R110). -/
def chainTemps : List Reg := [Reg.t0, Reg.t1, Reg.t2, Reg.t3, Reg.t4]

/-- F6 to F15 (spec/10_state.md R13). -/
def workingRegs : List Reg := [6, 7, 8, 9, 10, 11, 12, 13, 14, 15]

/-! ### The field -/

/-- The field GF(P). -/
abbrev GF := ZMod Config.P

/-- The field element a register content stands for: V mod P (spec/10_state.md R10). -/
def residue (v : Fe) : GF := (v.toNat : GF)

/-! ### x-only curve arithmetic over the field (spec/43_montgomery.md R122, R123, spec/44_ladder.md R131, R132) -/

/-- A projective point (X : Z). -/
structure XZ where
  x : GF
  z : GF

/-- Differential addition of `A` and `B`, whose difference has affine x-coordinate `d` (R122). -/
def XZ.add (d : GF) (A B : XZ) : XZ :=
  let a := (A.x - A.z) * (B.x + B.z)
  let b := (A.x + A.z) * (B.x - B.z)
  ⟨(a + b) ^ 2, d * (a - b) ^ 2⟩

/-- Doubling, with (A - 2)/4 = 121665 (R123). -/
def XZ.double (B : XZ) : XZ :=
  let p := (B.x + B.z) ^ 2
  let m := (B.x - B.z) ^ 2
  let e := p - m
  ⟨p * m, (p + 121665 * e) * e⟩

/-- The two slots of the ladder. -/
structure Slots where
  slot0 : XZ
  slot1 : XZ

/-- One ladder step for key bit `b`: slot (1 - b) receives the sum, slot b its double (R132). -/
def Slots.step (d : GF) (b : Bool) (S : Slots) : Slots :=
  if b then ⟨XZ.add d S.slot0 S.slot1, S.slot1.double⟩ else ⟨S.slot0.double, XZ.add d S.slot1 S.slot0⟩

/-- The steps for bits n - 1 down to 0 of `k` (R131). -/
def Slots.steps (d : GF) (k : Fe) : Nat → Slots → Slots
  | 0, S => S
  | n + 1, S => Slots.steps d k n (S.step d (k.getLsbD n))

/-- The slots after all 256 steps from ((1 : 0), (d : 1)) (R131, R133). -/
def ladderSlots (d : GF) (k : Fe) : Slots := Slots.steps d k 256 ⟨⟨1, 0⟩, ⟨d, 1⟩⟩

/-- What LADDER and LADDERG leave in the working registers, as residues, for a base point of x-coordinate `d` (R134): the
slots, the reciprocal of Z0 in T1, the result X0·Z0^(P-2) in DX, and the other temporaries as RECIP leaves them. -/
structure LadderResult (d : GF) (k : Fe) (t : State) : Prop where
  x0 : residue (t.reg Reg.x0) = (ladderSlots d k).slot0.x
  z0 : residue (t.reg Reg.z0) = (ladderSlots d k).slot0.z
  x1 : residue (t.reg Reg.x1) = (ladderSlots d k).slot1.x
  z1 : residue (t.reg Reg.z1) = (ladderSlots d k).slot1.z
  t1 : residue (t.reg Reg.t1) = (ladderSlots d k).slot0.z ^ (Config.P - 2)
  dx : residue (t.reg Reg.dx) = (ladderSlots d k).slot0.x * (ladderSlots d k).slot0.z ^ (Config.P - 2)
  dxBound : (t.reg Reg.dx).toNat < 2 ^ 255 + 1444
  t0 : residue (t.reg Reg.t0) = (ladderSlots d k).slot0.z ^ 11
  t2 : residue (t.reg Reg.t2) = (ladderSlots d k).slot0.z ^ (2 ^ 254 - 16)
  t3 : residue (t.reg Reg.t3) = (ladderSlots d k).slot0.z ^ (2 ^ 250 - 2 ^ 50)
  t4 : residue (t.reg Reg.t4) = (ladderSlots d k).slot0.z ^ (2 ^ 249 - 2 ^ 49)

end Sys2Proof.Machine
end

