-- ==== Sys2Proof/Certificates/Slice0/Obligations.lean ====
section
/-! DEFINITION. The statements for the provers. Rule numbers are those of spec/. -/

open Sys2Proof Sys2Proof.Machine

/-! ### Encoding -/

/-- Decoding the bytes of any instruction gives the instruction back, with every operand at every value its field
admits, and leaves the bytes after it; so does decoding its word. -/
def Obligations.DecodeOfEncodeIsTheInstruction : Prop :=
  ∀ (i : Instr) (rest : List Byte),
    decode (encodeBytes i ++ rest) = .ok (i, rest) ∧ decodeWord (encode i) = .ok i

/-- The other direction: a word that decodes is the encoding of what it decodes to, so no two words mean the same. -/
def Obligations.EncodeOfDecodeIsTheWord : Prop :=
  ∀ (w : IWord) (i : Instr), decodeWord w = .ok i → encode i = w

/-- R65: a word is a well-formed instance of a row exactly when `W & mask = match`, for each of the 23 rows of the
table. -/
def Obligations.WordIsInstanceOfRowIffMaskMatches : Prop :=
  opcodeTable.length = 23 ∧
  ∀ (w : IWord) (r : OpcodeRow), r ∈ opcodeTable →
    ((∃ i, decodeWord w = .ok i ∧ i.mnemonic = r.mnemonic) ↔ w &&& r.mask = r.pattern)

/-- R71: the worked encodings decode to the instructions they stand for. -/
def Obligations.WorkedEncodingsDecode : Prop :=
  decodeWord 0x0100000000000000 = .ok .halt ∧
  decodeWord 0x1010000000000009 = .ok (.set 1 9) ∧
  decodeWord 0x2031200000000000 = .ok (.add 3 1 2) ∧
  decodeWord 0x242100000001DB41 = .ok (.muls 2 1 121665) ∧
  decodeWord 0x24210000FFFFFFFF = .ok (.muls 2 1 (-1)) ∧
  decodeWord 0x1307000000000004 = .ok (.pack 7 4) ∧
  decodeWord 0x40C89D0000000000 = .ok (.mprep 12 8 9 13) ∧
  decodeWord 0x4108970000000000 = .ok (.madd 8 9 7) ∧
  decodeWord 0x4400000000000000 = .ok .ladderg

/-! ### The step -/

/-- R141: with a run in progress and no access of the host's coming first, a step is `exec` of the instruction that
the 8 bytes at PC decode to; when the host lets the unit move (log 3), it is that of the state without that move. -/
def Obligations.StepRunsTheDecodedInstruction : Prop :=
  ∀ (s : State) (i : Instr), s.run = .busy → decode s.fetchBytes = .ok (i, []) →
    (s.hostMoves = [] → step s = exec i s) ∧
    (∀ rest, s.hostMoves = .wait :: rest → step s = exec i { s with hostMoves := rest })

/-- R66: a word of an unassigned opcode raises ILLEGAL_OPCODE, a word of an assigned opcode with a non-zero z or
unused field raises RESERVED_FIELD, with no other effect; every other word is an instance of one row; the all-zero
word is illegal. The fault is taken in the unit's turn, with no move of the host's to come or after one that waits. -/
def Obligations.WordsOutsideTheTableEndTheRun : Prop :=
  (∀ s u : State, s.run = .busy → UnitTurn s u →
    ((∀ r ∈ opcodeTable, s.fetchWord.extractLsb' 56 8 ≠ r.pattern.extractLsb' 56 8) →
      decodeWord s.fetchWord = .error .illegalOpcode ∧ step s = .next { u with run := .fault, errcode := 1 }) ∧
    (∀ r ∈ opcodeTable, s.fetchWord.extractLsb' 56 8 = r.pattern.extractLsb' 56 8 →
      (s.fetchWord &&& r.mask ≠ r.pattern →
        decodeWord s.fetchWord = .error .reservedField ∧ step s = .next { u with run := .fault, errcode := 2 }) ∧
      (s.fetchWord &&& r.mask = r.pattern → ∃ i, decodeWord s.fetchWord = .ok i ∧ i.mnemonic = r.mnemonic))) ∧
  decodeWord 0 = .error .illegalOpcode

/-- R143, R145: every run ends, in DONE or FAULT, after at most as many instructions as there are words from PC on,
whatever IMEM holds and whatever the host does meanwhile: it may wait, poll STATUS or make accesses that are refused.
Each of its own moves takes a step of the machine in which the unit executes nothing (the model's choice, log 3), so
of the n steps to the run's end those that are no access, one instruction each, are at most the words left. Only a
reset among the moves can end the run otherwise, in IDLE; until the run ends STATE is BUSY. -/
def Obligations.EveryRunEndsWithin256Instructions : Prop :=
  ∀ s : State, s.run = .busy →
    ∃ n t, n ≤ 256 - s.pc.toNat + accessCount (s.hostMoves.take n) ∧ Host.Core.run Sys2Proof.core n s = .next t ∧
      (t.run = .done ∨ t.run = .fault ∨ (t.run = .idle ∧ .reset ∈ s.hostMoves)) ∧
      ∀ m, m < n → ∃ u, Host.Core.run Sys2Proof.core m s = .next u ∧ u.run = .busy

/-- R169, R181: outside a run nothing executes: in the unit's turn all state survives (a step in which the host makes no
access leaves the state as it is, log 13), and no access of the host's changes F0 to F15, K or a flag, only a reset does.
-/
def Obligations.NothingExecutesOutsideARun : Prop :=
  (∀ s u : State, s.run ≠ .busy → UnitTurn s u → step s = .next u) ∧
  (∀ s t : State, s.run ≠ .busy → step s = .next t → s.hostMoves.head? ≠ some .reset →
    (∀ r, t.reg r = s.reg r) ∧ t.k = s.k ∧ t.ovf = s.ovf ∧ t.neg = s.neg)

/-- R19, R142: STATE changes only by a reset, to IDLE; from BUSY by the unit's HALT, to DONE, or by its fault, to FAULT;
from DONE or FAULT by a CLEAR, to IDLE, or on to BUSY when START stands in the same write; and from IDLE by a START, to
BUSY. -/
def Obligations.StateHasOnlyItsTransitions : Prop :=
  ∀ s t : State, step s = .next t → t.run ≠ s.run →
    (∃ rest, s.hostMoves = .reset :: rest ∧ t.run = .idle) ∨
    (∃ u, s.run = .busy ∧ UnitTurn s u ∧
      ((decodeWord s.fetchWord = .ok .halt ∧ t.run = .done) ∨ (t.run = .fault ∧ t.errcode ≠ 0))) ∨
    (∃ v rest, s.hostMoves = .write 0x000 4 v :: rest ∧
      (((s.run = .done ∨ s.run = .fault) ∧ v.getLsbD 1 = true ∧ t.run = if v.getLsbD 0 then .busy else .idle) ∨
        (s.run = .idle ∧ v.getLsbD 0 = true ∧ t.run = .busy)))

/-- No step of the machine stops: every word, operand, register content and host access has an effect the spec gives.
-/
def Obligations.EveryStepAnswersANextState : Prop :=
  ∀ s : State, ∃ t, step s = .next t

/-- Every step, the host's accesses and the reset among them, keeps the invariant. -/
def Obligations.StepKeepsTheInvariant : Prop :=
  ∀ s t : State, s.Inv → step s = .next t → t.Inv

/-- The invariant holds after reset. -/
def Obligations.ResetMeetsTheInvariant : Prop := State.reset.Inv

/-- R32: the state after reset; a byte of IMEM is unspecified (it reads as the free value of log 1). -/
def Obligations.ResetValues : Prop :=
  (∀ r, State.reset.reg r = 0) ∧ State.reset.k = 0 ∧ State.reset.pc = 0 ∧ State.reset.ovf = false ∧
  State.reset.neg = false ∧ State.reset.run = .idle ∧ State.reset.errcode = 0 ∧ State.reset.herr = false ∧
  State.reset.ie = false ∧ State.reset.irq = false ∧ State.reset.entry = 0 ∧ (∀ a, State.reset.dmemByte a = 0) ∧
  (∀ a, State.reset.imemByte a = Config.imemUnwritten 0 a)

/-- R180: a reset in any STATE, BUSY among them, puts every piece of the unit's state at the value of R32, with IMEM
unspecified anew; the host's moves and replies are not the unit's (log 7). -/
def Obligations.ResetInAnyStateErasesTheUnit : Prop :=
  ∀ (s : State) (rest : List HostMove), s.hostMoves = .reset :: rest →
    ∃ t, step s = .next t ∧ (∀ r, t.reg r = 0) ∧ t.k = 0 ∧ t.pc = 0 ∧ t.ovf = false ∧ t.neg = false ∧ t.run = .idle ∧
      t.errcode = 0 ∧ t.herr = false ∧ t.ie = false ∧ t.irq = false ∧ t.entry = 0 ∧ (∀ a, t.dmemByte a = 0) ∧
      (∀ a, t.imemByte a = Config.imemUnwritten (s.imemGen + 1) a) ∧ t.hostMoves = rest ∧ t.replies = s.replies ∧
      t.imemGen = s.imemGen + 1 ∧ t.busyReads = s.busyReads

/-! ### Moves and DMEM -/

/-- R80: SET (opcode 0x10) writes the immediate as an unsigned integer; nothing else changes. -/
def Obligations.SetWritesTheUnsignedImmediate : Prop :=
  ∀ (rd : Reg) (imm : HWord) (s : State),
    decodeWord (instrWord 0x10 rd 0 0 0 imm) = .ok (.set rd imm) ∧
    (s.pc ≠ 255 →
      ∃ t, exec (.set rd imm) s = .next t ∧ (t.reg rd).toNat = imm.toNat ∧ t.pc = s.pc + 1 ∧ Frame [rd] s t)

/-- R81: CPY (opcode 0x11) copies all 256 bits; nothing else changes. -/
def Obligations.CpyCopiesAllBits : Prop :=
  ∀ (rd ra : Reg) (s : State),
    decodeWord (instrWord 0x11 rd ra 0 0 0) = .ok (.cpy rd ra) ∧
    (s.pc ≠ 255 →
      ∃ t, exec (.cpy rd ra) s = .next t ∧ t.reg rd = s.reg ra ∧ t.pc = s.pc + 1 ∧ Frame [rd] s t)

/-- R82: UNPACK (opcode 0x12) takes the 32 bytes of the slot as they stand, byte j as bits 8j+7 to 8j; nothing else
changes. A slot number of 16 or more raises ILLEGAL_OPERAND with no effect. -/
def Obligations.UnpackLoadsTheSlotRaw : Prop :=
  ∀ (rd : Reg) (imm : HWord) (s : State),
    decodeWord (instrWord 0x12 rd 0 0 0 imm) = .ok (.unpack rd imm) ∧
    (imm.toNat < 16 → s.pc ≠ 255 →
      ∃ t, exec (.unpack rd imm) s = .next t ∧
        (∀ j, j < 32 → (t.reg rd).extractLsb' (8 * j) 8 = s.dmemByte (32 * imm.toNat + j)) ∧
        t.pc = s.pc + 1 ∧ Frame [rd] s t) ∧
    (16 ≤ imm.toNat → exec (.unpack rd imm) s = .next { s with run := .fault, errcode := 3 })

/-- R83: PACK (opcode 0x13) of a reduced register stores the 32 bytes of V mod P at the slot, and every other byte of
DMEM reads as before; no register, flag or other state changes. A slot number of 16 or more raises ILLEGAL_OPERAND,
and otherwise an unreduced source raises NOT_REDUCED, with no effect. Stated for states whose DMEM is in canonical
form, which every step keeps. -/
def Obligations.PackStoresTheCanonicalBytes : Prop :=
  ∀ (ra : Reg) (imm : HWord) (s : State), s.Inv →
    decodeWord (instrWord 0x13 0 ra 0 0 imm) = .ok (.pack ra imm) ∧
    (imm.toNat < 16 → s.pc ≠ 255 → (s.reg ra).toNat < 2 ^ 255 →
      ∃ t, exec (.pack ra imm) s = .next t ∧
        (∀ j, j < 32 → (t.dmemByte (slotAddr imm + j)).toNat = (s.reg ra).toNat % Config.P / 2 ^ (8 * j) % 256) ∧
        (∀ a, a < slotAddr imm ∨ slotAddr imm + 32 ≤ a → t.dmemByte a = s.dmemByte a) ∧
        slotAddr imm = 32 * imm.toNat ∧ t = { s with dmem := t.dmem, pc := s.pc + 1 }) ∧
    (16 ≤ imm.toNat → exec (.pack ra imm) s = .next { s with run := .fault, errcode := 3 }) ∧
    (imm.toNat < 16 → s.pc ≠ 255 → 2 ^ 255 ≤ (s.reg ra).toNat →
      exec (.pack ra imm) s = .next { s with run := .fault, errcode := 5 })

/-- R84: LDK (opcode 0x14) loads K from the slot, bit i of K being bit i mod 8 of byte i div 8 (R15), neither clamped
nor checked; nothing else changes. A slot number of 16 or more raises ILLEGAL_OPERAND with no effect. -/
def Obligations.LdkLoadsTheScalar : Prop :=
  ∀ (imm : HWord) (s : State),
    decodeWord (instrWord 0x14 0 0 0 0 imm) = .ok (.ldk imm) ∧
    (imm.toNat < 16 → s.pc ≠ 255 →
      ∃ v : Fe, exec (.ldk imm) s = .next { s with k := v, pc := s.pc + 1 } ∧
        ∀ i, i < 256 → v.getLsbD i = (s.dmemByte (32 * imm.toNat + i / 8)).getLsbD (i % 8)) ∧
    (16 ≤ imm.toNat → exec (.ldk imm) s = .next { s with run := .fault, errcode := 3 })

/-- R85: WIPE (opcode 0x15) zeroes F0 to F15, K, OVF and NEG and changes nothing else but PC. -/
def Obligations.WipeClearsTheRegisterState : Prop :=
  ∀ s : State,
    decodeWord (instrWord 0x15 0 0 0 0 0) = .ok (.wipe) ∧
    (s.pc ≠ 255 →
      ∃ t, exec .wipe s = .next t ∧ (∀ r, t.reg r = 0) ∧
        t = { s with regs := t.regs, k := 0, ovf := false, neg := false, pc := s.pc + 1 })

/-! ### Field arithmetic -/

/-- R90: the fold, its four properties, and the carry chain over sixteen 16-bit limbs that computes it (R11). -/
def Obligations.FoldProperties : Prop :=
  (∀ t : Nat, fold1 t = t % 2 ^ 255 + 19 * (t / 2 ^ 255) ∧ fold1 t ≡ t [MOD Config.P] ∧
    (t < 2 ^ 255 → fold1 t = t) ∧ (2 ^ 255 ≤ t → fold1 t < t) ∧
    (∀ h, t < 2 ^ 255 * (h + 1) → fold1 t < 2 ^ 255 + 19 * h)) ∧
  (∀ v : Fe, (fold1Limbs v).length = 16 ∧ limbsNat (fold1Limbs v) = fold1 v.toNat ∧ limbsNat (limbs v) = v.toNat)

/-- R100: three half-size products and a subtraction give exactly the product. -/
def Obligations.KaratsubaIsTheExactProduct : Prop :=
  ∀ a b : Nat, a < 2 ^ 256 → b < 2 ^ 256 → karatsuba a b = a * b

/-- R94: ADD (opcode 0x20), with its exact value, its bound and its residue; nothing else changes. -/
def Obligations.AddResult : Prop :=
  ∀ (rd ra rb : Reg) (s : State),
    decodeWord (instrWord 0x20 rd ra rb 0 0) = .ok (.add rd ra rb) ∧
    (s.pc ≠ 255 →
      ∃ t, exec (.add rd ra rb) s = .next t ∧
        (t.reg rd).toNat = fold1 ((s.reg ra).toNat + (s.reg rb).toNat) ∧ (t.reg rd).toNat ≤ 2 ^ 255 + 55 ∧
        residue (t.reg rd) = residue (s.reg ra) + residue (s.reg rb) ∧ t.pc = s.pc + 1 ∧ Frame [rd] s t)

/-- R95: SUB (opcode 0x21), with its exact value, its bound and its residue; nothing else changes. -/
def Obligations.SubResult : Prop :=
  ∀ (rd ra rb : Reg) (s : State),
    decodeWord (instrWord 0x21 rd ra rb 0 0) = .ok (.sub rd ra rb) ∧
    (s.pc ≠ 255 →
      ∃ t, exec (.sub rd ra rb) s = .next t ∧
        ((t.reg rd).toNat : Int) = (fold1 (((s.reg ra).toNat : Int) + 4 * Config.P - (s.reg rb).toNat).toNat : Nat) ∧
        0 ≤ ((s.reg ra).toNat : Int) + 4 * Config.P - (s.reg rb).toNat ∧ (t.reg rd).toNat ≤ 2 ^ 255 + 75 ∧
        residue (t.reg rd) = residue (s.reg ra) - residue (s.reg rb) ∧ t.pc = s.pc + 1 ∧ Frame [rd] s t)

/-- R96: MUL (opcode 0x22), with its exact value, its bound and its residue; nothing else changes. -/
def Obligations.MulResult : Prop :=
  ∀ (rd ra rb : Reg) (s : State),
    decodeWord (instrWord 0x22 rd ra rb 0 0) = .ok (.mul rd ra rb) ∧
    (s.pc ≠ 255 →
      ∃ t, exec (.mul rd ra rb) s = .next t ∧
        (t.reg rd).toNat = fold1 (fold1 ((s.reg ra).toNat * (s.reg rb).toNat)) ∧ (t.reg rd).toNat < 2 ^ 255 + 1444 ∧
        residue (t.reg rd) = residue (s.reg ra) * residue (s.reg rb) ∧ t.pc = s.pc + 1 ∧ Frame [rd] s t)

/-- R97: SQR (opcode 0x23) writes bit for bit what MUL of the register by itself writes; nothing else changes. -/
def Obligations.SqrResult : Prop :=
  ∀ (rd ra : Reg) (s : State),
    decodeWord (instrWord 0x23 rd ra 0 0 0) = .ok (.sqr rd ra) ∧
    (s.pc ≠ 255 →
      ∃ t, exec (.sqr rd ra) s = .next t ∧ exec (.mul rd ra ra) s = .next t ∧
        (t.reg rd).toNat = fold1 (fold1 ((s.reg ra).toNat * (s.reg ra).toNat)) ∧ (t.reg rd).toNat < 2 ^ 255 + 1444 ∧
        residue (t.reg rd) = residue (s.reg ra) ^ 2 ∧ t.pc = s.pc + 1 ∧ Frame [rd] s t)

/-- R98: MULS (opcode 0x24) for a multiplier of magnitude at most 2^28, with its exact value, always reduced, and its
residue; nothing else changes. Any other multiplier raises ILLEGAL_OPERAND with no effect, whatever the register
holds. -/
def Obligations.MulsResult : Prop :=
  ∀ (rd ra : Reg) (imm : HWord) (s : State),
    decodeWord (instrWord 0x24 rd ra 0 0 imm) = .ok (.muls rd ra imm) ∧
    (-2 ^ 28 ≤ imm.toInt → imm.toInt ≤ 2 ^ 28 → s.pc ≠ 255 →
      ∃ t, exec (.muls rd ra imm) s = .next t ∧
        (0 ≤ imm.toInt → (t.reg rd).toNat = fold1 (fold1 (imm.toInt * (s.reg ra).toNat).toNat)) ∧
        (imm.toInt < 0 →
          0 < imm.toInt * (s.reg ra).toNat + 2 ^ 30 * Config.P ∧
          (t.reg rd).toNat = fold1 (fold1 (imm.toInt * (s.reg ra).toNat + 2 ^ 30 * Config.P).toNat)) ∧
        (t.reg rd).toNat < 2 ^ 255 ∧ residue (t.reg rd) = (imm.toInt : GF) * residue (s.reg ra) ∧
        t.pc = s.pc + 1 ∧ Frame [rd] s t) ∧
    ((imm.toInt < -2 ^ 28 ∨ 2 ^ 28 < imm.toInt) →
      exec (.muls rd ra imm) s = .next { s with run := .fault, errcode := 3 })

/-- R99: REDUCE (opcode 0x25), with its exact value, always reduced, and its residue; a reduced source is unchanged;
nothing else changes. -/
def Obligations.ReduceResult : Prop :=
  ∀ (rd ra : Reg) (s : State),
    decodeWord (instrWord 0x25 rd ra 0 0 0) = .ok (.reduce rd ra) ∧
    (s.pc ≠ 255 →
      ∃ t, exec (.reduce rd ra) s = .next t ∧
        (t.reg rd).toNat = fold1 (fold1 (s.reg ra).toNat) ∧ (t.reg rd).toNat < 2 ^ 255 ∧
        residue (t.reg rd) = residue (s.reg ra) ∧ ((s.reg ra).toNat < 2 ^ 255 → t.reg rd = s.reg ra) ∧
        t.pc = s.pc + 1 ∧ Frame [rd] s t)

/-- R101: the laws of the arithmetic instructions: ADD, SUB and MUL give the sum, difference and product mod P; ADD and
MUL are commutative and SQR is MUL of a register by itself bit for bit; MULS by m agrees mod P with MUL by a register
that holds m mod P; REDUCE is idempotent; and the value any of the six writes depends on its operands' values and the
instruction word only. -/
def Obligations.ArithmeticLaws : Prop :=
  (∀ (rd ra rb : Reg) (s : State), s.pc ≠ 255 →
    (∃ t, exec (.add rd ra rb) s = .next t ∧ exec (.add rd rb ra) s = .next t ∧
      residue (t.reg rd) = residue (s.reg ra) + residue (s.reg rb)) ∧
    (∃ t, exec (.sub rd ra rb) s = .next t ∧ residue (t.reg rd) = residue (s.reg ra) - residue (s.reg rb)) ∧
    (∃ t, exec (.mul rd ra rb) s = .next t ∧ exec (.mul rd rb ra) s = .next t ∧
      residue (t.reg rd) = residue (s.reg ra) * residue (s.reg rb)) ∧
    (∃ t, exec (.sqr rd ra) s = .next t ∧ exec (.mul rd ra ra) s = .next t) ∧
    (∀ imm : HWord, -2 ^ 28 ≤ imm.toInt → imm.toInt ≤ 2 ^ 28 → ((s.reg rb).toNat : Int) = imm.toInt % Config.P →
      ∃ t u, exec (.muls rd ra imm) s = .next t ∧ exec (.mul rd ra rb) s = .next u ∧
        residue (t.reg rd) = residue (u.reg rd)) ∧
    (∃ t, exec (.reduce rd ra) s = .next t ∧
      (t.pc ≠ 255 → exec (.reduce rd rd) t = .next { t with pc := t.pc + 1 }))) ∧
  (∀ (i : Instr) (rd : Reg) (sources : List Reg) (s s' : State), arithmeticOperands i = some (rd, sources) →
    i.wellFormed = true → s.pc ≠ 255 → s'.pc ≠ 255 → (∀ r ∈ sources, s.reg r = s'.reg r) →
    ∃ t t', exec i s = .next t ∧ exec i s' = .next t' ∧ t.reg rd = t'.reg rd)

/-- R104: TSTOVF (opcode 0x28) writes OVF, 1 exactly when P ≤ V < 2^255, and changes nothing else but PC; an unreduced
source raises NOT_REDUCED and writes no flag. -/
def Obligations.TstovfResult : Prop :=
  ∀ (ra : Reg) (s : State),
    decodeWord (instrWord 0x28 0 ra 0 0 0) = .ok (.tstovf ra) ∧
    (s.pc ≠ 255 →
      ((s.reg ra).toNat < 2 ^ 255 →
        exec (.tstovf ra) s = .next { s with ovf := decide (Config.P ≤ (s.reg ra).toNat), pc := s.pc + 1 }) ∧
      (2 ^ 255 ≤ (s.reg ra).toNat → exec (.tstovf ra) s = .next { s with run := .fault, errcode := 5 }))

/-- R105: TSTNEG (opcode 0x29) writes NEG, bit 0 of V mod P, and changes nothing else but PC; an unreduced source
raises NOT_REDUCED and writes no flag. -/
def Obligations.TstnegResult : Prop :=
  ∀ (ra : Reg) (s : State),
    decodeWord (instrWord 0x29 0 ra 0 0 0) = .ok (.tstneg ra) ∧
    (s.pc ≠ 255 →
      ((s.reg ra).toNat < 2 ^ 255 →
        exec (.tstneg ra) s = .next { s with neg := decide ((s.reg ra).toNat % Config.P % 2 = 1), pc := s.pc + 1 }) ∧
      (2 ^ 255 ≤ (s.reg ra).toNat → exec (.tstneg ra) s = .next { s with run := .fault, errcode := 5 }))

/-- R103: for a reduced V the overflow test is V ≥ P, and agrees with the test read off the limbs; 19 values pass it.
-/
def Obligations.OverflowTestInLimbsAgrees : Prop :=
  (∀ v : Fe, v.toNat < 2 ^ 255 →
    (ovfOf v = true ↔ Config.P ≤ v.toNat) ∧
    (ovfOf v = true ↔ limb v 15 = 0x7FFF ∧ (∀ i, 1 ≤ i → i ≤ 14 → limb v i = 0xFFFF) ∧ 0xFFED ≤ (limb v 0).toNat) ∧
    ovfOf v = ovfLimbs v) ∧
  2 ^ 255 - Config.P = 19

/-! ### Exponentiation -/

/-- R112: RECIP (opcode 0x30) leaves x^(P-2) in F[rd], with the bound of a MUL output, and the stated powers of x in
T0 to T4 unless rd names one; nothing else changes. A source among T0 to T4 raises ILLEGAL_OPERAND with no effect
(R110). -/
def Obligations.RecipIsThePowerPMinusTwo : Prop :=
  ∀ (rd ra : Reg) (s : State),
    decodeWord (instrWord 0x30 rd ra 0 0 0) = .ok (.recip rd ra) ∧
    (ra ∉ chainTemps → s.pc ≠ 255 →
      ∃ t, exec (.recip rd ra) s = .next t ∧
        residue (t.reg rd) = residue (s.reg ra) ^ (Config.P - 2) ∧ (t.reg rd).toNat < 2 ^ 255 + 1444 ∧
        (rd ≠ Reg.t0 → residue (t.reg Reg.t0) = residue (s.reg ra) ^ 11) ∧
        (rd ≠ Reg.t1 → residue (t.reg Reg.t1) = residue (s.reg ra) ^ (2 ^ 255 - 32)) ∧
        (rd ≠ Reg.t2 → residue (t.reg Reg.t2) = residue (s.reg ra) ^ (2 ^ 254 - 16)) ∧
        (rd ≠ Reg.t3 → residue (t.reg Reg.t3) = residue (s.reg ra) ^ (2 ^ 250 - 2 ^ 50)) ∧
        (rd ≠ Reg.t4 → residue (t.reg Reg.t4) = residue (s.reg ra) ^ (2 ^ 249 - 2 ^ 49)) ∧
        t.pc = s.pc + 1 ∧ Frame (rd :: chainTemps) s t) ∧
    (ra ∈ chainTemps → exec (.recip rd ra) s = .next { s with run := .fault, errcode := 3 })

/-- R113: RECIPS (opcode 0x31) leaves x^((P-5)/8) = x^(2^252 - 3) in F[rd] and the stated powers of x in T0 to T4
unless rd names one; nothing else changes. A source among T0 to T4 raises ILLEGAL_OPERAND with no effect (R110). -/
def Obligations.RecipsIsThePowerForSquareRoots : Prop :=
  ∀ (rd ra : Reg) (s : State),
    decodeWord (instrWord 0x31 rd ra 0 0 0) = .ok (.recips rd ra) ∧
    (ra ∉ chainTemps → s.pc ≠ 255 →
      ∃ t, exec (.recips rd ra) s = .next t ∧
        residue (t.reg rd) = residue (s.reg ra) ^ ((Config.P - 5) / 8) ∧ (Config.P - 5) / 8 = 2 ^ 252 - 3 ∧
        (t.reg rd).toNat < 2 ^ 255 + 1444 ∧
        (rd ≠ Reg.t0 → residue (t.reg Reg.t0) = residue (s.reg ra) ^ 11) ∧
        (rd ≠ Reg.t1 → residue (t.reg Reg.t1) = residue (s.reg ra) ^ (2 ^ 251 - 2)) ∧
        (rd ≠ Reg.t2 → residue (t.reg Reg.t2) = residue (s.reg ra) ^ (2 ^ 252 - 4)) ∧
        (rd ≠ Reg.t3 → residue (t.reg Reg.t3) = residue (s.reg ra) ^ (2 ^ 250 - 2 ^ 50)) ∧
        (rd ≠ Reg.t4 → residue (t.reg Reg.t4) = residue (s.reg ra) ^ (2 ^ 249 - 2 ^ 49)) ∧
        t.pc = s.pc + 1 ∧ Frame (rd :: chainTemps) s t) ∧
    (ra ∈ chainTemps → exec (.recips rd ra) s = .next { s with run := .fault, errcode := 3 })

/-- R114: SQRT (opcode 0x32) leaves u·v·(2u·v² - 1) in F[rd], v = (2u)^((P-5)/8), and the stated values in its working
registers unless rd names one; nothing else changes. A source the sequence overwrites raises ILLEGAL_OPERAND with no
effect. Whether the result is a root of u is not stated. -/
def Obligations.SqrtResult : Prop :=
  ∀ (rd ra : Reg) (s : State),
    decodeWord (instrWord 0x32 rd ra 0 0 0) = .ok (.sqrt rd ra) ∧
    (ra ∉ [Reg.dx, Reg.x0, Reg.z0] ++ chainTemps → s.pc ≠ 255 →
      ∃ t, exec (.sqrt rd ra) s = .next t ∧
        (∀ u v : GF, u = residue (s.reg ra) → v = (2 * u) ^ ((Config.P - 5) / 8) →
          residue (t.reg rd) = u * v * (2 * u * v ^ 2 - 1) ∧
          (rd ≠ Reg.dx → residue (t.reg Reg.dx) = v * (2 * u * v ^ 2 - 1)) ∧
          (rd ≠ Reg.x0 → residue (t.reg Reg.x0) = v) ∧
          (rd ≠ Reg.z0 → residue (t.reg Reg.z0) = 2 * u * v ^ 2 - 1) ∧
          (rd ≠ Reg.t0 → (t.reg Reg.t0).toNat = 1) ∧
          (rd ≠ Reg.t1 → residue (t.reg Reg.t1) = (2 * u) ^ (2 ^ 251 - 2)) ∧
          (rd ≠ Reg.t2 → residue (t.reg Reg.t2) = (2 * u) ^ (2 ^ 252 - 4)) ∧
          (rd ≠ Reg.t3 → residue (t.reg Reg.t3) = (2 * u) ^ (2 ^ 250 - 2 ^ 50)) ∧
          (rd ≠ Reg.t4 → residue (t.reg Reg.t4) = (2 * u) ^ (2 ^ 249 - 2 ^ 49))) ∧
        t.pc = s.pc + 1 ∧ Frame (rd :: ([Reg.dx, Reg.x0, Reg.z0] ++ chainTemps)) s t) ∧
    (ra ∈ [Reg.dx, Reg.x0, Reg.z0] ++ chainTemps → exec (.sqrt rd ra) s = .next { s with run := .fault, errcode := 3 })

/-! ### Montgomery point operations and the ladder -/

/-- R121: MPREP (opcode 0x40) writes the sum to F[rd] and the difference to F[rc], both from the old contents of F[ra]
and F[rb], whatever registers overlap; nothing else changes. Equal destinations raise ILLEGAL_OPERAND with no effect.
-/
def Obligations.MprepWritesSumAndDifference : Prop :=
  ∀ (rd ra rb rc : Reg) (s : State),
    decodeWord (instrWord 0x40 rd ra rb rc 0) = .ok (.mprep rd ra rb rc) ∧
    (rd ≠ rc → s.pc ≠ 255 →
      ∃ t, exec (.mprep rd ra rb rc) s = .next t ∧
        (t.reg rd).toNat = fold1 ((s.reg ra).toNat + (s.reg rb).toNat) ∧
        (t.reg rc).toNat = fold1 ((s.reg ra).toNat + 4 * Config.P - (s.reg rb).toNat) ∧
        residue (t.reg rd) = residue (s.reg ra) + residue (s.reg rb) ∧
        residue (t.reg rc) = residue (s.reg ra) - residue (s.reg rb) ∧
        t.pc = s.pc + 1 ∧ Frame [rd, rc] s t) ∧
    (rd = rc → exec (.mprep rd ra rb rc) s = .next { s with run := .fault, errcode := 3 })

/-- R122: MADD (opcode 0x41) leaves in (F[ra] : F[rb]) the sum of the points given by (T1, T2) and (T3, T4), exactly
as its seven operations give it and as residues; T1 and T2 hold the values of steps 6 and 4; nothing else changes.
Operands that are not three different registers outside T1 to T4 raise ILLEGAL_OPERAND with no effect. -/
def Obligations.MaddResult : Prop :=
  ∀ (ra rb rc : Reg) (s : State),
    decodeWord (instrWord 0x41 0 ra rb rc 0) = .ok (.madd ra rb rc) ∧
    (ra ≠ rb → ra ≠ rc → rb ≠ rc → ra.val < 12 → rb.val < 12 → rc.val < 12 → s.pc ≠ 255 →
      ∃ t, exec (.madd ra rb rc) s = .next t ∧
        (∀ m n : Fe, m = feMul (s.reg Reg.t2) (s.reg Reg.t3) → n = feMul (s.reg Reg.t1) (s.reg Reg.t4) →
          t.reg ra = feSqr (feAdd m n) ∧ t.reg rb = feMul (feSqr (feSub m n)) (s.reg rc) ∧
          t.reg Reg.t1 = feSqr (feSub m n) ∧ t.reg Reg.t2 = feSub m n) ∧
        (∀ a b : GF, a = residue (s.reg Reg.t2) * residue (s.reg Reg.t3) →
          b = residue (s.reg Reg.t1) * residue (s.reg Reg.t4) →
          residue (t.reg ra) = (a + b) ^ 2 ∧ residue (t.reg rb) = residue (s.reg rc) * (a - b) ^ 2) ∧
        t.pc = s.pc + 1 ∧ Frame [ra, rb, Reg.t1, Reg.t2] s t) ∧
    ((ra = rb ∨ ra = rc ∨ rb = rc ∨ 12 ≤ ra.val ∨ 12 ≤ rb.val ∨ 12 ≤ rc.val) →
      exec (.madd ra rb rc) s = .next { s with run := .fault, errcode := 3 })

/-- R123: MDBL (opcode 0x42) leaves in (F[ra] : F[rb]) the double of the point given by (T3, T4), exactly as its seven
operations give it and as residues; T1 and T2 hold the values of steps 6 and 4; nothing else changes. Operands that
are not two different registers outside T1 to T4 raise ILLEGAL_OPERAND with no effect. -/
def Obligations.MdblResult : Prop :=
  ∀ (ra rb : Reg) (s : State),
    decodeWord (instrWord 0x42 0 ra rb 0 0) = .ok (.mdbl ra rb) ∧
    (ra ≠ rb → ra.val < 12 → rb.val < 12 → s.pc ≠ 255 →
      ∃ t, exec (.mdbl ra rb) s = .next t ∧
        (∀ p m e : Fe, p = feSqr (s.reg Reg.t3) → m = feSqr (s.reg Reg.t4) → e = feSub p m →
          t.reg ra = feMul p m ∧ t.reg rb = feMul (feAdd p (feMuls e 121665)) e ∧
          t.reg Reg.t1 = feAdd p (feMuls e 121665) ∧ t.reg Reg.t2 = e) ∧
        (∀ p m : GF, p = residue (s.reg Reg.t3) ^ 2 → m = residue (s.reg Reg.t4) ^ 2 →
          residue (t.reg ra) = p * m ∧ residue (t.reg rb) = (p + 121665 * (p - m)) * (p - m)) ∧
        t.pc = s.pc + 1 ∧ Frame [ra, rb, Reg.t1, Reg.t2] s t) ∧
    ((ra = rb ∨ 12 ≤ ra.val ∨ 12 ≤ rb.val) →
      exec (.mdbl ra rb) s = .next { s with run := .fault, errcode := 3 })

/-- R131 to R134: LADDER (opcode 0x43) refines the x-only ladder over GF(P): from ((1 : 0), (x : 1)), 256 steps
selected by the bits of K from the most significant down, then the affine extraction; F6 to F15 hold what R134 says,
nothing else changes. It completes for every base register, every base and every K. -/
def Obligations.LadderRefinesTheFieldLadder : Prop :=
  ∀ (ra : Reg) (s : State),
    decodeWord (instrWord 0x43 0 ra 0 0 0) = .ok (.ladder ra) ∧
    (s.pc ≠ 255 →
      ∃ t, exec (.ladder ra) s = .next t ∧ LadderResult (residue (s.reg ra)) s.k t ∧
        t.pc = s.pc + 1 ∧ Frame workingRegs s t)

/-- R135: LADDERG (opcode 0x44) is the same with the x-coordinate 9. -/
def Obligations.LaddergRefinesTheFieldLadder : Prop :=
  ∀ s : State,
    decodeWord (instrWord 0x44 0 0 0 0 0) = .ok (.ladderg) ∧
    (s.pc ≠ 255 →
      ∃ t, exec .ladderg s = .next t ∧ LadderResult 9 s.k t ∧ t.pc = s.pc + 1 ∧ Frame workingRegs s t)

/-- R136 (c): for LADDER K = 0 gives a result ≡ 0 for every base, and a base ≡ 0 gives a result ≡ 0 for every K; for
LADDERG K = 0 gives exactly P; Z0 ≡ 0 where K = 0; none of them faults. -/
def Obligations.DegenerateLadderInputsGiveZero : Prop :=
  (∀ (ra : Reg) (s : State), s.pc ≠ 255 → (s.k = 0 ∨ residue (s.reg ra) = 0) →
    ∃ t, exec (.ladder ra) s = .next t ∧ t.run = s.run ∧ residue (t.reg Reg.dx) = 0 ∧
      (s.k = 0 → residue (t.reg Reg.z0) = 0)) ∧
  (∀ s : State, s.pc ≠ 255 → s.k = 0 →
    ∃ t, exec .ladderg s = .next t ∧ t.run = s.run ∧ (t.reg Reg.dx).toNat = Config.P ∧ residue (t.reg Reg.dx) = 0 ∧
      residue (t.reg Reg.z0) = 0)

/-! ### Control and faults -/

/-- R140: HALT (opcode 0x01) ends the run at every index, 255 among them; PC and everything else keep their values,
and the output line is high if IE is set. -/
def Obligations.HaltEndsTheRun : Prop :=
  decodeWord (instrWord 0x01 0 0 0 0 0) = .ok .halt ∧
  ∀ s : State, ∃ t, exec .halt s = .next t ∧ t = { s with run := .done } ∧ t.irq = s.ie

/-- R144: an instruction other than HALT at PC = 255 raises PC_OVERRUN after the operand checks, which come first, and
before the data checks; it has no effect, and PC does not wrap. HALT ends the run there. -/
def Obligations.LastWordOverruns : Prop :=
  ∀ (i : Instr) (s : State), s.pc = 255 →
    (i ≠ .halt → exec i s = .next { s with run := .fault, errcode := if i.wellFormed then 4 else 3 }) ∧
    (i = .halt → exec i s = .next { s with run := .done })

/-- R155: a step of the unit that ends in a fault changes nothing at all but ERRCODE, which holds one of the five
codes, and STATE; the output line is high if IE is set. -/
def Obligations.FaultHasNoEffect : Prop :=
  ∀ s u t : State, s.run = .busy → UnitTurn s u → step s = .next t → t.run = .fault →
    t = { u with run := .fault, errcode := t.errcode } ∧ 1 ≤ t.errcode.toNat ∧ t.errcode.toNat ≤ 5 ∧ t.irq = s.ie

/-- R154, R67 checks 3 to 6: for a word that decodes, the first check that fails raises its fault, ILLEGAL_OPERAND
before PC_OVERRUN before NOT_REDUCED, with no effect; if none fails there is no fault, whatever the data (R157). -/
def Obligations.FirstFailingCheckWins : Prop :=
  ∀ (s u : State) (i : Instr), s.run = .busy → UnitTurn s u → decodeWord s.fetchWord = .ok i →
    (i.wellFormed = false → step s = .next { u with run := .fault, errcode := 3 }) ∧
    (i.wellFormed = true → i ≠ .halt → s.pc = 255 → step s = .next { u with run := .fault, errcode := 4 }) ∧
    (∀ ra, i = .tstovf ra ∨ i = .tstneg ra ∨ (∃ imm, i = .pack ra imm) → i.wellFormed = true → s.pc ≠ 255 →
      2 ^ 255 ≤ (s.reg ra).toNat → step s = .next { u with run := .fault, errcode := 5 }) ∧
    (i.wellFormed = true → (i = .halt ∨ s.pc ≠ 255) →
      (∀ ra, i = .tstovf ra ∨ i = .tstneg ra ∨ (∃ imm, i = .pack ra imm) → (s.reg ra).toNat < 2 ^ 255) →
      ∃ t, step s = .next t ∧ t.run ≠ .fault)

/-- R17, R143: an instruction moves PC by exactly one word, without wrapping, and the run goes on; or PC stays and the
run is over, by HALT or by a fault. There is no other control transfer. -/
def Obligations.PcMovesByOneOrTheRunEnds : Prop :=
  ∀ (i : Instr) (s t : State), exec i s = .next t →
    (t.pc.toNat = s.pc.toNat + 1 ∧ t.run = s.run ∧ i ≠ .halt) ∨
    (t.pc = s.pc ∧ ((i = .halt ∧ t.run = .done) ∨ t.run = .fault))

/-- R18: OVF is written only by TSTOVF and WIPE, NEG only by TSTNEG and WIPE. -/
def Obligations.FlagsHaveTheirOnlyWriters : Prop :=
  ∀ (i : Instr) (s t : State), exec i s = .next t →
    (t.ovf ≠ s.ovf → i = .wipe ∨ ∃ ra, i = .tstovf ra) ∧ (t.neg ≠ s.neg → i = .wipe ∨ ∃ ra, i = .tstneg ra)

/-- R28, R29, R45, R146: an instruction reaches neither IMEM nor the host registers nor the host's side, only PACK
changes DMEM, and only LDK and WIPE change K (R16). -/
def Obligations.InstructionsReachOnlyTheirOwn : Prop :=
  ∀ (i : Instr) (s t : State), exec i s = .next t →
    (∀ a, t.imemByte a = s.imemByte a) ∧ t.imem = s.imem ∧ t.herr = s.herr ∧ t.ie = s.ie ∧ t.entry = s.entry ∧
    t.hostMoves = s.hostMoves ∧ t.replies = s.replies ∧ t.imemGen = s.imemGen ∧ t.busyReads = s.busyReads ∧
    ((∀ ra imm, i ≠ .pack ra imm) → ∀ a, t.dmemByte a = s.dmemByte a) ∧
    (t.k ≠ s.k → i = .wipe ∨ ∃ imm, i = .ldk imm)

/-- R16: K is read only by LADDER and LADDERG: any other instruction, run from two states that differ only in K,
leaves two states that differ at most in K. -/
def Obligations.ScalarIsReadOnlyByTheLadder : Prop :=
  ∀ (i : Instr) (s t : State) (v : Fe), i ≠ .ladderg → (∀ ra, i ≠ .ladder ra) → exec i s = .next t →
    ∃ k', exec i { s with k := v } = .next { t with k := k' }

/-- R192: the primitive operations of an instruction, their names, their order and the registers they name but for the
selection between the ladder's two slots, are a function of the instruction alone, not of K; and they are what is
executed: an instruction that performs primitive operations and completes leaves the registers they give. For operands
on which an instruction faults, that it has a trace at all is the model's choice (log 20). -/
def Obligations.TraceIsConstantStructure : Prop :=
  (∀ (k k' : Fe) (i : Instr), (opsOf k i).map MicroOp.mergeSlots = (opsOf k' i).map MicroOp.mergeSlots) ∧
  (∀ (k k' : Fe) (i : Instr), traceOf k i = traceOf k' i) ∧
  (∀ (i : Instr) (s : State), opsOf s.k i ≠ [] → i.wellFormed = true → s.pc ≠ 255 →
    exec i s = .next { s with regs := runOps (opsOf s.k i) s.regs, pc := s.pc + 1 })

/-- R194, R136 (b): how many primitive operations of each name every instruction performs, as (SET, CPY, ADD, SUB,
MUL, SQR, MULS, REDUCE), and how many a ladder step does. For operands on which an instruction faults, that its counts
are still those of its mnemonic is the model's choice (log 20). -/
def Obligations.OperationCounts : Prop :=
  ∀ (k : Fe) (rd ra rb rc : Reg) (imm : HWord) (b : Bool),
    traceOf k (.set rd imm) = [.set] ∧ traceOf k (.cpy rd ra) = [.cpy] ∧ traceOf k (.add rd ra rb) = [.add] ∧
    traceOf k (.sub rd ra rb) = [.sub] ∧ traceOf k (.mul rd ra rb) = [.mul] ∧ traceOf k (.sqr rd ra) = [.sqr] ∧
    traceOf k (.muls rd ra imm) = [.muls] ∧ traceOf k (.reduce rd ra) = [.reduce] ∧
    traceOf k (.unpack rd imm) = [] ∧ traceOf k (.pack ra imm) = [] ∧ traceOf k (.ldk imm) = [] ∧
    traceOf k .wipe = [] ∧ traceOf k (.tstovf ra) = [] ∧ traceOf k (.tstneg ra) = [] ∧ traceOf k .halt = [] ∧
    traceCounts (traceOf k (.mprep rd ra rb rc)) = [0, 0, 1, 1, 0, 0, 0, 0] ∧
    traceCounts (traceOf k (.madd ra rb rc)) = [0, 0, 1, 1, 3, 2, 0, 0] ∧
    traceCounts (traceOf k (.mdbl ra rb)) = [0, 0, 1, 1, 2, 2, 1, 0] ∧
    traceCounts (traceOf k (.recip rd ra)) = [0, 0, 0, 0, 11, 254, 0, 0] ∧
    traceCounts (traceOf k (.recips rd ra)) = [0, 0, 0, 0, 11, 251, 0, 0] ∧
    traceCounts (traceOf k (.sqrt rd ra)) = [1, 0, 1, 1, 14, 252, 0, 0] ∧
    traceCounts (traceOps (stepOps b)) = [0, 0, 4, 4, 5, 4, 1, 0] ∧
    traceCounts (traceOf k .ladderg) = [4, 1, 1024, 1024, 1292, 1278, 256, 0] ∧
    traceCounts (traceOf k (.ladder ra)) = [3, 2, 1024, 1024, 1292, 1278, 256, 0] ∧
    (traceOf k (.mprep rd ra rb rc)).length = 2 ∧ (traceOf k (.madd ra rb rc)).length = 7 ∧
    (traceOf k (.mdbl ra rb)).length = 7 ∧ (traceOf k (.recip rd ra)).length = 265 ∧ (traceOf k (.recips rd ra)).length = 262 ∧
    (traceOf k (.sqrt rd ra)).length = 269 ∧ (traceOps (stepOps b)).length = 18 ∧
    (traceOf k (.ladder ra)).length = 4879 ∧ (traceOf k .ladderg).length = 4879

/-! ### The host window -/

/-- R20, R142, R156: an accepted write of CTRL acts as IE, then CLEAR, then START, and changes nothing else. A START
is accepted when the state is IDLE or CLEAR stands in the same write, and otherwise sets HERR; that the IE and CLEAR
parts of a write whose START is refused still act is read from R20's order (log 15). -/
def Obligations.CtrlWriteActsInOrder : Prop :=
  ∀ (s : State) (v : HWord) (rest : List HostMove), s.hostMoves = .write 0x000 4 v :: rest → s.run ≠ .busy →
    ∃ start clear accepted : Bool, start = v.getLsbD 0 ∧ clear = v.getLsbD 1 ∧
      accepted = (start && (clear || s.run == .idle)) ∧
      step s = .next { s with
        hostMoves := rest
        ie := v.getLsbD 8
        run := if accepted then .busy else if clear then .idle else s.run
        pc := if accepted then s.entry else s.pc
        errcode := if accepted || (clear && s.run != .idle) then 0 else s.errcode
        herr := if start && !accepted then true else if clear then false else s.herr }

/-- R24, R52: with STATE = BUSY every write, and every read but an aligned 32-bit read of STATUS, changes nothing but
HERR, and a refused read returns 0. -/
def Obligations.BusyUnitRefusesTheHost : Prop :=
  ∀ (s : State) (o : BitVec 12) (w : Nat) (v : HWord) (rest : List HostMove), s.run = .busy →
    (s.hostMoves = .write o w v :: rest → step s = .next { s with hostMoves := rest, herr := true }) ∧
    (s.hostMoves = .read o w :: rest → (o ≠ 0x008 ∨ w ≠ 4) →
      step s = .next { s with hostMoves := rest, herr := true, replies := s.replies ++ [0] })

/-- R24, R44, R48, R49: in any STATE an access that is no aligned 32-bit word, an access to an unmapped offset and a
write to STATUS change nothing but HERR, and a refused read returns 0. -/
def Obligations.SenselessAccessesAreRefused : Prop :=
  ∀ (s : State) (o : BitVec 12) (w : Nat) (v : HWord) (rest : List HostMove),
    (s.hostMoves = .write o w v :: rest → (w ≠ 4 ∨ o.toNat % 4 ≠ 0 ∨ unmappedOffset o ∨ o = 0x008) →
      step s = .next { s with hostMoves := rest, herr := true }) ∧
    (s.hostMoves = .read o w :: rest → (w ≠ 4 ∨ o.toNat % 4 ≠ 0 ∨ unmappedOffset o) →
      step s = .next { s with hostMoves := rest, herr := true, replies := s.replies ++ [0] })

/-- R22: a read of STATUS returns STATE, HERR and ERRCODE at their bits in every STATE, and OVF, NEG and PC when the
unit is not BUSY; the reserved bits read 0, and nothing of the machine changes. While BUSY nothing is said of OVF, NEG
and PC (they are free values, log 2). -/
def Obligations.StatusReadShowsTheFields : Prop :=
  ∀ (s : State) (rest : List HostMove), s.hostMoves = .read 0x008 4 :: rest →
    ∃ (w : HWord) (n : Nat),
      step s = .next { s with hostMoves := rest, replies := s.replies ++ [w], busyReads := n } ∧
      w.extractLsb' 0 2 = s.run.code ∧ w.getLsbD 2 = s.herr ∧ w.getLsbD 3 = false ∧ w.extractLsb' 6 2 = 0 ∧
      w.extractLsb' 8 8 = s.errcode ∧ w.extractLsb' 24 8 = 0 ∧
      (s.run ≠ .busy → w.getLsbD 4 = s.ovf ∧ w.getLsbD 5 = s.neg ∧ w.extractLsb' 16 8 = s.pc ∧ n = s.busyReads)

/-- R20, R21, R47: outside a run, CTRL reads IE in bit 8 and 0 elsewhere, ENTRY reads its 8 bits and 0 above, and a
write of ENTRY keeps bits 7:0 only; nothing else changes. -/
def Obligations.CtrlAndEntryAccess : Prop :=
  ∀ (s : State) (v : HWord) (rest : List HostMove), s.run ≠ .busy →
    (s.hostMoves = .read 0x000 4 :: rest →
      step s = .next { s with hostMoves := rest, replies := s.replies ++ [if s.ie then 0x100 else 0] }) ∧
    (s.hostMoves = .read 0x004 4 :: rest →
      step s = .next { s with hostMoves := rest, replies := s.replies ++ [BitVec.ofNat 32 s.entry.toNat] }) ∧
    (s.hostMoves = .write 0x004 4 v :: rest →
      step s = .next { s with hostMoves := rest, entry := BitVec.ofNat 8 (v.toNat % 256) })

/-- R42, R47, R48: outside a run, a host write of an aligned word of the DMEM window stores its four bytes
little-endian and nothing else, whatever the host does next; a read of an aligned word of the window returns its four
bytes little-endian and changes nothing else; so a read of the word just written returns what was written. The writes
are stated for states whose DMEM is in canonical form, which every step keeps. -/
def Obligations.HostWritesAndReadsDmem : Prop :=
  ∀ (s : State) (o : BitVec 12) (v : HWord) (rest : List HostMove), s.run ≠ .busy →
    0x400 ≤ o.toNat → o.toNat < 0x600 → o.toNat % 4 = 0 →
    (s.Inv → s.hostMoves = .write o 4 v :: rest →
      ∃ t, step s = .next t ∧
        (∀ j, j < 4 → t.dmemByte (o.toNat - 0x400 + j) = v.extractLsb' (8 * j) 8) ∧
        (∀ a, a < o.toNat - 0x400 ∨ o.toNat - 0x400 + 4 ≤ a → t.dmemByte a = s.dmemByte a) ∧
        t = { s with dmem := t.dmem, hostMoves := rest }) ∧
    (s.hostMoves = .read o 4 :: rest →
      ∃ w : HWord, step s = .next { s with hostMoves := rest, replies := s.replies ++ [w] } ∧
        ∀ j, j < 4 → w.extractLsb' (8 * j) 8 = s.dmemByte (o.toNat - 0x400 + j)) ∧
    (s.Inv → s.hostMoves = .write o 4 v :: .read o 4 :: rest →
      ∃ t, step s = .next t ∧ step t = .next { t with hostMoves := rest, replies := s.replies ++ [v] })

/-- R41, R55: outside a run, writing the low half of word n at 0x800 + 8n and the high half at 0x804 + 8n makes it the
word the unit fetches at PC = n, and changes no other byte of IMEM and nothing else. -/
def Obligations.HostWritesAnInstructionWord : Prop :=
  ∀ (s : State) (n : Nat) (lo hi : HWord) (rest : List HostMove), s.run ≠ .busy → n < 256 →
    s.hostMoves = .write (BitVec.ofNat 12 (0x800 + 8 * n)) 4 lo :: .write (BitVec.ofNat 12 (0x804 + 8 * n)) 4 hi :: rest →
    ∃ t u, step s = .next t ∧ step t = .next u ∧
      State.fetchWord { u with pc := BitVec.ofNat 8 n } = (hi ++ lo : BitVec 64) ∧
      (∀ a, a < 8 * n ∨ 8 * n + 8 ≤ a → u.imemByte a = s.imemByte a) ∧
      u = { s with imem := u.imem, hostMoves := rest }

/-- R42, R47, R48: outside a run, a host write of an aligned word of the IMEM window stores its four bytes
little-endian and nothing else, and a read of an aligned word of the window returns its four bytes little-endian and
changes nothing else. -/
def Obligations.HostWritesAndReadsImem : Prop :=
  ∀ (s : State) (o : BitVec 12) (v : HWord) (rest : List HostMove), s.run ≠ .busy → 0x800 ≤ o.toNat → o.toNat % 4 = 0 →
    (s.hostMoves = .write o 4 v :: rest →
      ∃ t, step s = .next t ∧
        (∀ j, j < 4 → t.imemByte (o.toNat - 0x800 + j) = v.extractLsb' (8 * j) 8) ∧
        (∀ a, a < o.toNat - 0x800 ∨ o.toNat - 0x800 + 4 ≤ a → t.imemByte a = s.imemByte a) ∧
        t = { s with imem := t.imem, hostMoves := rest }) ∧
    (s.hostMoves = .read o 4 :: rest →
      ∃ w : HWord, step s = .next { s with hostMoves := rest, replies := s.replies ++ [w] } ∧
        ∀ j, j < 4 → w.extractLsb' (8 * j) 8 = s.imemByte (o.toNat - 0x800 + j))

/-- R25, R160: the output line, and that it falls when the host acknowledges the end of a run: after an accepted CLEAR
it is low. -/
def Obligations.IrqLineFollowsTheRunState : Prop :=
  (∀ s : State, s.irq = true ↔ s.ie = true ∧ (s.run = .done ∨ s.run = .fault)) ∧
  (∀ (s t : State) (v : HWord) (rest : List HostMove), s.run ≠ .busy → s.hostMoves = .write 0x000 4 v :: rest →
    v.getLsbD 1 = true → step s = .next t → t.irq = false)
end

