-- ==== Sys2Proof/Laws/State.lean ====
section
/-! SUPPORT. One lemma per field per update of the state, so that no later proof unfolds a record update. -/

namespace Sys2Proof.Machine

variable (s : State)

/-! ### `withRegs` -/

@[simp] theorem State.withRegs_regs (f : Regs) : (s.withRegs f).regs = f := rfl
@[simp] theorem State.withRegs_k (f : Regs) : (s.withRegs f).k = s.k := rfl
@[simp] theorem State.withRegs_pc (f : Regs) : (s.withRegs f).pc = s.pc := rfl
@[simp] theorem State.withRegs_ovf (f : Regs) : (s.withRegs f).ovf = s.ovf := rfl
@[simp] theorem State.withRegs_neg (f : Regs) : (s.withRegs f).neg = s.neg := rfl
@[simp] theorem State.withRegs_run (f : Regs) : (s.withRegs f).run = s.run := rfl
@[simp] theorem State.withRegs_errcode (f : Regs) : (s.withRegs f).errcode = s.errcode := rfl
@[simp] theorem State.withRegs_herr (f : Regs) : (s.withRegs f).herr = s.herr := rfl
@[simp] theorem State.withRegs_ie (f : Regs) : (s.withRegs f).ie = s.ie := rfl
@[simp] theorem State.withRegs_entry (f : Regs) : (s.withRegs f).entry = s.entry := rfl
@[simp] theorem State.withRegs_dmem (f : Regs) : (s.withRegs f).dmem = s.dmem := rfl
@[simp] theorem State.withRegs_imem (f : Regs) : (s.withRegs f).imem = s.imem := rfl
@[simp] theorem State.withRegs_hostMoves (f : Regs) : (s.withRegs f).hostMoves = s.hostMoves := rfl
@[simp] theorem State.withRegs_replies (f : Regs) : (s.withRegs f).replies = s.replies := rfl
@[simp] theorem State.withRegs_imemGen (f : Regs) : (s.withRegs f).imemGen = s.imemGen := rfl
@[simp] theorem State.withRegs_busyReads (f : Regs) : (s.withRegs f).busyReads = s.busyReads := rfl

/-! ### `withK` -/

@[simp] theorem State.withK_regs (v : Fe) : (s.withK v).regs = s.regs := rfl
@[simp] theorem State.withK_k (v : Fe) : (s.withK v).k = v := rfl
@[simp] theorem State.withK_pc (v : Fe) : (s.withK v).pc = s.pc := rfl
@[simp] theorem State.withK_ovf (v : Fe) : (s.withK v).ovf = s.ovf := rfl
@[simp] theorem State.withK_neg (v : Fe) : (s.withK v).neg = s.neg := rfl
@[simp] theorem State.withK_run (v : Fe) : (s.withK v).run = s.run := rfl
@[simp] theorem State.withK_errcode (v : Fe) : (s.withK v).errcode = s.errcode := rfl
@[simp] theorem State.withK_herr (v : Fe) : (s.withK v).herr = s.herr := rfl
@[simp] theorem State.withK_ie (v : Fe) : (s.withK v).ie = s.ie := rfl
@[simp] theorem State.withK_entry (v : Fe) : (s.withK v).entry = s.entry := rfl
@[simp] theorem State.withK_dmem (v : Fe) : (s.withK v).dmem = s.dmem := rfl
@[simp] theorem State.withK_imem (v : Fe) : (s.withK v).imem = s.imem := rfl
@[simp] theorem State.withK_hostMoves (v : Fe) : (s.withK v).hostMoves = s.hostMoves := rfl
@[simp] theorem State.withK_replies (v : Fe) : (s.withK v).replies = s.replies := rfl
@[simp] theorem State.withK_imemGen (v : Fe) : (s.withK v).imemGen = s.imemGen := rfl
@[simp] theorem State.withK_busyReads (v : Fe) : (s.withK v).busyReads = s.busyReads := rfl

/-! ### `withOvf` -/

@[simp] theorem State.withOvf_regs (b : Bool) : (s.withOvf b).regs = s.regs := rfl
@[simp] theorem State.withOvf_k (b : Bool) : (s.withOvf b).k = s.k := rfl
@[simp] theorem State.withOvf_pc (b : Bool) : (s.withOvf b).pc = s.pc := rfl
@[simp] theorem State.withOvf_ovf (b : Bool) : (s.withOvf b).ovf = b := rfl
@[simp] theorem State.withOvf_neg (b : Bool) : (s.withOvf b).neg = s.neg := rfl
@[simp] theorem State.withOvf_run (b : Bool) : (s.withOvf b).run = s.run := rfl
@[simp] theorem State.withOvf_errcode (b : Bool) : (s.withOvf b).errcode = s.errcode := rfl
@[simp] theorem State.withOvf_herr (b : Bool) : (s.withOvf b).herr = s.herr := rfl
@[simp] theorem State.withOvf_ie (b : Bool) : (s.withOvf b).ie = s.ie := rfl
@[simp] theorem State.withOvf_entry (b : Bool) : (s.withOvf b).entry = s.entry := rfl
@[simp] theorem State.withOvf_dmem (b : Bool) : (s.withOvf b).dmem = s.dmem := rfl
@[simp] theorem State.withOvf_imem (b : Bool) : (s.withOvf b).imem = s.imem := rfl
@[simp] theorem State.withOvf_hostMoves (b : Bool) : (s.withOvf b).hostMoves = s.hostMoves := rfl
@[simp] theorem State.withOvf_replies (b : Bool) : (s.withOvf b).replies = s.replies := rfl
@[simp] theorem State.withOvf_imemGen (b : Bool) : (s.withOvf b).imemGen = s.imemGen := rfl
@[simp] theorem State.withOvf_busyReads (b : Bool) : (s.withOvf b).busyReads = s.busyReads := rfl

/-! ### `withNeg` -/

@[simp] theorem State.withNeg_regs (b : Bool) : (s.withNeg b).regs = s.regs := rfl
@[simp] theorem State.withNeg_k (b : Bool) : (s.withNeg b).k = s.k := rfl
@[simp] theorem State.withNeg_pc (b : Bool) : (s.withNeg b).pc = s.pc := rfl
@[simp] theorem State.withNeg_ovf (b : Bool) : (s.withNeg b).ovf = s.ovf := rfl
@[simp] theorem State.withNeg_neg (b : Bool) : (s.withNeg b).neg = b := rfl
@[simp] theorem State.withNeg_run (b : Bool) : (s.withNeg b).run = s.run := rfl
@[simp] theorem State.withNeg_errcode (b : Bool) : (s.withNeg b).errcode = s.errcode := rfl
@[simp] theorem State.withNeg_herr (b : Bool) : (s.withNeg b).herr = s.herr := rfl
@[simp] theorem State.withNeg_ie (b : Bool) : (s.withNeg b).ie = s.ie := rfl
@[simp] theorem State.withNeg_entry (b : Bool) : (s.withNeg b).entry = s.entry := rfl
@[simp] theorem State.withNeg_dmem (b : Bool) : (s.withNeg b).dmem = s.dmem := rfl
@[simp] theorem State.withNeg_imem (b : Bool) : (s.withNeg b).imem = s.imem := rfl
@[simp] theorem State.withNeg_hostMoves (b : Bool) : (s.withNeg b).hostMoves = s.hostMoves := rfl
@[simp] theorem State.withNeg_replies (b : Bool) : (s.withNeg b).replies = s.replies := rfl
@[simp] theorem State.withNeg_imemGen (b : Bool) : (s.withNeg b).imemGen = s.imemGen := rfl
@[simp] theorem State.withNeg_busyReads (b : Bool) : (s.withNeg b).busyReads = s.busyReads := rfl

/-! ### `withDmem` -/

@[simp] theorem State.withDmem_regs (m : Memory) : (s.withDmem m).regs = s.regs := rfl
@[simp] theorem State.withDmem_k (m : Memory) : (s.withDmem m).k = s.k := rfl
@[simp] theorem State.withDmem_pc (m : Memory) : (s.withDmem m).pc = s.pc := rfl
@[simp] theorem State.withDmem_ovf (m : Memory) : (s.withDmem m).ovf = s.ovf := rfl
@[simp] theorem State.withDmem_neg (m : Memory) : (s.withDmem m).neg = s.neg := rfl
@[simp] theorem State.withDmem_run (m : Memory) : (s.withDmem m).run = s.run := rfl
@[simp] theorem State.withDmem_errcode (m : Memory) : (s.withDmem m).errcode = s.errcode := rfl
@[simp] theorem State.withDmem_herr (m : Memory) : (s.withDmem m).herr = s.herr := rfl
@[simp] theorem State.withDmem_ie (m : Memory) : (s.withDmem m).ie = s.ie := rfl
@[simp] theorem State.withDmem_entry (m : Memory) : (s.withDmem m).entry = s.entry := rfl
@[simp] theorem State.withDmem_dmem (m : Memory) : (s.withDmem m).dmem = m := rfl
@[simp] theorem State.withDmem_imem (m : Memory) : (s.withDmem m).imem = s.imem := rfl
@[simp] theorem State.withDmem_hostMoves (m : Memory) : (s.withDmem m).hostMoves = s.hostMoves := rfl
@[simp] theorem State.withDmem_replies (m : Memory) : (s.withDmem m).replies = s.replies := rfl
@[simp] theorem State.withDmem_imemGen (m : Memory) : (s.withDmem m).imemGen = s.imemGen := rfl
@[simp] theorem State.withDmem_busyReads (m : Memory) : (s.withDmem m).busyReads = s.busyReads := rfl

/-! ### `advance` -/

@[simp] theorem State.advance_regs : s.advance.regs = s.regs := rfl
@[simp] theorem State.advance_k : s.advance.k = s.k := rfl
@[simp] theorem State.advance_pc : s.advance.pc = s.pc + 1 := rfl
@[simp] theorem State.advance_ovf : s.advance.ovf = s.ovf := rfl
@[simp] theorem State.advance_neg : s.advance.neg = s.neg := rfl
@[simp] theorem State.advance_run : s.advance.run = s.run := rfl
@[simp] theorem State.advance_errcode : s.advance.errcode = s.errcode := rfl
@[simp] theorem State.advance_herr : s.advance.herr = s.herr := rfl
@[simp] theorem State.advance_ie : s.advance.ie = s.ie := rfl
@[simp] theorem State.advance_entry : s.advance.entry = s.entry := rfl
@[simp] theorem State.advance_dmem : s.advance.dmem = s.dmem := rfl
@[simp] theorem State.advance_imem : s.advance.imem = s.imem := rfl
@[simp] theorem State.advance_hostMoves : s.advance.hostMoves = s.hostMoves := rfl
@[simp] theorem State.advance_replies : s.advance.replies = s.replies := rfl
@[simp] theorem State.advance_imemGen : s.advance.imemGen = s.imemGen := rfl
@[simp] theorem State.advance_busyReads : s.advance.busyReads = s.busyReads := rfl

/-! ### `finish` -/

@[simp] theorem State.finish_regs : s.finish.regs = s.regs := rfl
@[simp] theorem State.finish_k : s.finish.k = s.k := rfl
@[simp] theorem State.finish_pc : s.finish.pc = s.pc := rfl
@[simp] theorem State.finish_ovf : s.finish.ovf = s.ovf := rfl
@[simp] theorem State.finish_neg : s.finish.neg = s.neg := rfl
@[simp] theorem State.finish_run : s.finish.run = .done := rfl
@[simp] theorem State.finish_errcode : s.finish.errcode = s.errcode := rfl
@[simp] theorem State.finish_herr : s.finish.herr = s.herr := rfl
@[simp] theorem State.finish_ie : s.finish.ie = s.ie := rfl
@[simp] theorem State.finish_entry : s.finish.entry = s.entry := rfl
@[simp] theorem State.finish_dmem : s.finish.dmem = s.dmem := rfl
@[simp] theorem State.finish_imem : s.finish.imem = s.imem := rfl
@[simp] theorem State.finish_hostMoves : s.finish.hostMoves = s.hostMoves := rfl
@[simp] theorem State.finish_replies : s.finish.replies = s.replies := rfl
@[simp] theorem State.finish_imemGen : s.finish.imemGen = s.imemGen := rfl
@[simp] theorem State.finish_busyReads : s.finish.busyReads = s.busyReads := rfl

/-! ### `wipe` -/

@[simp] theorem State.wipe_regs : s.wipe.regs = Vector.replicate 16 0 := rfl
@[simp] theorem State.wipe_k : s.wipe.k = 0 := rfl
@[simp] theorem State.wipe_pc : s.wipe.pc = s.pc := rfl
@[simp] theorem State.wipe_ovf : s.wipe.ovf = false := rfl
@[simp] theorem State.wipe_neg : s.wipe.neg = false := rfl
@[simp] theorem State.wipe_run : s.wipe.run = s.run := rfl
@[simp] theorem State.wipe_errcode : s.wipe.errcode = s.errcode := rfl
@[simp] theorem State.wipe_herr : s.wipe.herr = s.herr := rfl
@[simp] theorem State.wipe_ie : s.wipe.ie = s.ie := rfl
@[simp] theorem State.wipe_entry : s.wipe.entry = s.entry := rfl
@[simp] theorem State.wipe_dmem : s.wipe.dmem = s.dmem := rfl
@[simp] theorem State.wipe_imem : s.wipe.imem = s.imem := rfl
@[simp] theorem State.wipe_hostMoves : s.wipe.hostMoves = s.hostMoves := rfl
@[simp] theorem State.wipe_replies : s.wipe.replies = s.replies := rfl
@[simp] theorem State.wipe_imemGen : s.wipe.imemGen = s.imemGen := rfl
@[simp] theorem State.wipe_busyReads : s.wipe.busyReads = s.busyReads := rfl

/-! ### `takeFault` -/

@[simp] theorem State.takeFault_regs (c : Cause) : (s.takeFault c).regs = s.regs := rfl
@[simp] theorem State.takeFault_k (c : Cause) : (s.takeFault c).k = s.k := rfl
@[simp] theorem State.takeFault_pc (c : Cause) : (s.takeFault c).pc = s.pc := rfl
@[simp] theorem State.takeFault_ovf (c : Cause) : (s.takeFault c).ovf = s.ovf := rfl
@[simp] theorem State.takeFault_neg (c : Cause) : (s.takeFault c).neg = s.neg := rfl
@[simp] theorem State.takeFault_run (c : Cause) : (s.takeFault c).run = .fault := rfl
@[simp] theorem State.takeFault_errcode (c : Cause) : (s.takeFault c).errcode = c.code := rfl
@[simp] theorem State.takeFault_herr (c : Cause) : (s.takeFault c).herr = s.herr := rfl
@[simp] theorem State.takeFault_ie (c : Cause) : (s.takeFault c).ie = s.ie := rfl
@[simp] theorem State.takeFault_entry (c : Cause) : (s.takeFault c).entry = s.entry := rfl
@[simp] theorem State.takeFault_dmem (c : Cause) : (s.takeFault c).dmem = s.dmem := rfl
@[simp] theorem State.takeFault_imem (c : Cause) : (s.takeFault c).imem = s.imem := rfl
@[simp] theorem State.takeFault_hostMoves (c : Cause) : (s.takeFault c).hostMoves = s.hostMoves := rfl
@[simp] theorem State.takeFault_replies (c : Cause) : (s.takeFault c).replies = s.replies := rfl
@[simp] theorem State.takeFault_imemGen (c : Cause) : (s.takeFault c).imemGen = s.imemGen := rfl
@[simp] theorem State.takeFault_busyReads (c : Cause) : (s.takeFault c).busyReads = s.busyReads := rfl

/-! ### `memWrite` -/

@[simp] theorem State.memWrite_regs (a : Nat) (b : List Byte) : (s.memWrite a b).regs = s.regs := rfl
@[simp] theorem State.memWrite_k (a : Nat) (b : List Byte) : (s.memWrite a b).k = s.k := rfl
@[simp] theorem State.memWrite_pc (a : Nat) (b : List Byte) : (s.memWrite a b).pc = s.pc := rfl
@[simp] theorem State.memWrite_ovf (a : Nat) (b : List Byte) : (s.memWrite a b).ovf = s.ovf := rfl
@[simp] theorem State.memWrite_neg (a : Nat) (b : List Byte) : (s.memWrite a b).neg = s.neg := rfl
@[simp] theorem State.memWrite_run (a : Nat) (b : List Byte) : (s.memWrite a b).run = s.run := rfl
@[simp] theorem State.memWrite_errcode (a : Nat) (b : List Byte) : (s.memWrite a b).errcode = s.errcode := rfl
@[simp] theorem State.memWrite_herr (a : Nat) (b : List Byte) : (s.memWrite a b).herr = s.herr := rfl
@[simp] theorem State.memWrite_ie (a : Nat) (b : List Byte) : (s.memWrite a b).ie = s.ie := rfl
@[simp] theorem State.memWrite_entry (a : Nat) (b : List Byte) : (s.memWrite a b).entry = s.entry := rfl
@[simp] theorem State.memWrite_dmem (a : Nat) (b : List Byte) : (s.memWrite a b).dmem = Memory.storeList (some dmemUnlisted) s.dmem a b := rfl
@[simp] theorem State.memWrite_imem (a : Nat) (b : List Byte) : (s.memWrite a b).imem = s.imem := rfl
@[simp] theorem State.memWrite_hostMoves (a : Nat) (b : List Byte) : (s.memWrite a b).hostMoves = s.hostMoves := rfl
@[simp] theorem State.memWrite_replies (a : Nat) (b : List Byte) : (s.memWrite a b).replies = s.replies := rfl
@[simp] theorem State.memWrite_imemGen (a : Nat) (b : List Byte) : (s.memWrite a b).imemGen = s.imemGen := rfl
@[simp] theorem State.memWrite_busyReads (a : Nat) (b : List Byte) : (s.memWrite a b).busyReads = s.busyReads := rfl

/-! ### `imemWrite` -/

@[simp] theorem State.imemWrite_regs (a : Nat) (b : List Byte) : (s.imemWrite a b).regs = s.regs := rfl
@[simp] theorem State.imemWrite_k (a : Nat) (b : List Byte) : (s.imemWrite a b).k = s.k := rfl
@[simp] theorem State.imemWrite_pc (a : Nat) (b : List Byte) : (s.imemWrite a b).pc = s.pc := rfl
@[simp] theorem State.imemWrite_ovf (a : Nat) (b : List Byte) : (s.imemWrite a b).ovf = s.ovf := rfl
@[simp] theorem State.imemWrite_neg (a : Nat) (b : List Byte) : (s.imemWrite a b).neg = s.neg := rfl
@[simp] theorem State.imemWrite_run (a : Nat) (b : List Byte) : (s.imemWrite a b).run = s.run := rfl
@[simp] theorem State.imemWrite_errcode (a : Nat) (b : List Byte) : (s.imemWrite a b).errcode = s.errcode := rfl
@[simp] theorem State.imemWrite_herr (a : Nat) (b : List Byte) : (s.imemWrite a b).herr = s.herr := rfl
@[simp] theorem State.imemWrite_ie (a : Nat) (b : List Byte) : (s.imemWrite a b).ie = s.ie := rfl
@[simp] theorem State.imemWrite_entry (a : Nat) (b : List Byte) : (s.imemWrite a b).entry = s.entry := rfl
@[simp] theorem State.imemWrite_dmem (a : Nat) (b : List Byte) : (s.imemWrite a b).dmem = s.dmem := rfl
@[simp] theorem State.imemWrite_imem (a : Nat) (b : List Byte) : (s.imemWrite a b).imem = Memory.storeList none s.imem a b := rfl
@[simp] theorem State.imemWrite_hostMoves (a : Nat) (b : List Byte) : (s.imemWrite a b).hostMoves = s.hostMoves := rfl
@[simp] theorem State.imemWrite_replies (a : Nat) (b : List Byte) : (s.imemWrite a b).replies = s.replies := rfl
@[simp] theorem State.imemWrite_imemGen (a : Nat) (b : List Byte) : (s.imemWrite a b).imemGen = s.imemGen := rfl
@[simp] theorem State.imemWrite_busyReads (a : Nat) (b : List Byte) : (s.imemWrite a b).busyReads = s.busyReads := rfl

/-! ### `refuse` -/

@[simp] theorem State.refuse_regs : s.refuse.regs = s.regs := rfl
@[simp] theorem State.refuse_k : s.refuse.k = s.k := rfl
@[simp] theorem State.refuse_pc : s.refuse.pc = s.pc := rfl
@[simp] theorem State.refuse_ovf : s.refuse.ovf = s.ovf := rfl
@[simp] theorem State.refuse_neg : s.refuse.neg = s.neg := rfl
@[simp] theorem State.refuse_run : s.refuse.run = s.run := rfl
@[simp] theorem State.refuse_errcode : s.refuse.errcode = s.errcode := rfl
@[simp] theorem State.refuse_herr : s.refuse.herr = true := rfl
@[simp] theorem State.refuse_ie : s.refuse.ie = s.ie := rfl
@[simp] theorem State.refuse_entry : s.refuse.entry = s.entry := rfl
@[simp] theorem State.refuse_dmem : s.refuse.dmem = s.dmem := rfl
@[simp] theorem State.refuse_imem : s.refuse.imem = s.imem := rfl
@[simp] theorem State.refuse_hostMoves : s.refuse.hostMoves = s.hostMoves := rfl
@[simp] theorem State.refuse_replies : s.refuse.replies = s.replies := rfl
@[simp] theorem State.refuse_imemGen : s.refuse.imemGen = s.imemGen := rfl
@[simp] theorem State.refuse_busyReads : s.refuse.busyReads = s.busyReads := rfl

/-! ### `reply` -/

@[simp] theorem State.reply_regs (v : HWord) : (s.reply v).regs = s.regs := rfl
@[simp] theorem State.reply_k (v : HWord) : (s.reply v).k = s.k := rfl
@[simp] theorem State.reply_pc (v : HWord) : (s.reply v).pc = s.pc := rfl
@[simp] theorem State.reply_ovf (v : HWord) : (s.reply v).ovf = s.ovf := rfl
@[simp] theorem State.reply_neg (v : HWord) : (s.reply v).neg = s.neg := rfl
@[simp] theorem State.reply_run (v : HWord) : (s.reply v).run = s.run := rfl
@[simp] theorem State.reply_errcode (v : HWord) : (s.reply v).errcode = s.errcode := rfl
@[simp] theorem State.reply_herr (v : HWord) : (s.reply v).herr = s.herr := rfl
@[simp] theorem State.reply_ie (v : HWord) : (s.reply v).ie = s.ie := rfl
@[simp] theorem State.reply_entry (v : HWord) : (s.reply v).entry = s.entry := rfl
@[simp] theorem State.reply_dmem (v : HWord) : (s.reply v).dmem = s.dmem := rfl
@[simp] theorem State.reply_imem (v : HWord) : (s.reply v).imem = s.imem := rfl
@[simp] theorem State.reply_hostMoves (v : HWord) : (s.reply v).hostMoves = s.hostMoves := rfl
@[simp] theorem State.reply_replies (v : HWord) : (s.reply v).replies = s.replies ++ [v] := rfl
@[simp] theorem State.reply_imemGen (v : HWord) : (s.reply v).imemGen = s.imemGen := rfl
@[simp] theorem State.reply_busyReads (v : HWord) : (s.reply v).busyReads = s.busyReads := rfl

end Sys2Proof.Machine
end

