-- ==== Sys2Proof/Laws/Memory.lean ====
section
/-! SUPPORT. The memory laws: a read after a store, and that every memory operation keeps the canonical form. -/

namespace Sys2Proof.Machine.Memory

/-! ### Read after a store -/

theorem get?_insert (m : Memory) (a : Nat) (b : Byte) (x : Nat) :
    get? (insert m a b) x = if x = a then some b else get? m x := by
  induction m with
  | nil => simp [insert, get?]
  | cons c m ih =>
    obtain ⟨k, v⟩ := c
    simp only [insert]
    split
    · simp [get?]
    · split
      · next _ h => subst h; by_cases hx : x = a <;> simp [get?, hx]
      · next h1 h2 =>
        by_cases hx : x = k
        · subst hx; have : x ≠ a := fun e => h2 e.symm
          simp [get?, this]
        · simp [get?, hx, ih]

theorem get?_eq_none_of_risesFrom {lo x : Nat} (m : Memory) (h : risesFrom lo m = true) (hx : x < lo) :
    get? m x = none := by
  induction m generalizing lo with
  | nil => rfl
  | cons c m ih =>
    obtain ⟨k, v⟩ := c
    simp only [risesFrom, Bool.and_eq_true, decide_eq_true_eq] at h
    have hk : x ≠ k := by omega
    simp [get?, hk, ih h.2 (by omega)]

theorem get?_erase {lo : Nat} (m : Memory) (h : risesFrom lo m = true) (a x : Nat) :
    get? (erase m a) x = if x = a then none else get? m x := by
  induction m generalizing lo with
  | nil => simp [erase, get?]
  | cons c m ih =>
    obtain ⟨k, v⟩ := c
    simp only [risesFrom, Bool.and_eq_true, decide_eq_true_eq] at h
    simp only [erase]
    split
    · next he =>
      subst he
      by_cases hx : x = a
      · subst hx; simp [get?_eq_none_of_risesFrom m h.2 (Nat.lt_succ_self x)]
      · simp [get?, hx]
    · next he =>
      by_cases hx : x = k
      · subst hx; have : x ≠ a := fun e => he e.symm
        simp [get?, this]
      · simp [get?, hx, ih h.2]

/-! ### The canonical form -/

theorem risesFrom_mono {lo lo' : Nat} (hl : lo' ≤ lo) (m : Memory) (h : risesFrom lo m = true) :
    risesFrom lo' m = true := by
  cases m with
  | nil => rfl
  | cons c m =>
    simp only [risesFrom, Bool.and_eq_true, decide_eq_true_eq] at h ⊢
    exact ⟨by omega, h.2⟩

theorem risesFrom_insert {lo : Nat} (m : Memory) (a : Nat) (b : Byte) (h : risesFrom lo m = true) (ha : lo ≤ a) :
    risesFrom lo (insert m a b) = true := by
  induction m generalizing lo with
  | nil => simp [insert, risesFrom, ha]
  | cons c m ih =>
    obtain ⟨k, v⟩ := c
    simp only [risesFrom, Bool.and_eq_true, decide_eq_true_eq] at h
    simp only [insert]
    split
    · next hk => simp [risesFrom, ha, h.2]; omega
    · split
      · next _ he => subst he; simp [risesFrom, ha, h.2]
      · next h1 h2 => simp [risesFrom, h.1, ih h.2 (by omega)]

theorem risesFrom_erase {lo : Nat} (m : Memory) (a : Nat) (h : risesFrom lo m = true) :
    risesFrom lo (erase m a) = true := by
  induction m generalizing lo with
  | nil => rfl
  | cons c m ih =>
    obtain ⟨k, v⟩ := c
    simp only [risesFrom, Bool.and_eq_true, decide_eq_true_eq] at h
    simp only [erase]
    split
    · exact risesFrom_mono (by omega) m h.2
    · simp [risesFrom, h.1, ih h.2]

theorem mem_insert {m : Memory} {a : Nat} {b : Byte} {c : Host.Cell} (h : c ∈ insert m a b) : c = (a, b) ∨ c ∈ m := by
  induction m with
  | nil => simpa [insert] using h
  | cons d m ih =>
    obtain ⟨k, v⟩ := d
    simp only [insert] at h
    split at h
    · simpa using h
    · split at h
      · rcases List.mem_cons.mp h with h | h
        · exact .inl h
        · exact .inr (List.mem_cons_of_mem _ h)
      · rcases List.mem_cons.mp h with h | h
        · exact .inr (h ▸ List.mem_cons_self)
        · exact (ih h).imp id (List.mem_cons_of_mem _)

theorem mem_erase {m : Memory} {a : Nat} {c : Host.Cell} (h : c ∈ erase m a) : c ∈ m := by
  induction m with
  | nil => exact h
  | cons d m ih =>
    obtain ⟨k, v⟩ := d
    simp only [erase] at h
    split at h
    · exact List.mem_cons_of_mem _ h
    · rcases List.mem_cons.mp h with h | h
      · exact h ▸ List.mem_cons_self
      · exact List.mem_cons_of_mem _ (ih h)

theorem wf_iff {size : Nat} {u : Option Byte} {m : Memory} :
    wf size u m = true ↔ risesFrom 0 m = true ∧ ∀ c ∈ m, c.1 < size ∧ u ≠ some c.2 := by
  simp [wf]

/-- A store inside the memory keeps the canonical form. -/
theorem wf_store {size : Nat} {u : Option Byte} {m : Memory} (h : wf size u m = true) {a : Nat} (ha : a < size) (b : Byte) :
    wf size u (store u m a b) = true := by
  rw [wf_iff] at h ⊢
  unfold store
  split
  · exact ⟨risesFrom_erase m a h.1, fun c hc => h.2 c (mem_erase hc)⟩
  · next hu =>
    refine ⟨risesFrom_insert m a b h.1 (Nat.zero_le a), fun c hc => ?_⟩
    rcases mem_insert hc with rfl | hc
    · exact ⟨ha, hu⟩
    · exact h.2 c hc

/-- Stores inside the memory keep the canonical form. -/
theorem wf_storeList {size : Nat} {u : Option Byte} (bs : List Byte) {m : Memory} {a : Nat} (h : wf size u m = true)
    (ha : a + bs.length ≤ size) : wf size u (storeList u m a bs) = true := by
  induction bs generalizing m a with
  | nil => exact h
  | cons b bs ih =>
    simp only [List.length_cons] at ha
    exact ih (wf_store h (by omega) b) (by omega)

theorem wf_nil (size : Nat) (u : Option Byte) : wf size u [] = true := rfl

/-! ### What a stored memory reads as -/

/-- The byte a memory reads as, unlisted bytes reading as `d`. -/
theorem getD_store {m : Memory} {lo : Nat} (h : risesFrom lo m = true) (d : Byte) (a : Nat) (b : Byte) (x : Nat) :
    (get? (store (some d) m a b) x).getD d = if x = a then b else (get? m x).getD d := by
  unfold store
  split
  · next he =>
    cases he
    rw [get?_erase m h]
    split <;> rfl
  · rw [get?_insert]
    split <;> rfl

theorem get?_store_none (m : Memory) (a : Nat) (b : Byte) (x : Nat) :
    get? (store none m a b) x = if x = a then some b else get? m x := by
  simp [store, get?_insert]

theorem risesFrom_store {m : Memory} (u : Option Byte) (h : risesFrom 0 m = true) (a : Nat) (b : Byte) :
    risesFrom 0 (store u m a b) = true := by
  unfold store
  split
  · exact risesFrom_erase m a h
  · exact risesFrom_insert m a b h (Nat.zero_le a)

/-- Reading after a run of stores: inside it the stored byte, outside it the old one. -/
theorem getD_storeList (d : Byte) (bs : List Byte) {m : Memory} (h : risesFrom 0 m = true) (a x : Nat) :
    (get? (storeList (some d) m a bs) x).getD d =
      if a ≤ x ∧ x < a + bs.length then bs.getD (x - a) d else (get? m x).getD d := by
  induction bs generalizing m a with
  | nil => simp [storeList]
  | cons b bs ih =>
    simp only [storeList, ih (risesFrom_store _ h a b), getD_store h, List.length_cons]
    by_cases hx : x = a
    · subst hx
      simp
    · by_cases h1 : a + 1 ≤ x ∧ x < a + 1 + bs.length
      · have h2 : a ≤ x ∧ x < a + (bs.length + 1) := by omega
        obtain ⟨n, hn⟩ : ∃ n, x - a = n + 1 := ⟨x - a - 1, by omega⟩
        have hn' : x - (a + 1) = n := by omega
        simp [h1, h2, hn, hn']
      · have h2 : ¬ (a ≤ x ∧ x < a + (bs.length + 1)) := by omega
        rw [if_neg h1, if_neg h2, if_neg hx]

/-- The same for IMEM, whose unlisted bytes stay unlisted. -/
theorem get?_storeList_none (bs : List Byte) (m : Memory) (a x : Nat) :
    get? (storeList none m a bs) x =
      if a ≤ x ∧ x < a + bs.length then bs[x - a]? else get? m x := by
  induction bs generalizing m a with
  | nil => simp [storeList]
  | cons b bs ih =>
    simp only [storeList, ih, get?_store_none, List.length_cons]
    by_cases hx : x = a
    · subst hx
      simp
    · by_cases h1 : a + 1 ≤ x ∧ x < a + 1 + bs.length
      · have h2 : a ≤ x ∧ x < a + (bs.length + 1) := by omega
        obtain ⟨n, hn⟩ : ∃ n, x - a = n + 1 := ⟨x - a - 1, by omega⟩
        have hn' : x - (a + 1) = n := by omega
        simp [h1, h2, hn, hn']
      · have h2 : ¬ (a ≤ x ∧ x < a + (bs.length + 1)) := by omega
        rw [if_neg h1, if_neg h2, if_neg hx]

end Sys2Proof.Machine.Memory
end

