-- ==== Sys2Proof/Laws/Bytes.lean ====
section
/-! SUPPORT. Byte lists: the integer of a list, the bytes of an integer, and the bytes a memory read returns. -/

namespace Sys2Proof

@[simp] theorem leBytes_length (n v : Nat) : (leBytes n v).length = n := by
  induction n generalizing v with
  | zero => rfl
  | succ n ih => simp [leBytes, ih]

/-- The bytes of an integer stand for it, up to the number of bytes. -/
theorem leNat_leBytes (n v : Nat) : leNat (leBytes n v) = v % 256 ^ n := by
  induction n generalizing v with
  | zero => simp [leBytes, leNat, Nat.mod_one]
  | succ n ih =>
    simp only [leBytes, leNat, ih, BitVec.toNat_ofNat]
    rw [pow_succ' 256 n, Nat.mod_mul]

theorem leNat_lt (bs : List Byte) : leNat bs < 256 ^ bs.length := by
  induction bs with
  | nil => simp [leNat]
  | cons b bs ih =>
    simp only [leNat, List.length_cons, pow_succ]
    have := b.isLt
    omega

/-- Byte `j` of the integer of a list is its entry `j`. -/
theorem leNat_byte (bs : List Byte) (j : Nat) (hj : j < bs.length) : leNat bs / 256 ^ j % 256 = (bs[j]).toNat := by
  induction bs generalizing j with
  | nil => simp at hj
  | cons b bs ih =>
    have hb := b.isLt
    cases j with
    | zero => simp [leNat]; omega
    | succ j =>
      simp only [List.length_cons] at hj
      have : (b.toNat + 256 * leNat bs) / 256 ^ (j + 1) = leNat bs / 256 ^ j := by
        rw [pow_succ', ← Nat.div_div_eq_div_mul]
        congr 1
        omega
      simp [leNat, this, ih j (by omega)]

/-- Entry `j` of the bytes of an integer. -/
theorem leBytes_getElem (n v j : Nat) (hj : j < (leBytes n v).length) :
    (leBytes n v)[j] = BitVec.ofNat 8 (v / 256 ^ j) := by
  induction n generalizing v j with
  | zero => simp at hj
  | succ n ih =>
    cases j with
    | zero => simp [leBytes]
    | succ j =>
      simp only [leBytes, List.getElem_cons_succ, ih]
      rw [Nat.div_div_eq_div_mul, ← pow_succ']

namespace Machine

@[simp] theorem State.memRead_length (s : State) (a n : Nat) : (s.memRead a n).length = n := by
  induction n generalizing a with
  | zero => rfl
  | succ n ih => simp [State.memRead, ih]

theorem State.memRead_getElem (s : State) (a n j : Nat) (hj : j < (s.memRead a n).length) :
    (s.memRead a n)[j] = s.dmemByte (a + j) := by
  induction n generalizing a j with
  | zero => simp [State.memRead] at hj
  | succ n ih =>
    cases j with
    | zero => simp [State.memRead]
    | succ j => simp only [State.memRead, List.getElem_cons_succ, ih]; congr 1; omega

@[simp] theorem State.imemRead_length (s : State) (a n : Nat) : (s.imemRead a n).length = n := by
  induction n generalizing a with
  | zero => rfl
  | succ n ih => simp [State.imemRead, ih]

theorem State.imemRead_getElem (s : State) (a n j : Nat) (hj : j < (s.imemRead a n).length) :
    (s.imemRead a n)[j] = s.imemByte (a + j) := by
  induction n generalizing a j with
  | zero => simp [State.imemRead] at hj
  | succ n ih =>
    cases j with
    | zero => simp [State.imemRead]
    | succ j => simp only [State.imemRead, List.getElem_cons_succ, ih]; congr 1; omega

/-- A 32-byte list stands for its integer without loss. -/
theorem le256_toNat (b : List Byte) (h : b.length = 32) : (le256 b).toNat = leNat b := by
  have h1 := leNat_lt b
  rw [h] at h1
  have h2 : (256 : Nat) ^ 32 = 2 ^ 256 := by norm_num
  rw [le256, BitVec.toNat_ofNat, Nat.mod_eq_of_lt (by omega)]

/-- `le256` undoes `bytes256`. -/
theorem le256_bytes256 (v : Fe) : le256 (bytes256 v) = v := by
  apply BitVec.eq_of_toNat_eq
  have h2 : (256 : Nat) ^ 32 = 2 ^ 256 := by norm_num
  have hv := v.isLt
  rw [bytes256, le256_toNat _ (leBytes_length 32 _), leNat_leBytes, Nat.mod_eq_of_lt (by omega)]

/-- DMEM after a write of the unit's or the host's: inside it the stored bytes, outside it the old ones. -/
theorem State.dmemByte_memWrite (s : State) (h : Memory.risesFrom 0 s.dmem = true) (a : Nat) (b : List Byte) (x : Nat) :
    (s.memWrite a b).dmemByte x = if a ≤ x ∧ x < a + b.length then b.getD (x - a) dmemUnlisted else s.dmemByte x :=
  Memory.getD_storeList dmemUnlisted b h a x

/-! ### The canonical form (every memory operation keeps it, and reset has it) -/

theorem State.memWrite_wf {s : State} (h : Memory.wf dmemSize (some dmemUnlisted) s.dmem = true) {a : Nat} {b : List Byte}
    (ha : a + b.length ≤ dmemSize) : Memory.wf dmemSize (some dmemUnlisted) (s.memWrite a b).dmem = true :=
  Memory.wf_storeList b h ha

theorem State.imemWrite_wf {s : State} (h : Memory.wf imemSize none s.imem = true) {a : Nat} {b : List Byte}
    (ha : a + b.length ≤ imemSize) : Memory.wf imemSize none (s.imemWrite a b).imem = true :=
  Memory.wf_storeList b h ha

theorem State.reset_dmem_wf : Memory.wf dmemSize (some dmemUnlisted) State.reset.dmem = true := rfl

theorem State.reset_imem_wf : Memory.wf imemSize none State.reset.imem = true := rfl

end Machine
end Sys2Proof
end

