-- ==== Sys2Proof/Laws/Decode.lean ====
section
/-! SUPPORT. The fields of a packed word are the fields packed, and the word of a word's fields is the word. -/

namespace Sys2Proof

theorem fieldsOf_word (f : Fields) : fieldsOf f.word = f := by
  obtain ⟨op, rd, ra, rb, rc, z, imm⟩ := f
  simp only [fieldsOf, Fields.word, Fields.mk.injEq]
  refine ⟨?_, ?_, ?_, ?_, ?_, ?_, ?_⟩ <;>
  · apply BitVec.eq_of_getLsbD_eq
    intro i hi
    simp only [BitVec.getLsbD_extractLsb', hi, decide_true, Bool.true_and, BitVec.getLsbD_append]
    repeat' split
    all_goals first | omega | (congr 1; omega)

theorem word_fieldsOf (w : IWord) : (fieldsOf w).word = w := by
  simp only [fieldsOf, Fields.word]
  apply BitVec.eq_of_getLsbD_eq
  intro i hi
  simp only [BitVec.getLsbD_append, BitVec.getLsbD_extractLsb']
  repeat' split
  all_goals
    rw [Bool.and_eq_right_iff_imp.mpr (by intro; simp; omega)]
    congr 1
    omega

@[simp] theorem regOf_regField (r : Reg) : regOf (regField r) = r := rfl

@[simp] theorem regField_regOf (b : BitVec 4) : regField (regOf b) = b := rfl

theorem reserved_eq_ok {z : Bool} {i j : Instr} (h : reserved z i = .ok j) : z = true ∧ i = j := by
  unfold reserved at h
  split at h
  · exact ⟨‹_›, by simpa using h⟩
  · cases h

/-- The word with given fields decodes as its fields do. -/
theorem decodeWord_instrWord (op : BitVec 8) (rd ra rb rc : Reg) (imm : HWord) :
    decodeWord (Machine.instrWord op rd ra rb rc imm) =
      decodeFields ⟨op, regField rd, regField ra, regField rb, regField rc, 0, imm⟩ :=
  congrArg decodeFields (fieldsOf_word ⟨op, regField rd, regField ra, regField rb, regField rc, 0, imm⟩)

end Sys2Proof
end

