-- ==== Sys2Proof/Laws/Regs.lean ====
section
/-! SUPPORT. Reading a register after a write, and a register after each update of the state. -/

namespace Sys2Proof.Machine

@[simp] theorem Regs.read_write_self (f : Regs) (r : Reg) (v : Fe) : (f.write r v).read r = v := by
  simp [Regs.read, Regs.write, Vector.get_eq_getElem]

theorem Regs.read_write_of_ne {q r : Reg} (h : q ≠ r) (f : Regs) (v : Fe) : (f.write r v).read q = f.read q := by
  have h' : r.val ≠ q.val := fun e => h (Fin.ext e.symm)
  simp [Regs.read, Regs.write, Vector.get_eq_getElem, Vector.getElem_set_ne, h']

theorem Regs.read_write (f : Regs) (r q : Reg) (v : Fe) : (f.write r v).read q = if q = r then v else f.read q := by
  by_cases h : q = r
  · subst h; simp
  · simp [h, Regs.read_write_of_ne h]

@[simp] theorem Regs.read_replicate (q : Reg) (v : Fe) : Regs.read (Vector.replicate 16 v) q = v := by
  simp [Regs.read, Vector.get_eq_getElem]

/-- Two register files that read alike are equal. -/
theorem Regs.ext_read {f g : Regs} (h : ∀ q, Regs.read f q = Regs.read g q) : f = g := by
  apply Vector.ext
  intro i hi
  have := h ⟨i, hi⟩
  simpa [Regs.read, Vector.get_eq_getElem] using this

/-- A write of the value a register already holds changes nothing. -/
@[simp] theorem Regs.write_read_self (f : Regs) (r : Reg) : f.write r (f.read r) = f := by
  apply Regs.ext_read
  intro q
  rw [Regs.read_write]
  split
  · next h => rw [h]
  · rfl

variable (s : State) (q : Reg)

@[simp] theorem State.reg_withRegs (f : Regs) : (s.withRegs f).reg q = f.read q := rfl
@[simp] theorem State.reg_withK (v : Fe) : (s.withK v).reg q = s.reg q := rfl
@[simp] theorem State.reg_withOvf (b : Bool) : (s.withOvf b).reg q = s.reg q := rfl
@[simp] theorem State.reg_withNeg (b : Bool) : (s.withNeg b).reg q = s.reg q := rfl
@[simp] theorem State.reg_withDmem (m : Memory) : (s.withDmem m).reg q = s.reg q := rfl
@[simp] theorem State.reg_memWrite (a : Nat) (b : List Byte) : (s.memWrite a b).reg q = s.reg q := rfl
@[simp] theorem State.reg_advance : s.advance.reg q = s.reg q := rfl
@[simp] theorem State.reg_finish : s.finish.reg q = s.reg q := rfl
@[simp] theorem State.reg_takeFault (c : Cause) : (s.takeFault c).reg q = s.reg q := rfl
@[simp] theorem State.reg_wipe : s.wipe.reg q = 0 := Regs.read_replicate q 0

theorem State.reg_eq : s.reg q = s.regs.read q := rfl

end Sys2Proof.Machine
end

