-- ==== Sys2Proof/Laws/Field.lean ====
section
/-! SUPPORT. The fold and the field operations: bounds, exact values, and the residue each leaves. -/

namespace Sys2Proof.Machine

theorem P_eq : Config.P = 2 ^ 255 - 19 := rfl

/-- 2^255 and 19 are the same field element (spec/41_field_arith.md R90). -/
theorem two_pow_255 : ((2 ^ 255 : Nat) : GF) = 19 := by
  have h : (2 ^ 255 : Nat) = Config.P + 19 := by rw [P_eq]; norm_num
  rw [h]
  simp

@[simp] theorem P_cast : ((Config.P : Nat) : GF) = 0 := ZMod.natCast_self Config.P

theorem fold1_cast (t : Nat) : ((fold1 t : Nat) : GF) = (t : GF) := by
  have h : (t : GF) = ((t % 2 ^ 255 + 2 ^ 255 * (t / 2 ^ 255) : Nat) : GF) := by rw [Nat.mod_add_div]
  rw [h, fold1]
  push_cast
  rw [← two_pow_255]
  push_cast
  ring

theorem fold1_eq_self {t : Nat} (h : t < 2 ^ 255) : fold1 t = t := by
  unfold fold1; omega

theorem fold1_lt {t n : Nat} (h : t < 2 ^ 255 * (n + 1)) : fold1 t < 2 ^ 255 + 19 * n := by
  unfold fold1; omega

theorem foldOnce_toNat {t : Nat} (h : t < 4 * 2 ^ 256) : (foldOnce t).toNat = fold1 t := by
  rw [foldOnce, BitVec.toNat_ofNat, Nat.mod_eq_of_lt]
  unfold fold1; omega

theorem foldTwice_toNat {t : Nat} (h : t < 2 ^ 256 * 2 ^ 256) : (foldTwice t).toNat = fold1 (fold1 t) := by
  rw [foldTwice, BitVec.toNat_ofNat, Nat.mod_eq_of_lt]
  have h1 : fold1 t < 2 ^ 255 + 19 * (2 * 2 ^ 256 - 1) := fold1_lt (by omega)
  unfold fold1 at h1 ⊢; omega

theorem foldTwice_lt {t : Nat} (h : t < 2 ^ 256 * 2 ^ 256) : (foldTwice t).toNat < 2 ^ 255 + 1444 := by
  rw [foldTwice_toNat h]
  have h1 : fold1 t < 2 ^ 255 + 19 * (2 * 2 ^ 256 - 1) := fold1_lt (by omega)
  have := fold1_lt (t := fold1 t) (n := 76) (by omega)
  omega

theorem foldTwice_residue {t : Nat} (h : t < 2 ^ 256 * 2 ^ 256) : residue (foldTwice t) = (t : GF) := by
  rw [residue, foldTwice_toNat h, fold1_cast, fold1_cast]

theorem foldOnce_residue {t : Nat} (h : t < 4 * 2 ^ 256) : residue (foldOnce t) = (t : GF) := by
  rw [residue, foldOnce_toNat h, fold1_cast]

/-! ### The operations -/

theorem feAdd_toNat (a b : Fe) : (feAdd a b).toNat = fold1 (a.toNat + b.toNat) :=
  foldOnce_toNat (by have := a.isLt; have := b.isLt; omega)

theorem feSub_toNat (a b : Fe) : (feSub a b).toNat = fold1 (a.toNat + 4 * Config.P - b.toNat) :=
  foldOnce_toNat (by have := a.isLt; have := b.isLt; rw [P_eq]; omega)

theorem mul_lt_pow (a b : Fe) : a.toNat * b.toNat < 2 ^ 256 * 2 ^ 256 := by
  have ha := a.isLt
  have hb := b.isLt
  exact Nat.mul_lt_mul'' ha hb

theorem feMul_toNat (a b : Fe) : (feMul a b).toNat = fold1 (fold1 (a.toNat * b.toNat)) := foldTwice_toNat (mul_lt_pow a b)

theorem feSqr_eq_feMul (a : Fe) : feSqr a = feMul a a := rfl

theorem feReduce_toNat (a : Fe) : (feReduce a).toNat = fold1 (fold1 a.toNat) :=
  foldTwice_toNat (by have := a.isLt; omega)

@[simp] theorem feAdd_residue (a b : Fe) : residue (feAdd a b) = residue a + residue b := by
  rw [feAdd, foldOnce_residue (by have := a.isLt; have := b.isLt; omega)]
  simp [residue]

@[simp] theorem feSub_residue (a b : Fe) : residue (feSub a b) = residue a - residue b := by
  have hb := b.isLt
  have hP : b.toNat ≤ a.toNat + 4 * Config.P := by rw [P_eq]; omega
  rw [feSub, foldOnce_residue (by have := a.isLt; rw [P_eq]; omega), Nat.cast_sub hP]
  simp [residue]

@[simp] theorem feMul_residue (a b : Fe) : residue (feMul a b) = residue a * residue b := by
  rw [feMul, foldTwice_residue (mul_lt_pow a b)]
  simp [residue]

@[simp] theorem feSqr_residue (a : Fe) : residue (feSqr a) = residue a ^ 2 := by
  rw [feSqr_eq_feMul, feMul_residue, pow_two]

@[simp] theorem feReduce_residue (a : Fe) : residue (feReduce a) = residue a := by
  rw [feReduce, foldTwice_residue (by have := a.isLt; omega), residue]

theorem feMul_lt (a b : Fe) : (feMul a b).toNat < 2 ^ 255 + 1444 := foldTwice_lt (mul_lt_pow a b)

/-! ### The laws of spec/41_field_arith.md R101 -/

theorem feAdd_comm (a b : Fe) : feAdd a b = feAdd b a := by rw [feAdd, feAdd, Nat.add_comm]

theorem feMul_comm (a b : Fe) : feMul a b = feMul b a := by rw [feMul, feMul, Nat.mul_comm]

theorem feReduce_lt (a : Fe) : (feReduce a).toNat < 2 ^ 255 := by
  rw [feReduce_toNat]
  have := a.isLt
  unfold fold1
  omega

theorem feReduce_eq_self {a : Fe} (h : a.toNat < 2 ^ 255) : feReduce a = a := by
  apply BitVec.eq_of_toNat_eq
  rw [feReduce_toNat, fold1_eq_self h, fold1_eq_self h]

theorem feReduce_idem (a : Fe) : feReduce (feReduce a) = feReduce a := feReduce_eq_self (feReduce_lt a)

/-- The exact integer of MULS is never negative and stays below 2^286 (spec/41_field_arith.md R98). -/
theorem mulsExact_bounds (a : Fe) {m : Int} (h1 : -2 ^ 28 ≤ m) (h2 : m ≤ 2 ^ 28) :
    0 ≤ mulsExact a m ∧ mulsExact a m < 2 ^ 256 * 2 ^ 30 := by
  have ha := a.isLt
  have hP : (Config.P : Int) = 2 ^ 255 - 19 := by rw [P_eq]; norm_num
  have h0 : (0 : Int) ≤ a.toNat := by omega
  have ha' : (a.toNat : Int) ≤ 2 ^ 256 := by omega
  unfold mulsExact
  rw [hP]
  generalize (a.toNat : Int) = A at h0 ha'
  split
  · next hm =>
    have hle : m * A ≤ 2 ^ 28 * 2 ^ 256 := mul_le_mul h2 ha' h0 (by norm_num)
    exact ⟨mul_nonneg hm h0, by omega⟩
  · next hm =>
    have hle : -m * A ≤ 2 ^ 28 * 2 ^ 256 := mul_le_mul (by omega) ha' h0 (by norm_num)
    have hge : 0 ≤ -m * A := mul_nonneg (by omega) h0
    rw [neg_mul] at hle hge
    generalize m * A = x at hle hge
    omega

theorem feMuls_toNat (a : Fe) {m : Int} (h1 : -2 ^ 28 ≤ m) (h2 : m ≤ 2 ^ 28) :
    (feMuls a m).toNat = fold1 (fold1 (mulsExact a m).toNat) :=
  foldTwice_toNat (by have := mulsExact_bounds a h1 h2; omega)

theorem feMuls_residue (a : Fe) {m : Int} (h1 : -2 ^ 28 ≤ m) (h2 : m ≤ 2 ^ 28) :
    residue (feMuls a m) = (m : GF) * residue a := by
  have hb := mulsExact_bounds a h1 h2
  rw [feMuls, foldTwice_residue (by omega)]
  have hz : (((mulsExact a m).toNat : Nat) : GF) = ((mulsExact a m : Int) : GF) := by
    rw [← Int.cast_natCast, Int.toNat_of_nonneg hb.1]
  rw [hz, mulsExact, residue]
  split <;> simp

/-- MULS by m agrees mod P with MUL by a register that holds m mod P (spec/41_field_arith.md R101). -/
theorem feMuls_residue_eq_feMul (a b : Fe) {m : Int} (h1 : -2 ^ 28 ≤ m) (h2 : m ≤ 2 ^ 28)
    (hb : (b.toNat : Int) = m % Config.P) : residue (feMuls a m) = residue (feMul a b) := by
  have hm : residue b = (m : GF) := by
    rw [residue, ← Int.cast_natCast, hb]
    exact (ZMod.intCast_eq_intCast_iff _ _ _).mpr (Int.mod_modEq m _)
  rw [feMuls_residue a h1 h2, feMul_residue, hm, mul_comm]

@[simp] theorem setValue_toNat (imm : HWord) : (setValue imm).toNat = imm.toNat := by
  have := imm.isLt
  simp only [setValue, BitVec.truncate_eq_setWidth, BitVec.toNat_setWidth]
  omega

@[simp] theorem setValue_residue (imm : HWord) : residue (setValue imm) = (imm.toNat : GF) := by
  rw [residue, setValue_toNat]

/-- The canonical value is V mod P when V is reduced (spec/40_move_and_io.md R83). -/
theorem canonical_toNat {v : Fe} (h : v.toNat < 2 ^ 255) : (canonical v).toNat = v.toNat % Config.P := by
  have hP := P_eq
  unfold canonical
  split
  · next hge =>
    rw [BitVec.toNat_ofNat]
    rw [hP] at hge ⊢
    omega
  · next hlt => rw [Nat.mod_eq_of_lt (by omega)]

end Sys2Proof.Machine
end

