-- ==== Sys2Proof/Laws/Micro.lean ====
section
/-! SUPPORT. Sequences of primitive operations: concatenation, repetition, and the registers a sequence leaves alone. -/

namespace Sys2Proof.Machine

@[simp] theorem runOps_nil (f : Regs) : runOps [] f = f := rfl

@[simp] theorem runOps_cons (op : MicroOp) (ops : List MicroOp) (f : Regs) :
    runOps (op :: ops) f = runOps ops (op.apply f) := rfl

theorem runOps_append (a b : List MicroOp) (f : Regs) : runOps (a ++ b) f = runOps b (runOps a f) := by
  induction a generalizing f with
  | nil => rfl
  | cons op a ih => exact ih _

theorem runOps_times_succ (n : Nat) (ops : List MicroOp) (f : Regs) :
    runOps (times (n + 1) ops) f = runOps (times n ops) (runOps ops f) := by
  rw [times, runOps_append]

/-- An operation leaves every register but its destinations alone. -/
theorem MicroOp.read_apply {op : MicroOp} {q : Reg} (h : q ∉ op.dests) (f : Regs) : (op.apply f).read q = f.read q := by
  cases op <;> simp_all [MicroOp.apply, MicroOp.dests, Regs.read_write]

/-! ### A register after one operation

A sequence is best read with these, from its last operation inwards: unfolding `MicroOp.apply` first makes each written
value a copy of the whole register file before it. -/

section read_apply

variable (f : Regs) (rd ra rb rc q : Reg) (imm : HWord)

theorem MicroOp.read_set : ((MicroOp.set rd imm).apply f).read q = if q = rd then setValue imm else f.read q :=
  Regs.read_write _ _ _ _

theorem MicroOp.read_cpy : ((MicroOp.cpy rd ra).apply f).read q = if q = rd then f.read ra else f.read q :=
  Regs.read_write _ _ _ _

theorem MicroOp.read_add :
    ((MicroOp.add rd ra rb).apply f).read q = if q = rd then feAdd (f.read ra) (f.read rb) else f.read q :=
  Regs.read_write _ _ _ _

theorem MicroOp.read_sub :
    ((MicroOp.sub rd ra rb).apply f).read q = if q = rd then feSub (f.read ra) (f.read rb) else f.read q :=
  Regs.read_write _ _ _ _

theorem MicroOp.read_mul :
    ((MicroOp.mul rd ra rb).apply f).read q = if q = rd then feMul (f.read ra) (f.read rb) else f.read q :=
  Regs.read_write _ _ _ _

theorem MicroOp.read_sqr : ((MicroOp.sqr rd ra).apply f).read q = if q = rd then feSqr (f.read ra) else f.read q :=
  Regs.read_write _ _ _ _

theorem MicroOp.read_muls :
    ((MicroOp.muls rd ra imm).apply f).read q = if q = rd then feMuls (f.read ra) (multiplier imm) else f.read q :=
  Regs.read_write _ _ _ _

theorem MicroOp.read_reduce :
    ((MicroOp.reduce rd ra).apply f).read q = if q = rd then feReduce (f.read ra) else f.read q :=
  Regs.read_write _ _ _ _

theorem MicroOp.read_prep :
    ((MicroOp.prep rd ra rb rc).apply f).read q =
      if q = rc then feSub (f.read ra) (f.read rb) else if q = rd then feAdd (f.read ra) (f.read rb) else f.read q := by
  rw [← Regs.read_write f rd q, ← Regs.read_write (f.write rd _) rc q]
  rfl

end read_apply

/-- MDBL of two different registers below T1: the four values it leaves (spec/43_montgomery.md R123). -/
theorem read_mdblOps (f : Regs) {x z : Reg} (hxz : x ≠ z) (hx : x.val < 12) (hz : z.val < 12) {p m : Fe}
    (hp : p = feSqr (f.read .t3)) (hm : m = feSqr (f.read .t4)) :
    (runOps (mdblOps x z) f).read x = feMul p m ∧
    (runOps (mdblOps x z) f).read z = feMul (feAdd p (feMuls (feSub p m) 121665)) (feSub p m) ∧
    (runOps (mdblOps x z) f).read .t1 = feAdd p (feMuls (feSub p m) 121665) ∧
    (runOps (mdblOps x z) f).read .t2 = feSub p m := by
  have ne {r t : Reg} (hr : r.val < 12) (ht : 12 ≤ t.val) : r ≠ t := fun e => by rw [e] at hr; omega
  have h1 := ne hx (t := .t1) (by decide)
  have h2 := ne hx (t := .t2) (by decide)
  have h3 := ne hz (t := .t1) (by decide)
  have h4 := ne hz (t := .t2) (by decide)
  have t12 : Reg.t1 ≠ Reg.t2 := by decide
  have t41 : Reg.t4 ≠ Reg.t1 := by decide
  have hA : multiplier Config.A24 = 121665 := by decide
  simp only [mdblOps, runOps_cons, runOps_nil, MicroOp.read_mul, MicroOp.read_add, MicroOp.read_sub, MicroOp.read_sqr,
    MicroOp.read_muls, hxz, hxz.symm, h1, h2, h3, h4, h1.symm, h2.symm, h3.symm, h4.symm, t12, t12.symm, t41, hA,
    if_true, if_false, ← hp, ← hm, and_self]

/-- MADD of three different registers below T1: the four values it leaves (spec/43_montgomery.md R122). -/
theorem read_maddOps (f : Regs) {x z d : Reg} (hxz : x ≠ z) (hxd : x ≠ d) (hzd : z ≠ d) (hx : x.val < 12)
    (hz : z.val < 12) (hd : d.val < 12) {m n : Fe} (hm : m = feMul (f.read .t2) (f.read .t3))
    (hn : n = feMul (f.read .t1) (f.read .t4)) :
    (runOps (maddOps x z d) f).read x = feSqr (feAdd m n) ∧
    (runOps (maddOps x z d) f).read z = feMul (feSqr (feSub m n)) (f.read d) ∧
    (runOps (maddOps x z d) f).read .t1 = feSqr (feSub m n) ∧
    (runOps (maddOps x z d) f).read .t2 = feSub m n := by
  have ne {r t : Reg} (hr : r.val < 12) (ht : 12 ≤ t.val) : r ≠ t := fun e => by rw [e] at hr; omega
  have h1 := ne hx (t := .t1) (by decide)
  have h2 := ne hx (t := .t2) (by decide)
  have h3 := ne hz (t := .t1) (by decide)
  have h4 := ne hz (t := .t2) (by decide)
  have h5 := ne hd (t := .t1) (by decide)
  have h6 := ne hd (t := .t2) (by decide)
  have h7 := ne hx (t := .t4) (by decide)
  have t12 : Reg.t1 ≠ Reg.t2 := by decide
  simp only [maddOps, runOps_cons, runOps_nil, MicroOp.read_mul, MicroOp.read_add, MicroOp.read_sub, MicroOp.read_sqr,
    hxz, hxz.symm, hxd.symm, hzd.symm, h1, h2, h3, h4, h1.symm, h2.symm, h3.symm, h4.symm, h5, h6, h7.symm, t12,
    t12.symm, if_true, if_false, ← hm, ← hn, and_self]

/-- The registers a sequence writes. -/
def destsOf : List MicroOp → List Reg
  | [] => []
  | op :: ops => op.dests ++ destsOf ops

theorem destsOf_append (a b : List MicroOp) : destsOf (a ++ b) = destsOf a ++ destsOf b := by
  induction a with
  | nil => rfl
  | cons op a ih => simp [destsOf, ih]

theorem mem_destsOf_times {q : Reg} {n : Nat} {ops : List MicroOp} (h : q ∈ destsOf (times n ops)) : q ∈ destsOf ops := by
  induction n with
  | zero => simp [times, destsOf] at h
  | succ n ih =>
    rw [times, destsOf_append, List.mem_append] at h
    exact h.elim id ih

/-- A sequence leaves every register but those it writes alone. -/
theorem read_runOps {q : Reg} {ops : List MicroOp} (h : q ∉ destsOf ops) (f : Regs) : (runOps ops f).read q = f.read q := by
  induction ops generalizing f with
  | nil => rfl
  | cons op ops ih =>
    simp only [destsOf, List.mem_append, not_or] at h
    rw [runOps_cons, ih h.2, MicroOp.read_apply h.1]

/-- The chain writes its five temporaries and nothing else (spec/42_exponentiation.md R110). -/
theorem destsOf_chainOps {q x : Reg} (h : q ∈ destsOf (chainOps x)) : q ∈ chainTemps := by
  simp only [chainOps, destsOf_append, List.mem_append] at h
  rcases h with h | h | h | h | h | h | h
  · simp [chain13, destsOf, MicroOp.dests] at h; simp [chainTemps]; tauto
  · simp only [chain17, destsOf_append, List.mem_append] at h
    rcases h with h | h | h
    · simp [destsOf, MicroOp.dests] at h; simp [chainTemps]; tauto
    · have := mem_destsOf_times h; simp [destsOf, MicroOp.dests] at this; simp [chainTemps]; tauto
    · simp [destsOf, MicroOp.dests] at h; simp [chainTemps]; tauto
  · simp only [chain21, destsOf_append, List.mem_append] at h
    rcases h with h | h | h
    · simp [destsOf, MicroOp.dests] at h; simp [chainTemps]; tauto
    · have := mem_destsOf_times h; simp [destsOf, MicroOp.dests] at this; simp [chainTemps]; tauto
    · simp [destsOf, MicroOp.dests] at h; simp [chainTemps]; tauto
  · simp only [chain23, destsOf_append, List.mem_append] at h
    rcases h with h | h
    · have := mem_destsOf_times h; simp [destsOf, MicroOp.dests] at this; simp [chainTemps]; tauto
    · simp [destsOf, MicroOp.dests] at h; simp [chainTemps]; tauto
  · simp only [chain27, destsOf_append, List.mem_append] at h
    rcases h with h | h | h
    · simp [destsOf, MicroOp.dests] at h; simp [chainTemps]; tauto
    · have := mem_destsOf_times h; simp [destsOf, MicroOp.dests] at this; simp [chainTemps]; tauto
    · simp [destsOf, MicroOp.dests] at h; simp [chainTemps]; tauto
  · simp only [chain31, destsOf_append, List.mem_append] at h
    rcases h with h | h | h
    · simp [destsOf, MicroOp.dests] at h; simp [chainTemps]; tauto
    · have := mem_destsOf_times h; simp [destsOf, MicroOp.dests] at this; simp [chainTemps]; tauto
    · simp [destsOf, MicroOp.dests] at h; simp [chainTemps]; tauto
  · simp only [chain35, destsOf_append, List.mem_append] at h
    rcases h with h | h
    · have := mem_destsOf_times h; simp [destsOf, MicroOp.dests] at this; simp [chainTemps]; tauto
    · simp [destsOf, MicroOp.dests] at h; simp [chainTemps]; tauto

/-- A change of the register file alone, followed by PC + 1, frames everything but the registers written. -/
theorem frame_withRegs {dests : List Reg} {s : State} {f : Regs} (h : ∀ q, q ∉ dests → Regs.read f q = s.reg q) :
    Frame dests s (s.withRegs f).advance where
  reg := h
  k := rfl
  ovf := rfl
  neg := rfl
  run := rfl
  errcode := rfl
  herr := rfl
  ie := rfl
  entry := rfl
  dmem := fun _ => rfl
  imem := fun _ => rfl
  hostMoves := rfl
  replies := rfl
  imemGen := rfl
  busyReads := rfl

/-! ### The trace -/

theorem traceOps_append (a b : List MicroOp) : traceOps (a ++ b) = traceOps a ++ traceOps b := by
  induction a with
  | nil => rfl
  | cons op a ih => simp [traceOps, ih]

end Sys2Proof.Machine
end

