-- ==== Sys2Proof/Laws/Ops.lean ====
section
/-! SUPPORT. What each shared operation can do, said once: the order of checks, the unit's move, a turn of the machine, and
the host's actions. Later proofs cite these instead of unfolding. -/

namespace Sys2Proof.Machine

/-! ### The order of the checks -/

theorem complete_illegalOperand {ok d : Bool} (e : State → State) (s : State) (h : ok = false) :
    complete ok d e s = .next (s.takeFault .illegalOperand) := by
  simp [complete, h]

theorem complete_pcOverrun {ok d : Bool} (e : State → State) (s : State) (h : ok = true) (hp : s.pc = 255) :
    complete ok d e s = .next (s.takeFault .pcOverrun) := by
  simp [complete, h, hp]

theorem complete_notReduced {ok d : Bool} (e : State → State) (s : State) (h : ok = true) (hp : s.pc ≠ 255)
    (hd : d = false) : complete ok d e s = .next (s.takeFault .notReduced) := by
  have hp' : (s.pc == 255) = false := beq_eq_false_iff_ne.mpr hp
  subst h; subst hd; simp only [complete, hp']

theorem complete_runs {ok d : Bool} (e : State → State) (s : State) (h : ok = true) (hp : s.pc ≠ 255) (hd : d = true) :
    complete ok d e s = .next (e s).advance := by
  have hp' : (s.pc == 255) = false := beq_eq_false_iff_ne.mpr hp
  subst h; subst hd; simp only [complete, hp']

/-- Everything an instruction other than HALT can do. -/
theorem complete_cases {ok d : Bool} {e : State → State} {s t : State} (h : complete ok d e s = .next t) :
    (ok = false ∧ t = s.takeFault .illegalOperand) ∨
    (ok = true ∧ s.pc = 255 ∧ t = s.takeFault .pcOverrun) ∨
    (ok = true ∧ s.pc ≠ 255 ∧ d = false ∧ t = s.takeFault .notReduced) ∨
    (ok = true ∧ s.pc ≠ 255 ∧ d = true ∧ t = (e s).advance) := by
  cases ok with
  | false => rw [complete_illegalOperand e s rfl] at h; cases h; exact .inl ⟨rfl, rfl⟩
  | true =>
    by_cases hp : s.pc = 255
    · rw [complete_pcOverrun e s rfl hp] at h; cases h; exact .inr (.inl ⟨rfl, hp, rfl⟩)
    · cases d with
      | false => rw [complete_notReduced e s rfl hp rfl] at h; cases h; exact .inr (.inr (.inl ⟨rfl, hp, rfl, rfl⟩))
      | true => rw [complete_runs e s rfl hp rfl] at h; cases h; exact .inr (.inr (.inr ⟨rfl, hp, rfl, rfl⟩))

/-- It always answers a next state. -/
theorem complete_next (ok d : Bool) (e : State → State) (s : State) : ∃ t, complete ok d e s = .next t := by
  cases ok with
  | false => exact ⟨_, complete_illegalOperand e s rfl⟩
  | true =>
    by_cases hp : s.pc = 255
    · exact ⟨_, complete_pcOverrun e s rfl hp⟩
    · cases d with
      | false => exact ⟨_, complete_notReduced e s rfl hp rfl⟩
      | true => exact ⟨_, complete_runs e s rfl hp rfl⟩

theorem sequence_runs {ok : Bool} (ops : List MicroOp) (s : State) (h : ok = true) (hp : s.pc ≠ 255) :
    sequence ok ops s = .next (s.withRegs (runOps ops s.regs)).advance :=
  complete_runs _ s h hp rfl

/-! ### The unit's move and the turn -/

theorem unitStep_ok {s : State} {i : Instr} (hr : s.run = .busy) (hd : decodeWord s.fetchWord = .ok i) :
    unitStep s = exec i s := by
  simp [unitStep, hr, hd]

theorem unitStep_error {s : State} {r : Reject} (hr : s.run = .busy) (hd : decodeWord s.fetchWord = .error r) :
    unitStep s = .next (s.takeFault (rejectCause r)) := by
  simp [unitStep, hr, hd]

theorem unitStep_idle {s : State} (hr : s.run ≠ .busy) : unitStep s = .next s := by
  cases h : s.run <;> simp_all [unitStep]

/-- Everything the unit's move can do. -/
theorem unitStep_cases (s : State) :
    (s.run ≠ .busy ∧ unitStep s = .next s) ∨
    (∃ r, s.run = .busy ∧ decodeWord s.fetchWord = .error r ∧ unitStep s = .next (s.takeFault (rejectCause r))) ∨
    (∃ i, s.run = .busy ∧ decodeWord s.fetchWord = .ok i ∧ unitStep s = exec i s) := by
  by_cases hr : s.run = .busy
  · cases hd : decodeWord s.fetchWord with
    | error r => exact .inr (.inl ⟨r, hr, rfl, unitStep_error hr hd⟩)
    | ok i => exact .inr (.inr ⟨i, hr, rfl, unitStep_ok hr hd⟩)
  · exact .inl ⟨hr, unitStep_idle hr⟩

theorem turn_nil {s : State} (h : s.hostMoves = []) : turn s = unitStep s := by
  simp [turn, h]

theorem turn_cons {s : State} {m : HostMove} {rest : List HostMove} (h : s.hostMoves = m :: rest) :
    turn s = hostTurn m { s with hostMoves := rest } := by
  simp [turn, h]

/-! ### The host's actions -/

theorem State.clear_cases (s : State) :
    ((s.run = .done ∨ s.run = .fault) ∧ s.clear = { s with run := .idle, errcode := 0, herr := false }) ∨
    (s.run = .idle ∧ s.clear = { s with herr := false }) ∨ (s.run = .busy ∧ s.clear = s) := by
  cases h : s.run <;> simp [State.clear, h]

theorem State.start_cases (s : State) :
    (s.run = .idle ∧ s.start = { s with pc := s.entry, errcode := 0, run := .busy }) ∨
    (s.run ≠ .idle ∧ s.start = { s with herr := true }) := by
  cases h : s.run <;> simp [State.start, h]

end Sys2Proof.Machine
end

