-- ==== Sys2Proof/Laws/Operands.lean ====
section
/-! SUPPORT. The operand checks are the restrictions of WellFormed.lean; every meaning is the checks around one effect. -/

namespace Sys2Proof.Machine

theorem slotOk_iff (imm : HWord) : slotOk imm = true ↔ imm.toNat < 16 := by
  rw [slotOk, decide_eq_true_iff]; rfl

theorem multiplierOk_iff (imm : HWord) : multiplierOk imm = true ↔ -2 ^ 28 ≤ imm.toInt ∧ imm.toInt ≤ 2 ^ 28 := by
  rw [multiplierOk, Bool.and_eq_true, decide_eq_true_iff, decide_eq_true_iff]; rfl

theorem isPointTemp_iff (r : Reg) : isPointTemp r = true ↔ 12 ≤ r.val := by
  revert r; decide

theorem recipSourceOk_iff (ra : Reg) : recipSourceOk ra = true ↔ ra ∉ [Reg.t0, Reg.t1, Reg.t2, Reg.t3, Reg.t4] := by
  revert ra; decide

theorem sqrtSourceOk_iff (ra : Reg) :
    sqrtSourceOk ra = true ↔ ra ∉ [Reg.t0, Reg.dx, Reg.x0, Reg.z0, Reg.t1, Reg.t2, Reg.t3, Reg.t4] := by
  revert ra; decide

theorem maddOk_iff (ra rb rc : Reg) :
    maddOk ra rb rc = true ↔ ra ≠ rb ∧ ra ≠ rc ∧ rb ≠ rc ∧ ra.val < 12 ∧ rb.val < 12 ∧ rc.val < 12 := by
  have h (r : Reg) : isPointTemp r = false ↔ r.val < 12 := by
    have := isPointTemp_iff r
    cases hr : isPointTemp r <;> simp_all
  simp [maddOk, h, and_assoc]

theorem mdblOk_iff (ra rb : Reg) : mdblOk ra rb = true ↔ ra ≠ rb ∧ ra.val < 12 ∧ rb.val < 12 := by
  have h (r : Reg) : isPointTemp r = false ↔ r.val < 12 := by
    have := isPointTemp_iff r
    cases hr : isPointTemp r <;> simp_all
  simp [mdblOk, h, and_assoc]

/-- The operand check each meaning makes. -/
def operandsOk : Instr → Bool
  | .unpack _ imm => slotOk imm
  | .pack _ imm => slotOk imm
  | .ldk imm => slotOk imm
  | .muls _ _ imm => multiplierOk imm
  | .recip _ ra => recipSourceOk ra
  | .recips _ ra => recipSourceOk ra
  | .sqrt _ ra => sqrtSourceOk ra
  | .mprep rd _ _ rc => mprepOk rd rc
  | .madd ra rb rc => maddOk ra rb rc
  | .mdbl ra rb => mdblOk ra rb
  | .halt | .set .. | .cpy .. | .wipe | .add .. | .sub .. | .mul .. | .sqr .. | .reduce .. | .tstovf .. | .tstneg ..
  | .ladder .. | .ladderg => true

/-- The two readings of the table of spec/60_exceptions.md R153 agree. -/
theorem operandsOk_eq_wellFormed (i : Instr) : operandsOk i = i.wellFormed := by
  rw [Bool.eq_iff_iff]
  cases i <;> simp only [operandsOk, Instr.wellFormed, decide_eq_true_eq]
  case unpack => exact slotOk_iff _
  case pack => exact slotOk_iff _
  case ldk => exact slotOk_iff _
  case muls => rw [multiplierOk_iff]; norm_num
  case recip rd ra => revert ra; decide
  case recips rd ra => revert ra; decide
  case sqrt rd ra => revert ra; decide
  case mprep rd ra rb rc => simp [mprepOk]
  case madd => exact maddOk_iff _ _ _
  case mdbl => exact mdblOk_iff _ _

/-- The data check each meaning makes. -/
def dataOk (s : State) : Instr → Bool
  | .pack ra _ => isReduced (s.reg ra)
  | .tstovf ra => isReduced (s.reg ra)
  | .tstneg ra => isReduced (s.reg ra)
  | .halt | .set .. | .cpy .. | .unpack .. | .ldk .. | .wipe | .add .. | .sub .. | .mul .. | .sqr .. | .muls ..
  | .reduce .. | .recip .. | .recips .. | .sqrt .. | .mprep .. | .madd .. | .mdbl .. | .ladder .. | .ladderg => true

/-- The effect each meaning has when no check fails, before PC advances. -/
def effect (i : Instr) (s : State) : State :=
  match i with
  | .halt => s
  | .unpack rd imm => s.withRegs (s.regs.write rd (s.slotValue (slotNumber imm)))
  | .pack ra imm => s.memWrite (slotAddr imm) (bytes256 (canonical (s.reg ra)))
  | .ldk imm => s.withK (s.slotValue (slotNumber imm))
  | .wipe => s.wipe
  | .tstovf ra => s.withOvf (ovfOf (s.reg ra))
  | .tstneg ra => s.withNeg (negOf (s.reg ra))
  | .set .. | .cpy .. | .add .. | .sub .. | .mul .. | .sqr .. | .muls .. | .reduce .. | .recip .. | .recips .. | .sqrt ..
  | .mprep .. | .madd .. | .mdbl .. | .ladder .. | .ladderg => s.withRegs (runOps (opsOf s.k i) s.regs)

/-- Every meaning but HALT's is the same three checks around its effect: the one lemma from which whole-machine rules follow. -/
theorem exec_eq_complete {i : Instr} (h : i ≠ .halt) (s : State) :
    exec i s = complete i.wellFormed (dataOk s i) (fun _ => effect i s) s := by
  rw [← operandsOk_eq_wellFormed]
  cases i with
  | halt => exact absurd rfl h
  | unpack => simp only [exec, execUnpack, complete, operandsOk, dataOk, effect]
  | pack => simp only [exec, execPack, complete, operandsOk, dataOk, effect]
  | ldk => simp only [exec, execLdk, complete, operandsOk, dataOk, effect]
  | wipe => simp only [exec, execWipe, complete, operandsOk, dataOk, effect]
  | tstovf => simp only [exec, execTstovf, complete, operandsOk, dataOk, effect]
  | tstneg => simp only [exec, execTstneg, complete, operandsOk, dataOk, effect]
  | set => simp only [exec, execSet, sequence, complete, operandsOk, dataOk, effect, opsOf]
  | cpy => simp only [exec, execCpy, sequence, complete, operandsOk, dataOk, effect, opsOf]
  | add => simp only [exec, execAdd, sequence, complete, operandsOk, dataOk, effect, opsOf]
  | sub => simp only [exec, execSub, sequence, complete, operandsOk, dataOk, effect, opsOf]
  | mul => simp only [exec, execMul, sequence, complete, operandsOk, dataOk, effect, opsOf]
  | sqr => simp only [exec, execSqr, sequence, complete, operandsOk, dataOk, effect, opsOf]
  | muls => simp only [exec, execMuls, sequence, complete, operandsOk, dataOk, effect, opsOf]
  | reduce => simp only [exec, execReduce, sequence, complete, operandsOk, dataOk, effect, opsOf]
  | recip => simp only [exec, execRecip, sequence, complete, operandsOk, dataOk, effect, opsOf]
  | recips => simp only [exec, execRecips, sequence, complete, operandsOk, dataOk, effect, opsOf]
  | sqrt => simp only [exec, execSqrt, sequence, complete, operandsOk, dataOk, effect, opsOf]
  | mprep => simp only [exec, execMprep, sequence, complete, operandsOk, dataOk, effect, opsOf]
  | madd => simp only [exec, execMadd, sequence, complete, operandsOk, dataOk, effect, opsOf]
  | mdbl => simp only [exec, execMdbl, sequence, complete, operandsOk, dataOk, effect, opsOf]
  | ladder => simp only [exec, execLadder, sequence, complete, operandsOk, dataOk, effect, opsOf]
  | ladderg => simp only [exec, execLadderg, sequence, complete, operandsOk, dataOk, effect, opsOf]

theorem exec_halt (s : State) : exec .halt s = .next s.finish := rfl

/-- Everything an instruction can do. -/
theorem exec_cases {i : Instr} {s t : State} (h : exec i s = .next t) :
    (i = .halt ∧ t = s.finish) ∨
    (i ≠ .halt ∧ i.wellFormed = false ∧ t = s.takeFault .illegalOperand) ∨
    (i ≠ .halt ∧ i.wellFormed = true ∧ s.pc = 255 ∧ t = s.takeFault .pcOverrun) ∨
    (i ≠ .halt ∧ i.wellFormed = true ∧ s.pc ≠ 255 ∧ dataOk s i = false ∧ t = s.takeFault .notReduced) ∨
    (i ≠ .halt ∧ i.wellFormed = true ∧ s.pc ≠ 255 ∧ dataOk s i = true ∧ t = (effect i s).advance) := by
  by_cases hi : i = .halt
  · subst hi
    rw [exec_halt] at h
    cases h
    exact .inl ⟨rfl, rfl⟩
  · rw [exec_eq_complete hi] at h
    rcases complete_cases h with ⟨a, b⟩ | ⟨a, b, c⟩ | ⟨a, b, c, d⟩ | ⟨a, b, c, d⟩
    · exact .inr (.inl ⟨hi, a, b⟩)
    · exact .inr (.inr (.inl ⟨hi, a, b, c⟩))
    · exact .inr (.inr (.inr (.inl ⟨hi, a, b, c, d⟩)))
    · exact .inr (.inr (.inr (.inr ⟨hi, a, b, c, d⟩)))

/-! ### What an effect reaches -/

/-- Everything an effect can be. -/
theorem effect_cases (i : Instr) (s : State) :
    (i = .halt ∧ effect i s = s) ∨ (∃ f, effect i s = s.withRegs f) ∨ (∃ imm v, i = .ldk imm ∧ effect i s = s.withK v) ∨
    (∃ ra imm a b, i = .pack ra imm ∧ effect i s = s.memWrite a b) ∨ (i = .wipe ∧ effect i s = s.wipe) ∨
    (∃ ra b, i = .tstovf ra ∧ effect i s = s.withOvf b) ∨ (∃ ra b, i = .tstneg ra ∧ effect i s = s.withNeg b) := by
  cases i with
  | halt => exact .inl ⟨rfl, rfl⟩
  | ldk imm => exact .inr (.inr (.inl ⟨_, _, rfl, rfl⟩))
  | pack ra imm => exact .inr (.inr (.inr (.inl ⟨_, _, _, _, rfl, rfl⟩)))
  | wipe => exact .inr (.inr (.inr (.inr (.inl ⟨rfl, rfl⟩))))
  | tstovf ra => exact .inr (.inr (.inr (.inr (.inr (.inl ⟨_, _, rfl, rfl⟩)))))
  | tstneg ra => exact .inr (.inr (.inr (.inr (.inr (.inr ⟨_, _, rfl, rfl⟩)))))
  | _ => exact .inr (.inl ⟨_, rfl⟩)

@[simp] theorem effect_pc (i : Instr) (s : State) : (effect i s).pc = s.pc := by
  rcases effect_cases i s with ⟨_, h⟩ | ⟨_, h⟩ | ⟨_, _, _, h⟩ | ⟨_, _, _, _, _, h⟩ | ⟨_, h⟩ | ⟨_, _, _, h⟩ | ⟨_, _, _, h⟩ <;>
    simp [h]

@[simp] theorem effect_run (i : Instr) (s : State) : (effect i s).run = s.run := by
  rcases effect_cases i s with ⟨_, h⟩ | ⟨_, h⟩ | ⟨_, _, _, h⟩ | ⟨_, _, _, _, _, h⟩ | ⟨_, h⟩ | ⟨_, _, _, h⟩ | ⟨_, _, _, h⟩ <;>
    simp [h]

@[simp] theorem effect_errcode (i : Instr) (s : State) : (effect i s).errcode = s.errcode := by
  rcases effect_cases i s with ⟨_, h⟩ | ⟨_, h⟩ | ⟨_, _, _, h⟩ | ⟨_, _, _, _, _, h⟩ | ⟨_, h⟩ | ⟨_, _, _, h⟩ | ⟨_, _, _, h⟩ <;>
    simp [h]

@[simp] theorem effect_herr (i : Instr) (s : State) : (effect i s).herr = s.herr := by
  rcases effect_cases i s with ⟨_, h⟩ | ⟨_, h⟩ | ⟨_, _, _, h⟩ | ⟨_, _, _, _, _, h⟩ | ⟨_, h⟩ | ⟨_, _, _, h⟩ | ⟨_, _, _, h⟩ <;>
    simp [h]

@[simp] theorem effect_ie (i : Instr) (s : State) : (effect i s).ie = s.ie := by
  rcases effect_cases i s with ⟨_, h⟩ | ⟨_, h⟩ | ⟨_, _, _, h⟩ | ⟨_, _, _, _, _, h⟩ | ⟨_, h⟩ | ⟨_, _, _, h⟩ | ⟨_, _, _, h⟩ <;>
    simp [h]

@[simp] theorem effect_entry (i : Instr) (s : State) : (effect i s).entry = s.entry := by
  rcases effect_cases i s with ⟨_, h⟩ | ⟨_, h⟩ | ⟨_, _, _, h⟩ | ⟨_, _, _, _, _, h⟩ | ⟨_, h⟩ | ⟨_, _, _, h⟩ | ⟨_, _, _, h⟩ <;>
    simp [h]

@[simp] theorem effect_imem (i : Instr) (s : State) : (effect i s).imem = s.imem := by
  rcases effect_cases i s with ⟨_, h⟩ | ⟨_, h⟩ | ⟨_, _, _, h⟩ | ⟨_, _, _, _, _, h⟩ | ⟨_, h⟩ | ⟨_, _, _, h⟩ | ⟨_, _, _, h⟩ <;>
    simp [h]

@[simp] theorem effect_hostMoves (i : Instr) (s : State) : (effect i s).hostMoves = s.hostMoves := by
  rcases effect_cases i s with ⟨_, h⟩ | ⟨_, h⟩ | ⟨_, _, _, h⟩ | ⟨_, _, _, _, _, h⟩ | ⟨_, h⟩ | ⟨_, _, _, h⟩ | ⟨_, _, _, h⟩ <;>
    simp [h]

@[simp] theorem effect_replies (i : Instr) (s : State) : (effect i s).replies = s.replies := by
  rcases effect_cases i s with ⟨_, h⟩ | ⟨_, h⟩ | ⟨_, _, _, h⟩ | ⟨_, _, _, _, _, h⟩ | ⟨_, h⟩ | ⟨_, _, _, h⟩ | ⟨_, _, _, h⟩ <;>
    simp [h]

@[simp] theorem effect_imemGen (i : Instr) (s : State) : (effect i s).imemGen = s.imemGen := by
  rcases effect_cases i s with ⟨_, h⟩ | ⟨_, h⟩ | ⟨_, _, _, h⟩ | ⟨_, _, _, _, _, h⟩ | ⟨_, h⟩ | ⟨_, _, _, h⟩ | ⟨_, _, _, h⟩ <;>
    simp [h]

@[simp] theorem effect_busyReads (i : Instr) (s : State) : (effect i s).busyReads = s.busyReads := by
  rcases effect_cases i s with ⟨_, h⟩ | ⟨_, h⟩ | ⟨_, _, _, h⟩ | ⟨_, _, _, _, _, h⟩ | ⟨_, h⟩ | ⟨_, _, _, h⟩ | ⟨_, _, _, h⟩ <;>
    simp [h]

theorem effect_k {i : Instr} (s : State) (h1 : i ≠ .wipe) (h2 : ∀ imm, i ≠ .ldk imm) : (effect i s).k = s.k := by
  rcases effect_cases i s with ⟨e, h⟩ | ⟨_, h⟩ | ⟨_, _, e, h⟩ | ⟨_, _, _, _, e, h⟩ | ⟨e, h⟩ | ⟨_, _, e, h⟩ | ⟨_, _, e, h⟩ <;>
    simp_all

theorem effect_ovf {i : Instr} (s : State) (h1 : i ≠ .wipe) (h2 : ∀ ra, i ≠ .tstovf ra) : (effect i s).ovf = s.ovf := by
  rcases effect_cases i s with ⟨e, h⟩ | ⟨_, h⟩ | ⟨_, _, e, h⟩ | ⟨_, _, _, _, e, h⟩ | ⟨e, h⟩ | ⟨_, _, e, h⟩ | ⟨_, _, e, h⟩ <;>
    simp_all

theorem effect_neg {i : Instr} (s : State) (h1 : i ≠ .wipe) (h2 : ∀ ra, i ≠ .tstneg ra) : (effect i s).neg = s.neg := by
  rcases effect_cases i s with ⟨e, h⟩ | ⟨_, h⟩ | ⟨_, _, e, h⟩ | ⟨_, _, _, _, e, h⟩ | ⟨e, h⟩ | ⟨_, _, e, h⟩ | ⟨_, _, e, h⟩ <;>
    simp_all

theorem effect_dmem {i : Instr} (s : State) (h1 : ∀ ra imm, i ≠ .pack ra imm) : (effect i s).dmem = s.dmem := by
  rcases effect_cases i s with ⟨e, h⟩ | ⟨_, h⟩ | ⟨_, _, e, h⟩ | ⟨_, _, _, _, e, h⟩ | ⟨e, h⟩ | ⟨_, _, e, h⟩ | ⟨_, _, e, h⟩ <;>
    simp_all

end Sys2Proof.Machine
end

