-- ==== Sys2Proof/Laws/PerInstr.lean ====
section
/-! SUPPORT. A law stated once for every instruction: the word of an instruction carries the opcode of its row of
spec/opcode_table.json, and its z field is zero (spec/30_encoding.md R61, R62, R66). -/

namespace Sys2Proof.Laws.EncodesRow

/-- The word of `i` carries the opcode that `i`'s row of the table has, with z zero. -/
def Statement (i : Instr) : Prop :=
  (∃ r ∈ opcodeTable, r.mnemonic = i.mnemonic ∧ (fieldsOf r.pattern).op = (fieldsOf (encode i)).op) ∧
    (fieldsOf (encode i)).z = 0

/-- Both halves follow from the fields of the instruction and its row, found in the table by its place. -/
theorem of_row {i : Instr} (n : Nat) (h : n < opcodeTable.length) (hm : (opcodeTable[n]).mnemonic = i.mnemonic)
    (ho : (fieldsOf (opcodeTable[n]).pattern).op = i.fields.op) (hz : i.fields.z = 0) : Statement i := by
  rw [Statement, encode, fieldsOf_word]
  exact ⟨⟨_, List.getElem_mem h, hm, ho⟩, hz⟩

theorem halt : Statement (.halt) := of_row 0 (by decide) rfl rfl rfl
theorem set (rd : Reg) (imm : HWord) : Statement (.set rd imm) := of_row 1 (by decide) rfl rfl rfl
theorem cpy (rd ra : Reg) : Statement (.cpy rd ra) := of_row 2 (by decide) rfl rfl rfl
theorem unpack (rd : Reg) (imm : HWord) : Statement (.unpack rd imm) := of_row 3 (by decide) rfl rfl rfl
theorem pack (ra : Reg) (imm : HWord) : Statement (.pack ra imm) := of_row 4 (by decide) rfl rfl rfl
theorem ldk (imm : HWord) : Statement (.ldk imm) := of_row 5 (by decide) rfl rfl rfl
theorem wipe : Statement (.wipe) := of_row 6 (by decide) rfl rfl rfl
theorem add (rd ra rb : Reg) : Statement (.add rd ra rb) := of_row 7 (by decide) rfl rfl rfl
theorem sub (rd ra rb : Reg) : Statement (.sub rd ra rb) := of_row 8 (by decide) rfl rfl rfl
theorem mul (rd ra rb : Reg) : Statement (.mul rd ra rb) := of_row 9 (by decide) rfl rfl rfl
theorem sqr (rd ra : Reg) : Statement (.sqr rd ra) := of_row 10 (by decide) rfl rfl rfl
theorem muls (rd ra : Reg) (imm : HWord) : Statement (.muls rd ra imm) := of_row 11 (by decide) rfl rfl rfl
theorem reduce (rd ra : Reg) : Statement (.reduce rd ra) := of_row 12 (by decide) rfl rfl rfl
theorem tstovf (ra : Reg) : Statement (.tstovf ra) := of_row 13 (by decide) rfl rfl rfl
theorem tstneg (ra : Reg) : Statement (.tstneg ra) := of_row 14 (by decide) rfl rfl rfl
theorem recip (rd ra : Reg) : Statement (.recip rd ra) := of_row 15 (by decide) rfl rfl rfl
theorem recips (rd ra : Reg) : Statement (.recips rd ra) := of_row 16 (by decide) rfl rfl rfl
theorem sqrt (rd ra : Reg) : Statement (.sqrt rd ra) := of_row 17 (by decide) rfl rfl rfl
theorem mprep (rd ra rb rc : Reg) : Statement (.mprep rd ra rb rc) := of_row 18 (by decide) rfl rfl rfl
theorem madd (ra rb rc : Reg) : Statement (.madd ra rb rc) := of_row 19 (by decide) rfl rfl rfl
theorem mdbl (ra rb : Reg) : Statement (.mdbl ra rb) := of_row 20 (by decide) rfl rfl rfl
theorem ladder (ra : Reg) : Statement (.ladder ra) := of_row 21 (by decide) rfl rfl rfl
theorem ladderg : Statement (.ladderg) := of_row 22 (by decide) rfl rfl rfl

end Sys2Proof.Laws.EncodesRow
end

