-- ==== Sys2Proof/Laws/Turn.lean ====
section
/-! SUPPORT. What one step of the whole machine can be, said once, and what the host's accesses reach. -/

namespace Sys2Proof.Machine

/-! ### The unit's turn -/

theorem unitTurn_nil {s : State} (h : s.hostMoves = []) : UnitTurn s s := .inl ⟨h, rfl⟩

theorem unitTurn_wait {s : State} {rest : List HostMove} (h : s.hostMoves = .wait :: rest) :
    UnitTurn s { s with hostMoves := rest } := .inr ⟨rest, h, rfl⟩

/-- The state the unit moves from differs from the state before only in the moves to come. -/
theorem UnitTurn.eq {s u : State} (h : UnitTurn s u) : u = { s with hostMoves := u.hostMoves } := by
  rcases h with ⟨_, rfl⟩ | ⟨rest, _, rfl⟩ <;> rfl

theorem UnitTurn.run {s u : State} (h : UnitTurn s u) : u.run = s.run := by rw [h.eq]

theorem UnitTurn.pc {s u : State} (h : UnitTurn s u) : u.pc = s.pc := by rw [h.eq]

theorem UnitTurn.reg {s u : State} (h : UnitTurn s u) (r : Reg) : u.reg r = s.reg r := by rw [h.eq]; rfl

/-- `n` bytes of IMEM depend on IMEM and its free contents only. -/
theorem State.imemRead_congr {s u : State} (h : ∀ a, u.imemByte a = s.imemByte a) (a n : Nat) :
    u.imemRead a n = s.imemRead a n := by
  induction n generalizing a with
  | zero => rfl
  | succ n ih => rw [State.imemRead, State.imemRead, h, ih]

theorem UnitTurn.fetchWord {s u : State} (h : UnitTurn s u) : u.fetchWord = s.fetchWord := by
  have hb : ∀ a, u.imemByte a = s.imemByte a := by intro a; rw [h.eq]; rfl
  rw [State.fetchWord, State.fetchBytes, State.fetchAddr, State.imemRead_congr hb, h.pc]
  rfl

theorem step_unitTurn {s u : State} (h : UnitTurn s u) : step s = unitStep u := by
  rcases h with ⟨h, rfl⟩ | ⟨rest, h, rfl⟩
  · exact turn_nil h
  · exact turn_cons h

/-- Everything a step can be. -/
theorem step_cases (s : State) :
    (∃ u, UnitTurn s u ∧ step s = unitStep u) ∨
    (∃ o w rest, s.hostMoves = .read o w :: rest ∧ step s = .next (hostRead o w { s with hostMoves := rest })) ∨
    (∃ o w v rest, s.hostMoves = .write o w v :: rest ∧ step s = .next (hostWrite o w v { s with hostMoves := rest })) ∨
    (∃ rest, s.hostMoves = .reset :: rest ∧ step s = .next (State.resetEvent { s with hostMoves := rest })) := by
  cases h : s.hostMoves with
  | nil => exact .inl ⟨s, unitTurn_nil h, step_unitTurn (unitTurn_nil h)⟩
  | cons m rest =>
    cases m with
    | wait => exact .inl ⟨_, unitTurn_wait h, step_unitTurn (unitTurn_wait h)⟩
    | read o w => exact .inr (.inl ⟨o, w, rest, rfl, turn_cons h⟩)
    | write o w v => exact .inr (.inr (.inl ⟨o, w, v, rest, rfl, turn_cons h⟩))
    | reset => exact .inr (.inr (.inr ⟨rest, rfl, turn_cons h⟩))

theorem run_succ {M : Host.Core} {s t : M.State} (h : M.step s = .next t) (n : Nat) : M.run (n + 1) s = M.run n t := by
  rw [Host.Core.run, h]

/-- A run of one more step goes on from the step's next state. -/
theorem core_run_succ {s t : State} (h : step s = .next t) (n : Nat) :
    Host.Core.run Sys2Proof.core (n + 1) s = Host.Core.run Sys2Proof.core n t :=
  run_succ (M := Sys2Proof.core) h n

/-! ### What the host's accesses reach -/

/-- A read changes HERR, the replies and the count of free values, and nothing else (R47). -/
theorem hostRead_reaches (o : BitVec 12) (w : Nat) (s : State) :
    ∃ h r n, hostRead o w s = { s with herr := h, replies := r, busyReads := n } := by
  unfold hostRead
  split
  · exact ⟨_, _, _, rfl⟩
  · split
    · unfold State.readStatus
      split <;> exact ⟨_, _, _, rfl⟩
    all_goals (try split) <;> exact ⟨_, _, _, rfl⟩

/-- A write while BUSY is refused (R24, R52). -/
theorem hostWrite_busy {s : State} (h : s.run = .busy) (o : BitVec 12) (w : Nat) (v : HWord) :
    hostWrite o w v s = s.refuse := by
  unfold hostWrite
  split
  · rfl
  · rfl

/-- Everything a write outside a run can be (R48). -/
theorem hostWrite_cases {s : State} (h : s.run ≠ .busy) (o : BitVec 12) (w : Nat) (v : HWord) :
    hostWrite o w v s = s.refuse ∨ (o = 0 ∧ w = 4 ∧ hostWrite o w v s = s.writeCtrl v) ∨
    hostWrite o w v s = { s with entry := v.truncate 8 } ∨
    (∃ a, hostWrite o w v s = s.memWrite a (leBytes 4 v.toNat)) ∨
    (∃ a, hostWrite o w v s = s.imemWrite a (leBytes 4 v.toNat)) := by
  unfold hostWrite
  split
  · exact .inl rfl
  · next ha =>
    split
    · next ht =>
      refine .inr (.inl ⟨?_, ?_, rfl⟩)
      · unfold target at ht
        by_cases h0 : o.toNat = 0
        · exact BitVec.eq_of_toNat_eq h0
        · simp only [h0, if_false] at ht
          (repeat' split at ht) <;> cases ht
      · simp only [aligned, Bool.not_eq_false, Bool.and_eq_true, beq_iff_eq] at ha
        exact ha.1
    · exact .inr (.inr (.inl rfl))
    · exact .inl rfl
    · exact .inr (.inr (.inr (.inl ⟨_, rfl⟩)))
    · exact .inr (.inr (.inr (.inr ⟨_, rfl⟩)))
    · exact .inl rfl

/-- A write of CTRL changes IE, STATE, PC, ERRCODE and HERR, and nothing else (R20). -/
theorem State.writeCtrl_reaches (s : State) (v : HWord) :
    ∃ i r p e h, s.writeCtrl v = { s with ie := i, run := r, pc := p, errcode := e, herr := h } := by
  obtain ⟨regs, k, pc, ovf, neg, run, errcode, herr, ie, entry, dmem, imem, moves, replies, gen, reads⟩ := s
  unfold State.writeCtrl State.clear State.start
  generalize v.getLsbD 1 = c
  generalize v.getLsbD 0 = b
  cases run <;> cases c <;> cases b <;> exact ⟨_, _, _, _, _, rfl⟩

/-- What STATE is after a write of CTRL outside a run: START acts where the state is IDLE or CLEAR stands in the same write,
and after it nothing else can (R19, R20). -/
theorem State.writeCtrl_run {s : State} (h : s.run ≠ .busy) (v : HWord) :
    (s.writeCtrl v).run =
      if v.getLsbD 0 && (v.getLsbD 1 || s.run == .idle) then .busy else if v.getLsbD 1 then .idle else s.run := by
  obtain ⟨regs, k, pc, ovf, neg, run, errcode, herr, ie, entry, dmem, imem, moves, replies, gen, reads⟩ := s
  unfold State.writeCtrl State.clear State.start
  generalize v.getLsbD 1 = c
  generalize v.getLsbD 0 = b
  cases run <;> cases c <;> cases b <;> first | rfl | exact absurd rfl h

end Sys2Proof.Machine
end

