-- ==== Sys2Proof/Machine/Assembler.lean ====
section
/-! DEFINITION. The assembler's spelling of the instructions (spec/30_encoding.md R69) and the pseudo-instructions (R70): a
line of text, as a list of characters, to an instruction. No step of the machine uses it (log 14). What R69 leaves open of a
line's spelling is settled in logs 19, 21 and 22. -/

namespace Sys2Proof.Machine.Assembler

/-- A line or a part of one. -/
abbrev Text := List Char

/-- DESIGN CHOICE (log 21): blanks are spaces and tabs. -/
def isBlank (c : Char) : Bool := c == ' ' || c == '\t'

/-- Without blanks at either end. -/
def trim (t : Text) : Text := ((t.dropWhile isBlank).reverse.dropWhile isBlank).reverse

/-- Without the comment, which starts at `;` (R69). -/
def stripComment (t : Text) : Text := t.takeWhile (· != ';')

/-- The label of a line, `name:` before the instruction, if it has one (R69). DESIGN CHOICE (log 22): it is whatever stands
before the first colon, without the blanks around it. -/
def label (t : Text) : Option Text :=
  let u := stripComment t
  if u.contains ':' then some (trim (u.takeWhile (· != ':'))) else none

/-- The instruction part of a line. -/
def body (t : Text) : Text :=
  let u := stripComment t
  trim (if u.contains ':' then (u.dropWhile (· != ':')).drop 1 else u)

/-- The parts between commas. -/
def splitCommas : Text → List Text
  | [] => [[]]
  | c :: cs =>
    if c == ',' then [] :: splitCommas cs
    else match splitCommas cs with
      | [] => [[c]]
      | w :: ws => (c :: w) :: ws

/-- The operands: the comma-separated parts of what follows the mnemonic, none if nothing follows it. -/
def operands (t : Text) : List Text := if trim t = [] then [] else (splitCommas t).map trim

/-- The value of a digit, decimal or hexadecimal. DESIGN CHOICE (log 21): a hexadecimal digit may be of either case. -/
def digit (c : Char) : Option Nat :=
  let n := c.toNat
  if 48 ≤ n ∧ n ≤ 57 then some (n - 48)
  else if 65 ≤ n ∧ n ≤ 70 then some (n - 55)
  else if 97 ≤ n ∧ n ≤ 102 then some (n - 87)
  else none

def digits (base : Nat) : Nat → Text → Option Nat
  | acc, [] => some acc
  | acc, c :: cs =>
    match digit c with
    | some d => if d < base then digits base (acc * base + d) cs else none
    | none => none

/-- A number of at least one digit. DESIGN CHOICE (log 21): it may have leading zeros. -/
def number (base : Nat) (t : Text) : Option Nat := if t = [] then none else digits base 0 t

/-- A register: `F0` to `F15` or an alias (R13, R69). DESIGN CHOICE (log 21): the number may have leading zeros (`F01`,
`F007`), which R69 neither writes nor forbids. -/
def register (t : Text) : Option Reg :=
  match t with
  | ['T', '0'] => some Reg.t0
  | ['D', 'X'] => some Reg.dx
  | ['X', '0'] => some Reg.x0
  | ['Z', '0'] => some Reg.z0
  | ['X', '1'] => some Reg.x1
  | ['Z', '1'] => some Reg.z1
  | ['T', '1'] => some Reg.t1
  | ['T', '2'] => some Reg.t2
  | ['T', '3'] => some Reg.t3
  | ['T', '4'] => some Reg.t4
  | 'F' :: ds => (number 10 ds).bind fun n => if h : n < 16 then some ⟨n, h⟩ else none
  | _ => none

/-- A slot: `@` and a decimal number 0 to 15 (R69), with leading zeros or without (DESIGN CHOICE, log 21). -/
def slot (t : Text) : Option HWord :=
  match t with
  | '@' :: ds => (number 10 ds).bind fun n => if n < 16 then some (BitVec.ofNat 32 n) else none
  | _ => none

/-- An unsigned immediate: `#` and a decimal number, or `#0x` and hexadecimal digits (R69). -/
def unsignedImm (t : Text) : Option HWord :=
  (match t with
    | '#' :: '0' :: 'x' :: ds => number 16 ds
    | '#' :: ds => number 10 ds
    | _ => none).bind fun n => if n < 2 ^ 32 then some (BitVec.ofNat 32 n) else none

/-- The immediate of MULS: a decimal number may carry a sign (R69); 32-bit two's complement (R98).
DESIGN CHOICE (log 19): R69 does not say how a number outside the signed range is read. An unsigned decimal, or a
hexadecimal number, from 2^31 to 2^32 - 1 is taken as the bit pattern of a negative multiplier; a signed decimal
outside -2^31 to 2^31 - 1 is not understood. -/
def signedImm (t : Text) : Option HWord :=
  match t with
  | '#' :: '-' :: ds => (number 10 ds).bind fun n => if n ≤ 2 ^ 31 then some (BitVec.ofInt 32 (-n)) else none
  | '#' :: '+' :: ds => (number 10 ds).bind fun n => if n < 2 ^ 31 then some (BitVec.ofNat 32 n) else none
  | _ => unsignedImm t

/-- The operands of each syntax of R69 and of the pseudo-instructions of R70. -/
def instruction (mnemonic : Text) (ops : List Text) : Option Instr :=
  match mnemonic, ops with
  | ['H', 'A', 'L', 'T'], [] => some .halt
  | ['S', 'E', 'T'], [d, v] => do return .set (← register d) (← unsignedImm v)
  | ['C', 'P', 'Y'], [d, a] => do return .cpy (← register d) (← register a)
  | ['U', 'N', 'P', 'A', 'C', 'K'], [d, s] => do return .unpack (← register d) (← slot s)
  | ['P', 'A', 'C', 'K'], [s, a] => do return .pack (← register a) (← slot s)
  | ['L', 'D', 'K'], [s] => do return .ldk (← slot s)
  | ['W', 'I', 'P', 'E'], [] => some .wipe
  | ['A', 'D', 'D'], [d, a, b] => do return .add (← register d) (← register a) (← register b)
  | ['S', 'U', 'B'], [d, a, b] => do return .sub (← register d) (← register a) (← register b)
  | ['M', 'U', 'L'], [d, a, b] => do return .mul (← register d) (← register a) (← register b)
  | ['S', 'Q', 'R'], [d, a] => do return .sqr (← register d) (← register a)
  | ['M', 'U', 'L', 'S'], [d, a, m] => do return .muls (← register d) (← register a) (← signedImm m)
  | ['R', 'E', 'D', 'U', 'C', 'E'], [d, a] => do return .reduce (← register d) (← register a)
  | ['T', 'S', 'T', 'O', 'V', 'F'], [a] => do return .tstovf (← register a)
  | ['T', 'S', 'T', 'N', 'E', 'G'], [a] => do return .tstneg (← register a)
  | ['R', 'E', 'C', 'I', 'P'], [d, a] => do return .recip (← register d) (← register a)
  | ['R', 'E', 'C', 'I', 'P', 'S'], [d, a] => do return .recips (← register d) (← register a)
  | ['S', 'Q', 'R', 'T'], [d, a] => do return .sqrt (← register d) (← register a)
  | ['M', 'P', 'R', 'E', 'P'], [s, q, x, z] =>
      do return .mprep (← register s) (← register x) (← register z) (← register q)
  | ['M', 'A', 'D', 'D'], [x, z, d] => do return .madd (← register x) (← register z) (← register d)
  | ['M', 'D', 'B', 'L'], [x, z] => do return .mdbl (← register x) (← register z)
  | ['L', 'A', 'D', 'D', 'E', 'R'], [a] => do return .ladder (← register a)
  | ['L', 'A', 'D', 'D', 'E', 'R', 'G'], [] => some .ladderg
  | ['C', 'L', 'R'], [d] => do return .clr (← register d)
  | ['O', 'N', 'E'], [d] => do return .one (← register d)
  | ['N', 'O', 'R', 'M'], [d] => do return .norm (← register d)
  | ['M', 'O', 'V'], [d, a] => do return .mov (← register d) (← register a)
  | _, _ => none

/-- The instruction of a line: a mnemonic, then its operands (R69). -/
def line (t : Text) : Option Instr :=
  let b := body t
  instruction (b.takeWhile fun c => !isBlank c) (operands (b.dropWhile fun c => !isBlank c))

/-- The words of a program text, one for each line that holds an instruction; none if some line is not understood. DESIGN
CHOICE (log 22): lines without an instruction give no word, and the length is not checked against IMEM_WORDS. -/
def program : List Text → Option (List IWord)
  | [] => some []
  | t :: ts =>
    if body t = [] then program ts
    else do return encode (← line t) :: (← program ts)

/-- The word index a label names, from `n` on: the value to write to ENTRY (R69). DESIGN CHOICE (log 22): a label on a line
of its own names the next instruction's index; one after the last instruction names the index past the end; of two equal
labels the first counts. -/
def labelIndex (name : Text) : Nat → List Text → Option Nat
  | _, [] => none
  | n, t :: ts =>
    if label t = some name then some n
    else labelIndex name (if body t = [] then n else n + 1) ts

end Sys2Proof.Machine.Assembler
end

