-- ==== Sys2Proof/Tests/Slice0.lean ====
section
/-! SUPPORT. Tests: every expected value is from spec/95_test_vectors.md, spec/30_encoding.md R71 or a corner case of the rule
named; and, for every statement with hypotheses, a state and operands that meet them (`test_hyp_…`). -/

namespace Sys2Proof.Tests

open Sys2Proof.Machine

/-! ### Helpers -/

/-- 2^256 - 1, called M in spec/95_test_vectors.md. -/
def allOnes : Fe := BitVec.allOnes 256

/-- The value `n` in a register. -/
def val (n : Nat) : Fe := BitVec.ofNat 256 n

/-- A run in progress at word 0, everything else as after reset. -/
def busy : State := { State.reset with run := .busy }

/-- The same at another word. -/
def busyAt (pc : BitVec 8) : State := { busy with pc := pc }

/-- With a register set. -/
def setReg (r : Reg) (v : Fe) (s : State) : State := s.withRegs (s.regs.write r v)

/-- With a slot set. -/
def setSlot (slot : Nat) (v : Fe) (s : State) : State := s.memWrite (32 * slot) (bytes256 v)

/-- F1 and F2 set. -/
def two (a b : Fe) : State := setReg 2 b (setReg 1 a busy)

/-- The next state, if there is one. -/
def after : Result → Option State
  | .next t => some t
  | .fault _ => none
  | .refused _ => none

/-- The content of a register afterwards. -/
def regAfter (i : Instr) (s : State) (r : Reg) : Option Fe := (after (exec i s)).map (·.reg r)

/-- STATE, ERRCODE and PC afterwards. -/
def endOf (r : Result) : Option (RunState × BitVec 8 × BitVec 8) := (after r).map fun t => (t.run, t.errcode, t.pc)

/-- The end of a step that fetches the word `x`, with F1 = 2^255. -/
def wordEnd (x : Nat) : Option (RunState × BitVec 8 × BitVec 8) :=
  endOf (step ((setReg 1 (val (2 ^ 255)) State.reset).withFetchWord 64 x))

/-- The state with one move of the host's to come. -/
def withMove (m : HostMove) (s : State) : State := { s with hostMoves := [m] }

/-- The fields of STATUS afterwards: STATE, HERR, ERRCODE, and the line irq. -/
def hostEnd (s : State) : Option (RunState × Bool × BitVec 8 × Bool) :=
  (after (step s)).map fun t => (t.run, t.herr, t.errcode, t.irq)

/-- The host's last reply. -/
def replied (s : State) : Option (Option HWord) := (after (step s)).map (·.replies.getLast?)

/-! ### WellFormed: an ill-formed term for each check (R153) -/

theorem test_illformed_unpack : (Instr.unpack 1 16).wellFormed = false ∧ (Instr.unpack 1 15).wellFormed = true := by decide

theorem test_illformed_pack : (Instr.pack 1 16).wellFormed = false ∧ (Instr.pack 1 15).wellFormed = true := by decide

theorem test_illformed_ldk : (Instr.ldk 16).wellFormed = false ∧ (Instr.ldk 15).wellFormed = true := by decide

theorem test_illformed_muls_above : (Instr.muls 2 1 0x10000001).wellFormed = false ∧ (Instr.muls 2 1 0x10000000).wellFormed = true := by decide

theorem test_illformed_muls_below : (Instr.muls 2 1 0xEFFFFFFF).wellFormed = false ∧ (Instr.muls 2 1 0xF0000000).wellFormed = true := by decide

theorem test_illformed_recip : (Instr.recip 1 Reg.t0).wellFormed = false ∧ (Instr.recip Reg.t0 1).wellFormed = true := by decide

theorem test_illformed_recips : (Instr.recips 1 Reg.t2).wellFormed = false ∧ (Instr.recips Reg.t2 Reg.dx).wellFormed = true := by decide

theorem test_illformed_sqrt : (Instr.sqrt 1 Reg.dx).wellFormed = false ∧ (Instr.sqrt Reg.dx 1).wellFormed = true := by decide

theorem test_illformed_mprep : (Instr.mprep Reg.t1 Reg.x0 Reg.z0 Reg.t1).wellFormed = false ∧ (Instr.mprep Reg.x0 Reg.x0 Reg.z0 Reg.z0).wellFormed = true := by decide

theorem test_illformed_madd_same : (Instr.madd Reg.x0 Reg.x0 Reg.dx).wellFormed = false ∧ (Instr.madd Reg.x0 Reg.z0 Reg.dx).wellFormed = true := by decide

theorem test_illformed_madd_temp : (Instr.madd Reg.x0 Reg.z0 Reg.t3).wellFormed = false ∧ (Instr.madd 0 1 11).wellFormed = true := by decide

theorem test_illformed_mdbl_same : (Instr.mdbl Reg.x1 Reg.x1).wellFormed = false ∧ (Instr.mdbl Reg.x1 Reg.z1).wellFormed = true := by decide

theorem test_illformed_mdbl_temp : (Instr.mdbl Reg.t1 Reg.z1).wellFormed = false ∧ (Instr.mdbl Reg.t0 Reg.dx).wellFormed = true := by decide

/-! ### Decoding: a word of spec/95_test_vectors.md section 3 for every constructor -/

theorem test_decode_halt : decodeTableWord 64 0x0100000000000000 = some (.halt) := by decide

theorem test_decode_set : decodeTableWord 64 0x1010000000000009 = some (.set 1 9) := by decide

theorem test_decode_cpy : decodeTableWord 64 0x1121000000000000 = some (.cpy 2 1) := by decide

theorem test_decode_unpack : decodeTableWord 64 0x1210000000000003 = some (.unpack 1 3) := by decide

theorem test_decode_pack : decodeTableWord 64 0x1307000000000004 = some (.pack 7 4) := by decide

theorem test_decode_ldk : decodeTableWord 64 0x1400000000000002 = some (.ldk 2) := by decide

theorem test_decode_wipe : decodeTableWord 64 0x1500000000000000 = some (.wipe) := by decide

theorem test_decode_add : decodeTableWord 64 0x2031200000000000 = some (.add 3 1 2) := by decide

theorem test_decode_sub : decodeTableWord 64 0x2131200000000000 = some (.sub 3 1 2) := by decide

theorem test_decode_mul : decodeTableWord 64 0x2231200000000000 = some (.mul 3 1 2) := by decide

theorem test_decode_sqr : decodeTableWord 64 0x2331000000000000 = some (.sqr 3 1) := by decide

theorem test_decode_muls : decodeTableWord 64 0x242100000001DB41 = some (.muls 2 1 121665) := by decide

theorem test_decode_reduce : decodeTableWord 64 0x2577000000000000 = some (.reduce 7 7) := by decide

theorem test_decode_tstovf : decodeTableWord 64 0x2801000000000000 = some (.tstovf 1) := by decide

theorem test_decode_tstneg : decodeTableWord 64 0x2901000000000000 = some (.tstneg 1) := by decide

theorem test_decode_recip : decodeTableWord 64 0x3021000000000000 = some (.recip 2 1) := by decide

theorem test_decode_recips : decodeTableWord 64 0x3121000000000000 = some (.recips 2 1) := by decide

theorem test_decode_sqrt : decodeTableWord 64 0x3221000000000000 = some (.sqrt 2 1) := by decide

theorem test_decode_mprep : decodeTableWord 64 0x40C89D0000000000 = some (.mprep 12 8 9 13) := by decide

theorem test_decode_madd : decodeTableWord 64 0x4108970000000000 = some (.madd 8 9 7) := by decide

theorem test_decode_mdbl : decodeTableWord 64 0x420AB00000000000 = some (.mdbl 10 11) := by decide

theorem test_decode_ladder : decodeTableWord 64 0x4307000000000000 = some (.ladder 7) := by decide

theorem test_decode_ladderg : decodeTableWord 64 0x4400000000000000 = some (.ladderg) := by decide

/-- The bytes of the window of R71. -/
theorem test_encode_bytes :
    encodeBytes (.muls 2 1 121665) = [0x41, 0xDB, 0x01, 0x00, 0x00, 0x00, 0x21, 0x24] := by decide

/-- Unassigned opcodes (95 section 3). -/
theorem test_decode_illegal :
    [0x0000000000000000, 0xFF00000000000000, 0x0200000000000000, 0x1600000000000000, 0x2600000000000000,
      0x2A00000000000000, 0x3300000000000000, 0x4500000000000000].all
      (fun x => decodeWord x == .error .illegalOpcode) = true := by decide

/-- Non-zero z or unused fields (95 section 3). -/
theorem test_decode_reserved :
    [0x0100000000000001, 0x0110000000000000, 0x1500000100000000, 0x2031210000000000, 0x2031200000000001,
      0x1121100000000000, 0x1307010000000004, 0x1317000000000004, 0x2811000000000000, 0x4410000000000000,
      0x4310000000000000, 0x41C8970000000000, 0x420AB10000000000].all
      (fun x => decodeWord x == .error .reservedField) = true := by decide

/-- A byte list too short for an instruction. -/
theorem test_decode_truncated : decode [0, 0, 0, 0, 0, 0, 0] = .error .truncated := by decide

/-! ### Moves and DMEM (95 section 2.1) -/

theorem test_set_unsigned : regAfter (.set 1 0xFFFFFFFF) busy 1 = some (val 4294967295) := by decide

theorem test_cpy_keeps_bit_255 : regAfter (.cpy 2 1) (two (val (2 ^ 255 + 0x12)) 0) 2 = some (val (2 ^ 255 + 0x12)) := by
  decide

theorem test_unpack_byte_order :
    regAfter (.unpack 1 3) (busy.memWrite 96 [0xdc, 0xfe, 0, 0, 0, 0, 0, 0, 0, 0, 0, 0, 0, 0, 0, 0, 0, 0, 0, 0, 0, 0, 0, 0,
      0xef, 0xcd, 0xab, 0x89, 0x67, 0x45, 0x23, 0x01]) 1 =
    some 0x0123456789abcdef00000000000000000000000000000000000000000000fedc := by decide

theorem test_unpack_slot_15 : regAfter (.unpack 15 15) (setSlot 15 9 busy) 15 = some 9 := by decide

theorem test_pack_canonical :
    (after (exec (.pack 7 4) (setReg 7 (val (2 ^ 255 - 1)) busy))).map (·.slotValue 4) = some 0x12 := by decide

theorem test_pack_unreduced : endOf (exec (.pack 7 4) (setReg 7 allOnes busy)) = some (.fault, 5, 0) := by decide

theorem test_ldk_bit_255 : (after (exec (.ldk 2) (setSlot 2 (val (2 ^ 255 + 1)) busy))).map (·.k) = some (val (2 ^ 255 + 1)) := by
  decide

theorem test_ldk_slot_16 : endOf (exec (.ldk 0x10) busy) = some (.fault, 3, 0) := by decide

theorem test_wipe :
    (after (exec .wipe { two 5 6 with k := 7, ovf := true, neg := true, entry := 9, herr := true })).map
      (fun t => ((t.reg 1, t.reg 2, t.k), (t.ovf, t.neg, t.herr), t.entry)) = some ((0, 0, 0), (false, false, true), 9) := by decide

/-! ### Field arithmetic (95 sections 2.2 to 2.6) -/

theorem test_fold1 : fold1 (2 ^ 256 - 1) = 2 ^ 255 + 0x12 ∧ fold1 (2 ^ 255 + 0x12) = 0x25 := by decide

theorem test_fold1_limbs : limbsNat (fold1Limbs allOnes) = 2 ^ 255 + 0x12 := by decide

theorem test_karatsuba : karatsuba (2 ^ 256 - 1) (2 ^ 128 + 7) = (2 ^ 256 - 1) * (2 ^ 128 + 7) := by decide

theorem test_add_largest : regAfter (.add 3 1 2) (two allOnes allOnes) 3 = some (val (2 ^ 255 + 0x37)) := by decide

theorem test_add_doubles : regAfter (.add 1 1 1) (two 9 0) 1 = some 18 := by decide

theorem test_sub_zero : regAfter (.sub 3 1 2) (two 0 0) 3 = some (val (2 ^ 255 - 19)) := by decide

theorem test_sub_order : regAfter (.sub 3 1 2) (two 5 3) 3 = some (val (2 ^ 255 - 17)) := by decide

theorem test_mul_largest : regAfter (.mul 3 1 2) (two allOnes allOnes) 3 = some (val (2 ^ 255 + 0x546)) := by decide

theorem test_mul_one_reduces : regAfter (.mul 3 1 2) (two allOnes 1) 3 = some 0x25 := by decide

theorem test_sqr : regAfter (.sqr 3 1) (two (val (2 ^ 128)) 0) 3 = some 0x26 := by decide

theorem test_muls_negative : regAfter (.muls 2 1 0xFFFFFFFD) (two 5 0) 2 = some (val (2 ^ 255 - 19 - 0xf)) := by decide

theorem test_muls_bound :
    regAfter (.muls 2 1 0xF0000000) (two allOnes 0) 2 = some (val (2 ^ 255 - 19 - 0x250000000)) ∧
    regAfter (.muls 2 1 0x10000000) (two allOnes 0) 2 = some 0x250000000 := by decide

theorem test_reduce_two_folds : regAfter (.reduce 3 1) (two allOnes 0) 3 = some 0x25 := by decide

theorem test_reduce_not_canonical : regAfter (.reduce 3 1) (two (allOnes - 0x25) 0) 3 = some (val (2 ^ 255 - 19)) := by decide

theorem test_tstovf_boundary :
    (after (exec (.tstovf 1) (two (val (2 ^ 255 - 20)) 0))).map (·.ovf) = some false ∧
    (after (exec (.tstovf 1) (two (val (2 ^ 255 - 19)) 0))).map (·.ovf) = some true := by decide

theorem test_tstneg_boundary :
    (after (exec (.tstneg 1) (two (val (2 ^ 255 - 20)) 0))).map (·.neg) = some false ∧
    (after (exec (.tstneg 1) (two (val (2 ^ 255 - 18)) 0))).map (·.neg) = some true := by decide

theorem test_ovf_limbs : ovfLimbs (val (2 ^ 255 - 19)) = true ∧ ovfLimbs (val (2 ^ 255 - 20)) = false := by decide

/-! ### Exponentiation (95 section 2.7) -/

theorem test_recip_two :
    (after (exec (.recip 2 1) (two 2 0))).map (fun t => (t.reg 2, t.reg Reg.t0, t.reg Reg.t4)) =
      some (0x3ffffffffffffffffffffffffffffffffffffffffffffffffffffffffffffff7, 0x800,
        0x2d4158904e3d7661151f31298f06ee7d438014f79fc514f005504174e3d365f4) := by decide +kernel

theorem test_recip_zero : regAfter (.recip 1 1) (two (val (2 ^ 255 - 19)) 0) 1 = some (val (2 ^ 255 - 19)) := by
  decide +kernel

theorem test_recips_nine :
    regAfter (.recips 2 1) (two 9 0) 2 =
      some 0x5555555555555555555555555555555555555555555555555555555555555549 := by decide +kernel

theorem test_sqrt_four : regAfter (.sqrt 2 1) (two 4 0) 2 = some (val (2 ^ 255 - 17)) := by decide +kernel

theorem test_sqrt_five :
    regAfter (.sqrt 2 1) (two 5 0) 2 =
      some 0x299b44e135d18e0f14ae499c7d52943f550b5a088f5dffb8facb4c935d7a676a := by decide +kernel

/-! ### Montgomery point operations and the ladder (95 sections 2.8, 2.9) -/

/-- (9 : 1) in X0, Z0. -/
def atG : State := setReg Reg.x0 9 (setReg Reg.z0 1 busy)

theorem test_mprep :
    (after (exec (.mprep 12 8 9 13) atG)).map (fun t => (t.reg 12, t.reg 13)) = some (0xa, val (2 ^ 255 - 11)) := by decide

theorem test_mprep_in_place :
    (after (exec (.mprep 8 8 9 9) atG)).map (fun t => (t.reg 8, t.reg 9)) = some (0xa, val (2 ^ 255 - 11)) := by decide

/-- T1 to T4 as two MPREPs of G and 2G leave them, and F3 = 9. -/
def prepared : State :=
  setReg 3 9 (setReg Reg.t1 0xa (setReg Reg.t2 (val (2 ^ 255 - 11)) (setReg Reg.t3 0x9662020
    (setReg Reg.t4 (val (2 ^ 255 - 19 - 0x965ee20)) busy))))

theorem test_madd :
    (after (exec (.madd 1 2 3) prepared)).map (fun t => (t.reg 1, t.reg 2, t.reg Reg.t1, t.reg Reg.t2)) =
      some (0x016112956bb61000, 0x03ee27bed76d439000, 0x6fcb86fb7deb1000, 0xa92c4e40) := by decide

theorem test_mdbl :
    (after (exec (.mdbl 1 2) (setReg Reg.t3 0xa (setReg Reg.t4 (val (2 ^ 255 - 11)) busy)))).map
      (fun t => (t.reg 1, t.reg 2, t.reg Reg.t1, t.reg Reg.t2)) =
      some (0x1900, 0x9660720, 0x42d588, val (2 ^ 255 + 0x11)) := by decide

/-- One ladder step for key bit 1: slot 0 receives G + 2G, slot 1 is doubled (R132, with the vectors of MADD). -/
theorem test_ladder_step_one :
    let f := runOps (stepOps true) (setReg Reg.dx 9 (setReg Reg.x1 0x1900 (setReg Reg.z1 0x9660720 atG))).regs
    (f.read Reg.x0, f.read Reg.z0) = (0x016112956bb61000, 0x03ee27bed76d439000) := by decide

/-- One ladder step for key bit 0: slot 1 receives 2G + G, slot 0 is doubled to the values of MDBL's vector. -/
theorem test_ladder_step_zero :
    let f := runOps (stepOps false) (setReg Reg.dx 9 (setReg Reg.x1 0x1900 (setReg Reg.z1 0x9660720 atG))).regs
    (f.read Reg.x0, f.read Reg.z0) = (0x1900, 0x9660720) := by decide

/-- The first five operations of LADDERG and of LADDER (R131, R135). -/
theorem test_ladder_start :
    (laddergOps 0).take 5 = [.set 7 9, .set 8 1, .set 9 0, .cpy 10 7, .set 11 1] ∧
    (ladderOps 0 5).take 5 = [.cpy 7 5, .set 8 1, .set 9 0, .cpy 10 7, .set 11 1] := by decide

/-! ### Control, faults and their priority (95 sections 2.11 and 3) -/

theorem test_halt : wordEnd 0x0100000000000000 = some (.done, 0, 0) := by decide

theorem test_halt_last_word : endOf (exec .halt (busyAt 255)) = some (.done, 0, 255) := by decide

theorem test_pc_overrun : endOf (exec (.set 1 1) (busyAt 255)) = some (.fault, 4, 255) := by decide

theorem test_zero_word : wordEnd 0 = some (.fault, 1, 0) := by decide

theorem test_reserved_before_operand : wordEnd 0x1301000100000010 = some (.fault, 2, 0) := by decide

theorem test_operand_before_data : wordEnd 0x1301000000000010 = some (.fault, 3, 0) := by decide

theorem test_overrun_before_data :
    endOf (exec (.pack 1 0) { two (val (2 ^ 255)) 0 with pc := 255 }) = some (.fault, 4, 255) := by decide

theorem test_operand_before_overrun : endOf (exec (.pack 1 16) (busyAt 255)) = some (.fault, 3, 255) := by decide

theorem test_not_reduced : wordEnd 0x2801000000000000 = some (.fault, 5, 0) := by decide

theorem test_executes : wordEnd 0x2511000000000000 = some (.busy, 0, 1) := by decide

/-! ### The host window (95 section 2.12) -/

/-- DONE with IE set, as after its step 12. -/
def doneIe : State := { State.reset with run := .done, ie := true }

theorem test_start : endOf (step (withMove (.write 0 4 0x101) { State.reset with entry := 8 })) = some (.busy, 0, 8) := by decide

theorem test_start_while_done : hostEnd (withMove (.write 0 4 1) doneIe) = some (.done, true, 0, false) := by decide

theorem test_clear : hostEnd (withMove (.write 0 4 0x102) { doneIe with herr := true }) = some (.idle, false, 0, false) := by
  decide

theorem test_clear_fault :
    hostEnd (withMove (.write 0 4 2) { doneIe with run := .fault, errcode := 3, pc := 13 }) =
      some (.idle, false, 0, false) := by decide

theorem test_clear_and_start : hostEnd (withMove (.write 0 4 0x103) doneIe) = some (.busy, false, 0, false) := by decide

theorem test_status_write_refused :
    hostEnd (withMove (.write 8 4 0xFFFFFFFF) doneIe) = some (.done, true, 0, true) := by decide

theorem test_status_read :
    replied (withMove (.read 8 4) { doneIe with run := .fault, errcode := 3, pc := 13, herr := true }) =
      some (some 0x000D0307) := by decide

theorem test_ctrl_read : replied (withMove (.read 0 4) doneIe) = some (some 0x100) := by decide

theorem test_entry_write :
    (after (step (withMove (.write 4 4 0xFFFFFF07) State.reset))).map (·.entry) = some 7 := by decide

theorem test_unmapped_read :
    replied (withMove (.read 0x00C 4) doneIe) = some (some 0) ∧
    hostEnd (withMove (.read 0x00C 4) doneIe) = some (.done, true, 0, true) := by decide

theorem test_misaligned_read : hostEnd (withMove (.read 0x402 4) doneIe) = some (.done, true, 0, true) := by decide

theorem test_narrow_read : hostEnd (withMove (.read 0x400 1) doneIe) = some (.done, true, 0, true) := by decide

theorem test_busy_write_refused :
    hostEnd (withMove (.write 0x400 4 1) busy) = some (.busy, true, 0, false) := by decide

theorem test_dmem_write :
    (after (step (withMove (.write 0x43C 4 0x7FFFFFFF) State.reset))).map (·.memRead 60 4) =
      some [0xFF, 0xFF, 0xFF, 0x7F] := by decide

theorem test_imem_write :
    (after (step (withMove (.write 0x804 4 0x01000000) State.reset))).map (·.imemRead 4 4) = some [0, 0, 0, 1] := by decide

theorem test_reset_while_busy :
    (after (step (withMove .reset { two 5 6 with k := 7, ie := true, entry := 3 }))).map
      (fun t => (t.run, t.reg 1, t.k, t.ie, t.entry)) = some (.idle, 0, 0, false, 0) := by decide

/-- Writing the byte an unlisted address reads as removes the entry: equal memories are equal data. -/
theorem test_dmem_canonical : (State.memWrite (State.memWrite busy 40 [7]) 40 [0]).dmem = [] := by decide

/-! ### The assembler (R69, R70) -/

theorem test_assemble_muls :
    (Assembler.line "MULS F2, F1, #-1 ; negate".toList).map encode = some 0x24210000FFFFFFFF := by decide

theorem test_assemble_mprep :
    (Assembler.line "run: MPREP T1, T2, X0, Z0".toList).map encode = some 0x40C89D0000000000 := by decide

theorem test_assemble_pack : (Assembler.line "PACK @4, DX".toList).map encode = some 0x1307000000000004 := by decide

theorem test_assemble_norm : Assembler.line "NORM F7".toList = some (.reduce 7 7) := by decide

theorem test_assemble_program :
    Assembler.program ["  ; nothing".toList, "SET F1, #0x9".toList, "HALT".toList] =
      some [0x1010000000000009, 0x0100000000000000] := by decide

/-! ### States and operands that meet the hypotheses of the statements -/

/-- The invariant of a state made of reset values. -/
theorem test_hyp_inv : busy.Inv ∧ (busyAt 254).Inv ∧ doneIe.Inv := ⟨⟨rfl, rfl, rfl⟩, ⟨rfl, rfl, rfl⟩, ⟨rfl, rfl, rfl⟩⟩

theorem test_hyp_EncodeOfDecodeIsTheWord : decodeWord 0x0100000000000000 = .ok .halt := by decide

theorem test_hyp_WordIsInstanceOfRowIffMaskMatches :
    ⟨"HALT", 0x0100000000000000, 0xFFFFFFFFFFFFFFFF⟩ ∈ opcodeTable ∧
    ⟨"LADDERG", 0x4400000000000000, 0xFFFFFFFFFFFFFFFF⟩ ∈ opcodeTable := by decide

/-- Clause by clause: the opcode 0xFF of no row; HALT's opcode with rd = 1; HALT. -/
theorem test_hyp_WordsOutsideTheTableEndTheRun :
    (State.reset.withFetchWord 64 0xFF00000000000000).run = .busy ∧
    (State.reset.withFetchWord 64 0xFF00000000000000).hostMoves = [] ∧
    (∀ r ∈ opcodeTable, (State.reset.withFetchWord 64 0xFF00000000000000).fetchWord.extractLsb' 56 8 ≠
      r.pattern.extractLsb' 56 8) ∧
    (∃ r ∈ opcodeTable, (State.reset.withFetchWord 64 0x0110000000000000).fetchWord.extractLsb' 56 8 =
      r.pattern.extractLsb' 56 8 ∧ (State.reset.withFetchWord 64 0x0110000000000000).fetchWord &&& r.mask ≠ r.pattern) ∧
    (∃ r ∈ opcodeTable, (State.reset.withFetchWord 64 0x0100000000000000).fetchWord.extractLsb' 56 8 =
      r.pattern.extractLsb' 56 8 ∧ (State.reset.withFetchWord 64 0x0100000000000000).fetchWord &&& r.mask = r.pattern) := by
  decide

theorem test_hyp_StepRunsTheDecodedInstruction :
    (State.reset.withFetchWord 64 0x1010000000000009).run = .busy ∧
    decode (State.reset.withFetchWord 64 0x1010000000000009).fetchBytes = .ok (.set 1 9, []) ∧
    (State.reset.withFetchWord 64 0x1010000000000009).hostMoves = [] ∧
    (withMove .wait (State.reset.withFetchWord 64 0x1010000000000009)).hostMoves = [.wait] := by decide

theorem test_hyp_EveryRunEndsWithin256Instructions :
    busy.run = .busy ∧ (busyAt 255).run = .busy ∧ (withMove (.read 8 4) busy).run = .busy ∧
    (withMove .reset busy).run = .busy := by decide

/-- Both ways it can be the unit's turn. -/
theorem test_hyp_UnitTurn : UnitTurn busy busy ∧ UnitTurn (withMove .wait busy) busy ∧ UnitTurn (withMove .wait doneIe) doneIe :=
  ⟨.inl ⟨rfl, rfl⟩, .inr ⟨[], rfl, rfl⟩, .inr ⟨[], rfl, rfl⟩⟩

/-- In every state that the tests below make with `withFetchWord` a run is in progress and it is the unit's turn: this goes
with the hypotheses they show of WordsOutsideTheTableEndTheRun, FaultHasNoEffect and FirstFailingCheckWins. -/
theorem test_hyp_withFetchWord (s : State) (w : Nat) :
    (s.withFetchWord 64 w).run = .busy ∧ UnitTurn (s.withFetchWord 64 w) (s.withFetchWord 64 w) := ⟨rfl, .inl ⟨rfl, rfl⟩⟩

theorem test_hyp_NothingExecutesOutsideARun :
    doneIe.run ≠ .busy ∧ State.reset.run ≠ .busy ∧ step State.reset = .next State.reset ∧
    State.reset.hostMoves.head? ≠ some .reset ∧
    step (withMove (.read 0 4) doneIe) = .next (doneIe.reply doneIe.ctrlWord) ∧
    (withMove (.read 0 4) doneIe).hostMoves.head? ≠ some .reset := ⟨by decide, by decide, rfl, by decide, rfl, by decide⟩

/-- A reset in a run, HALT, a fault, CLEAR, CLEAR with START, START. -/
theorem test_hyp_StateHasOnlyItsTransitions :
    [withMove .reset busy, State.reset.withFetchWord 64 0x0100000000000000, State.reset.withFetchWord 64 0,
      withMove (.write 0 4 2) doneIe, withMove (.write 0 4 3) doneIe, withMove (.write 0 4 1) State.reset].map
        (fun s => (s.run, (after (step s)).map (·.run))) =
      [(.busy, some .idle), (.busy, some .done), (.busy, some .fault), (.done, some .idle), (.done, some .busy),
        (.idle, some .busy)] := by decide

theorem test_hyp_StepKeepsTheInvariant : busy.Inv ∧ step (withMove (.read 0 4) busy) = .next ((busy.refuse).reply 0) ∧
    (withMove (.read 0 4) busy).Inv := ⟨⟨rfl, rfl, rfl⟩, rfl, ⟨rfl, rfl, rfl⟩⟩

theorem test_hyp_ResetInAnyStateErasesTheUnit :
    (withMove .reset busy).hostMoves = [.reset] ∧ (withMove .reset busy).run = .busy := by decide

/-- The last word but one: PC ≠ 255, for every statement of one instruction's result. -/
theorem test_hyp_pc :
    busy.pc ≠ 255 ∧ (busyAt 254).pc ≠ 255 := by decide

theorem test_hyp_SetWritesTheUnsignedImmediate : (busyAt 254).pc ≠ 255 := by decide

theorem test_hyp_CpyCopiesAllBits : (busyAt 254).pc ≠ 255 := by decide

theorem test_hyp_UnpackLoadsTheSlotRaw :
    (15 : HWord).toNat < 16 ∧ (busyAt 254).pc ≠ 255 ∧ 16 ≤ (16 : HWord).toNat ∧ 16 ≤ (0xFFFFFFFF : HWord).toNat := by decide

theorem test_hyp_PackStoresTheCanonicalBytes :
    (15 : HWord).toNat < 16 ∧ (two (val (2 ^ 255 - 1)) 0).pc ≠ 255 ∧ ((two (val (2 ^ 255 - 1)) 0).reg 1).toNat < 2 ^ 255 ∧
    16 ≤ (16 : HWord).toNat ∧ 2 ^ 255 ≤ ((two (val (2 ^ 255)) 0).reg 1).toNat ∧ (two (val (2 ^ 255)) 0).pc ≠ 255 := by decide

theorem test_hyp_PackStoresTheCanonicalBytes_inv : (two (val (2 ^ 255 - 1)) 0).Inv ∧ (two (val (2 ^ 255)) 0).Inv :=
  ⟨⟨rfl, rfl, rfl⟩, ⟨rfl, rfl, rfl⟩⟩

theorem test_hyp_LdkLoadsTheScalar : (15 : HWord).toNat < 16 ∧ (busyAt 254).pc ≠ 255 ∧ 16 ≤ (16 : HWord).toNat := by decide

theorem test_hyp_WipeClearsTheRegisterState : (busyAt 254).pc ≠ 255 := by decide

theorem test_hyp_KaratsubaIsTheExactProduct : 2 ^ 256 - 1 < 2 ^ 256 ∧ 0 < 2 ^ 256 := by decide

theorem test_hyp_AddResult : (two allOnes allOnes).pc ≠ 255 := by decide

theorem test_hyp_SubResult : (two 0 allOnes).pc ≠ 255 := by decide

theorem test_hyp_MulResult : (two allOnes allOnes).pc ≠ 255 := by decide

theorem test_hyp_SqrResult : (two allOnes 0).pc ≠ 255 := by decide

/-- Both bounds of the multiplier, and the values beyond them. -/
theorem test_hyp_MulsResult :
    (-2 ^ 28 ≤ (0xF0000000 : HWord).toInt ∧ (0xF0000000 : HWord).toInt ≤ 2 ^ 28 ∧ (0xF0000000 : HWord).toInt < 0) ∧
    (-2 ^ 28 ≤ (0x10000000 : HWord).toInt ∧ (0x10000000 : HWord).toInt ≤ 2 ^ 28 ∧ 0 ≤ (0x10000000 : HWord).toInt) ∧
    (busyAt 254).pc ≠ 255 ∧ (0xEFFFFFFF : HWord).toInt < -2 ^ 28 ∧ 2 ^ 28 < (0x10000001 : HWord).toInt := by decide

theorem test_hyp_ReduceResult :
    (two (val (2 ^ 255 - 1)) 0).pc ≠ 255 ∧ ((two (val (2 ^ 255 - 1)) 0).reg 1).toNat < 2 ^ 255 := by decide

/-- MULS by -1 beside a register that holds -1 mod P; and an instruction of R92 in two states. -/
theorem test_hyp_ArithmeticLaws :
    (two 5 (val (2 ^ 255 - 20))).pc ≠ 255 ∧ -2 ^ 28 ≤ (0xFFFFFFFF : HWord).toInt ∧ (0xFFFFFFFF : HWord).toInt ≤ 2 ^ 28 ∧
    (((two 5 (val (2 ^ 255 - 20))).reg 2).toNat : Int) = (0xFFFFFFFF : HWord).toInt % Config.P ∧
    arithmeticOperands (.muls 3 1 7) = some (3, [1]) ∧ (Instr.muls 3 1 7).wellFormed = true ∧
    (∀ r ∈ [(1 : Reg)], (two 5 6).reg r = (two 5 7).reg r) := by decide

theorem test_hyp_TstovfResult :
    (busyAt 254).pc ≠ 255 ∧ ((two (val (2 ^ 255 - 1)) 0).reg 1).toNat < 2 ^ 255 ∧
    2 ^ 255 ≤ ((two (val (2 ^ 255)) 0).reg 1).toNat := by decide

theorem test_hyp_TstnegResult :
    (busyAt 254).pc ≠ 255 ∧ ((two (val (2 ^ 255 - 19)) 0).reg 1).toNat < 2 ^ 255 ∧
    2 ^ 255 ≤ ((two allOnes 0).reg 1).toNat := by decide

theorem test_hyp_OverflowTestInLimbsAgrees : (val (2 ^ 255 - 19)).toNat < 2 ^ 255 ∧ (val (2 ^ 255 - 20)).toNat < 2 ^ 255 := by
  decide

theorem test_hyp_RecipIsThePowerPMinusTwo :
    (5 : Reg) ∉ chainTemps ∧ (7 : Reg) ∉ chainTemps ∧ (11 : Reg) ∉ chainTemps ∧ (busyAt 254).pc ≠ 255 ∧
    (6 : Reg) ∈ chainTemps ∧ (12 : Reg) ∈ chainTemps ∧ (15 : Reg) ∈ chainTemps := by decide

theorem test_hyp_RecipsIsThePowerForSquareRoots :
    (5 : Reg) ∉ chainTemps ∧ (7 : Reg) ∉ chainTemps ∧ (busyAt 254).pc ≠ 255 ∧ (6 : Reg) ∈ chainTemps := by decide

theorem test_hyp_SqrtResult :
    (5 : Reg) ∉ [Reg.dx, Reg.x0, Reg.z0] ++ chainTemps ∧ (10 : Reg) ∉ [Reg.dx, Reg.x0, Reg.z0] ++ chainTemps ∧
    (busyAt 254).pc ≠ 255 ∧ (9 : Reg) ∈ [Reg.dx, Reg.x0, Reg.z0] ++ chainTemps := by decide

theorem test_hyp_MprepWritesSumAndDifference : (8 : Reg) ≠ 9 ∧ atG.pc ≠ 255 ∧ (12 : Reg) = 12 := by decide

theorem test_hyp_MaddResult :
    ((0 : Reg) ≠ 1 ∧ (0 : Reg) ≠ 11 ∧ (1 : Reg) ≠ 11 ∧ (0 : Reg).val < 12 ∧ (1 : Reg).val < 12 ∧ (11 : Reg).val < 12) ∧
    prepared.pc ≠ 255 ∧ 12 ≤ (12 : Reg).val := by decide

theorem test_hyp_MdblResult :
    ((10 : Reg) ≠ 11 ∧ (10 : Reg).val < 12 ∧ (11 : Reg).val < 12) ∧ prepared.pc ≠ 255 ∧ 12 ≤ (12 : Reg).val := by decide

theorem test_hyp_LadderRefinesTheFieldLadder : (busyAt 254).pc ≠ 255 := by decide

theorem test_hyp_LaddergRefinesTheFieldLadder : (busyAt 254).pc ≠ 255 := by decide

theorem test_hyp_DegenerateLadderInputsGiveZero :
    busy.pc ≠ 255 ∧ busy.k = 0 ∧ residue (busy.reg 0) = 0 ∧ residue ((two (val Config.P) 0).reg 1) = 0 := by
  refine ⟨by decide, by decide, ?_, ?_⟩
  · simp [residue, busy, State.reset, State.reg, Regs.read]
  · show residue (BitVec.ofNat 256 Config.P) = 0
    have h : (BitVec.ofNat 256 Config.P).toNat = Config.P := by decide
    rw [residue, h]
    exact ZMod.natCast_self Config.P

theorem test_hyp_LastWordOverruns : (busyAt 255).pc = 255 ∧ Instr.set 1 1 ≠ .halt := by decide

theorem test_hyp_FaultHasNoEffect :
    (State.reset.withFetchWord 64 0).run = .busy ∧ (State.reset.withFetchWord 64 0).hostMoves = [] ∧
    (after (step (State.reset.withFetchWord 64 0))).map (·.run) = some .fault := by decide

/-- Clause by clause: slot 16; SET at PC = 255; TSTOVF of 2^255; TSTOVF of 2^255 - 1, and HALT at PC = 255. -/
theorem test_hyp_FirstFailingCheckWins :
    decodeWord ((busyAt 0).withFetchWord 64 0x1301000000000010).fetchWord = .ok (.pack 1 16) ∧
    (Instr.pack 1 16).wellFormed = false ∧
    decodeWord ((busyAt 255).withFetchWord 64 0x1010000000000001).fetchWord = .ok (.set 1 1) ∧
    (Instr.set 1 1).wellFormed = true ∧ ((busyAt 255).withFetchWord 64 0x1010000000000001).pc = 255 ∧
    decodeWord ((two (val (2 ^ 255)) 0).withFetchWord 64 0x2801000000000000).fetchWord = .ok (.tstovf 1) ∧
    2 ^ 255 ≤ (((two (val (2 ^ 255)) 0).withFetchWord 64 0x2801000000000000).reg 1).toNat ∧
    (((two (val (2 ^ 255 - 1)) 0).withFetchWord 64 0x2801000000000000).reg 1).toNat < 2 ^ 255 ∧
    decodeWord ((busyAt 255).withFetchWord 64 0x0100000000000000).fetchWord = .ok .halt := by decide

theorem test_hyp_PcMovesByOneOrTheRunEnds :
    exec .wipe (busyAt 254) = .next (busyAt 254).wipe.advance ∧ exec .halt (busyAt 255) = .next (busyAt 255).finish ∧
    exec .wipe (busyAt 255) = .next ((busyAt 255).takeFault .pcOverrun) := ⟨rfl, rfl, rfl⟩

theorem test_hyp_FlagsHaveTheirOnlyWriters :
    exec (.tstneg 1) (two 1 0) = .next ((two 1 0).withNeg (negOf ((two 1 0).reg 1))).advance ∧
    negOf ((two 1 0).reg 1) ≠ (two 1 0).neg ∧
    exec (.tstovf 1) (two (val (2 ^ 255 - 19)) 0) =
      .next ((two (val (2 ^ 255 - 19)) 0).withOvf (ovfOf ((two (val (2 ^ 255 - 19)) 0).reg 1))).advance ∧
    ovfOf ((two (val (2 ^ 255 - 19)) 0).reg 1) ≠ (two (val (2 ^ 255 - 19)) 0).ovf := ⟨rfl, by decide, rfl, by decide⟩

theorem test_hyp_InstructionsReachOnlyTheirOwn :
    exec .wipe busy = .next busy.wipe.advance ∧ (∀ ra imm, Instr.wipe ≠ .pack ra imm) ∧
    exec (.ldk 0) (setSlot 0 1 busy) = .next ((setSlot 0 1 busy).withK ((setSlot 0 1 busy).slotValue 0)).advance ∧
    (setSlot 0 1 busy).slotValue 0 ≠ (setSlot 0 1 busy).k := ⟨rfl, by simp, rfl, by decide⟩

theorem test_hyp_ScalarIsReadOnlyByTheLadder :
    Instr.wipe ≠ .ladderg ∧ (∀ ra, Instr.wipe ≠ .ladder ra) ∧ exec .wipe busy = .next busy.wipe.advance :=
  ⟨by decide, by simp, rfl⟩

theorem test_hyp_TraceIsConstantStructure :
    opsOf busy.k (.add 3 1 2) ≠ [] ∧ (Instr.add 3 1 2).wellFormed = true ∧ busy.pc ≠ 255 := by decide

/-- All four ways START and CLEAR can stand. -/
theorem test_hyp_CtrlWriteActsInOrder :
    (withMove (.write 0 4 0) doneIe).hostMoves = [.write 0 4 0] ∧ (withMove (.write 0 4 1) doneIe).run ≠ .busy ∧
    (withMove (.write 0 4 2) doneIe).run ≠ .busy ∧ (withMove (.write 0 4 3) State.reset).run ≠ .busy := by decide

theorem test_hyp_BusyUnitRefusesTheHost :
    busy.run = .busy ∧ (withMove (.read 8 1) busy).hostMoves = [.read 8 1] ∧ ((8 : BitVec 12) ≠ 0x008 ∨ 1 ≠ 4) ∧
    ((0x400 : BitVec 12) ≠ 0x008 ∨ 4 ≠ 4) := by decide

/-- The ends of both unmapped ranges. -/
theorem test_hyp_SenselessAccessesAreRefused :
    unmappedOffset 0x00C ∧ unmappedOffset 0x3FC ∧ unmappedOffset 0x600 ∧ unmappedOffset 0x7FC ∧ ¬unmappedOffset 0x008 ∧
    ¬unmappedOffset 0x400 ∧ ¬unmappedOffset 0x5FC ∧ ¬unmappedOffset 0x800 := by
  unfold unmappedOffset; decide

theorem test_hyp_StatusReadShowsTheFields :
    (withMove (.read 8 4) busy).hostMoves = [.read 0x008 4] ∧ doneIe.run ≠ .busy := by decide

theorem test_hyp_CtrlAndEntryAccess :
    doneIe.run ≠ .busy ∧ (withMove (.read 0 4) doneIe).hostMoves = [.read 0x000 4] ∧
    (withMove (.write 4 4 0xFFFFFF07) doneIe).hostMoves = [.write 0x004 4 0xFFFFFF07] := by decide

/-- The invariant says nothing of the moves to come. -/
theorem test_hyp_inv_moves (l : List HostMove) : State.Inv { doneIe with hostMoves := l } := ⟨rfl, rfl, rfl⟩

/-- The first and the last word of the DMEM window; a write that is the last move, a read, a write and then a read. -/
theorem test_hyp_HostWritesAndReadsDmem :
    (withMove (.write 0x5FC 4 1) doneIe).hostMoves = [.write 0x5FC 4 1] ∧
    (withMove (.read 0x5FC 4) doneIe).hostMoves = [.read 0x5FC 4] ∧
    ({ doneIe with hostMoves := [.write 0x5FC 4 1, .read 0x5FC 4] } : State).hostMoves = [.write 0x5FC 4 1, .read 0x5FC 4] ∧
    doneIe.run ≠ .busy ∧ 0x400 ≤ (0x400 : BitVec 12).toNat ∧ (0x5FC : BitVec 12).toNat < 0x600 ∧
    (0x5FC : BitVec 12).toNat % 4 = 0 ∧ 0x400 ≤ (0x5FC : BitVec 12).toNat ∧ (0x400 : BitVec 12).toNat % 4 = 0 := by decide

/-- The first and the last word of the IMEM window. -/
theorem test_hyp_HostWritesAndReadsImem :
    doneIe.run ≠ .busy ∧ 0x800 ≤ (0x800 : BitVec 12).toNat ∧ (0x800 : BitVec 12).toNat % 4 = 0 ∧
    0x800 ≤ (0xFFC : BitVec 12).toNat ∧ (0xFFC : BitVec 12).toNat % 4 = 0 ∧
    (withMove (.write 0xFFC 4 1) doneIe).hostMoves = [.write 0xFFC 4 1] ∧
    (withMove (.read 0xFFC 4) doneIe).hostMoves = [.read 0xFFC 4] := by decide

/-- The last word of IMEM. -/
theorem test_hyp_HostWritesAnInstructionWord :
    doneIe.run ≠ .busy ∧ 255 < 256 ∧ BitVec.ofNat 12 (0x804 + 8 * 255) = 0xFFC ∧ BitVec.ofNat 12 (0x800 + 8 * 0) = 0x800 := by
  decide

theorem test_hyp_IrqLineFollowsTheRunState :
    doneIe.run ≠ .busy ∧ (2 : HWord).getLsbD 1 = true ∧
    (after (step (withMove (.write 0 4 0x102) doneIe))).map (·.irq) = some false := by decide

end Sys2Proof.Tests
end

/-! What the parts of a step answer and keep, said once: the outcomes of `exec`, the invariant through every operation, the
host's accesses by the table of spec/20_memory.md R48. -/

namespace Sys2Proof.Machine

/-! ### The outcomes of an instruction -/

/-- What an instruction leaves, whatever check decided it: HALT's end, the state with a fault taken, or its effect with PC
moved on (R154). -/
theorem exec_outcomes {i : Instr} {s t : State} (h : exec i s = .next t) :
    (i = .halt ∧ t = s.finish) ∨ (∃ c, t = s.takeFault c) ∨
    (i ≠ .halt ∧ i.wellFormed = true ∧ s.pc ≠ 255 ∧ t = (effect i s).advance) := by
  rcases exec_cases h with halt | ⟨_, _, ht⟩ | ⟨_, _, _, ht⟩ | ⟨_, _, _, _, ht⟩ | ⟨hi, hw, hp, _, ht⟩
  · exact .inl halt
  · exact .inr (.inl ⟨_, ht⟩)
  · exact .inr (.inl ⟨_, ht⟩)
  · exact .inr (.inl ⟨_, ht⟩)
  · exact .inr (.inr ⟨hi, hw, hp, ht⟩)

theorem exec_next (i : Instr) (s : State) : ∃ t, exec i s = .next t := by
  by_cases hi : i = .halt
  · subst hi
    exact ⟨_, exec_halt s⟩
  · rw [exec_eq_complete hi]
    exact complete_next _ _ _ s

section checks

variable {i : Instr} {s : State} (hi : i ≠ .halt)

include hi

theorem exec_illegalOperand (hw : i.wellFormed = false) : exec i s = .next (s.takeFault .illegalOperand) := by
  rw [exec_eq_complete hi, complete_illegalOperand _ _ hw]

theorem exec_pcOverrun (hw : i.wellFormed = true) (hp : s.pc = 255) : exec i s = .next (s.takeFault .pcOverrun) := by
  rw [exec_eq_complete hi, complete_pcOverrun _ _ hw hp]

theorem exec_notReduced (hw : i.wellFormed = true) (hp : s.pc ≠ 255) (hd : dataOk s i = false) :
    exec i s = .next (s.takeFault .notReduced) := by
  rw [exec_eq_complete hi, complete_notReduced _ _ hw hp hd]

theorem exec_runs (hw : i.wellFormed = true) (hp : s.pc ≠ 255) (hd : dataOk s i = true) :
    exec i s = .next (effect i s).advance := by
  rw [exec_eq_complete hi, complete_runs _ _ hw hp hd]

end checks

theorem unitStep_next (s : State) : ∃ t, unitStep s = .next t := by
  rcases unitStep_cases s with ⟨_, h⟩ | ⟨_, _, _, h⟩ | ⟨i, _, _, h⟩
  · exact ⟨_, h⟩
  · exact ⟨_, h⟩
  · rw [h]
    exact exec_next i s

theorem Cause.code_ne_zero (c : Cause) : c.code ≠ 0 := by
  cases c <;> decide

/-! ### A byte of a memory depends on that memory only -/

theorem State.imemByte_congr {s t : State} (hm : t.imem = s.imem) (hg : t.imemGen = s.imemGen) (a : Nat) :
    t.imemByte a = s.imemByte a := by
  rw [State.imemByte, State.imemByte, hm, hg]

theorem State.dmemByte_congr {s t : State} (hm : t.dmem = s.dmem) (a : Nat) : t.dmemByte a = s.dmemByte a := by
  rw [State.dmemByte, State.dmemByte, hm]

/-! ### One step, by the move that comes first -/

section moves

variable {s : State} {rest : List HostMove} {o : BitVec 12} {w : Nat} {v : HWord}

theorem step_read {t : State} (h : s.hostMoves = .read o w :: rest) (ht : hostRead o w { s with hostMoves := rest } = t) :
    step s = .next t := (turn_cons h).trans (congrArg _ ht)

theorem step_write {t : State} (h : s.hostMoves = .write o w v :: rest)
    (ht : hostWrite o w v { s with hostMoves := rest } = t) : step s = .next t := (turn_cons h).trans (congrArg _ ht)

theorem step_reset (h : s.hostMoves = .reset :: rest) :
    step s = .next (State.resetEvent { s with hostMoves := rest }) := turn_cons h

end moves

/-! ### The table of the host window (R48) -/

section target

variable {o : BitVec 12}

theorem target_unmapped (h : unmappedOffset o) : target o = .unmapped := by
  unfold unmappedOffset at h
  simp only [target]
  split_ifs <;> first | rfl | omega

theorem eq_of_target_status (h : target o = .status) : o = 0x008 := by
  simp only [target] at h
  split_ifs at h with _ _ h8
  exact BitVec.eq_of_toNat_eq h8

/-- A word of the DMEM window lies inside DMEM. -/
theorem target_dmem_lt {a : Nat} (h : target o = .dmem a) (h4 : o.toNat % 4 = 0) : a + 4 ≤ dmemSize := by
  have hs : dmemSize = 512 := rfl
  simp only [target] at h
  split_ifs at h
  injection h
  omega

/-- A word of the IMEM window lies inside IMEM. -/
theorem target_imem_lt {a : Nat} (h : target o = .imem a) (h4 : o.toNat % 4 = 0) : a + 4 ≤ imemSize := by
  have hs : imemSize = 2048 := rfl
  have ho := o.isLt
  simp only [target] at h
  split_ifs at h
  injection h
  omega

end target

theorem aligned_iff {o : BitVec 12} {w : Nat} : aligned o w = true ↔ w = 4 ∧ o.toNat % 4 = 0 := by
  simp [aligned]

/-! ### A read of the host's, by what it names -/

section hostRead

variable {o : BitVec 12} {w : Nat} {s : State}

theorem hostRead_unaligned (h : aligned o w = false) : hostRead o w s = s.refuseRead := by
  simp [hostRead, h]

theorem hostRead_unmapped (h : target o = .unmapped) : hostRead o w s = s.refuseRead := by
  simp [hostRead, h]

theorem hostRead_busy (hs : s.run = .busy) (h : o ≠ 0x008 ∨ w ≠ 4) : hostRead o w s = s.refuseRead := by
  cases ha : aligned o w with
  | false => exact hostRead_unaligned ha
  | true =>
    have ho : o ≠ 0x008 := h.resolve_right (not_not_intro (aligned_iff.mp ha).1)
    cases ht : target o with
    | status => exact absurd (eq_of_target_status ht) ho
    | _ => simp [hostRead, ha, hs, ht]

theorem hostRead_ctrl (ha : aligned o w = true) (hs : s.run ≠ .busy) (h : target o = .ctrl) :
    hostRead o w s = s.reply s.ctrlWord := by
  simp [hostRead, ha, hs, h]

theorem hostRead_entry (ha : aligned o w = true) (hs : s.run ≠ .busy) (h : target o = .entry) :
    hostRead o w s = s.reply s.entryWord := by
  simp [hostRead, ha, hs, h]

theorem hostRead_status (ha : aligned o w = true) (h : target o = .status) : hostRead o w s = s.readStatus := by
  simp [hostRead, ha, h]

end hostRead

/-! ### A write of the host's, by what it names -/

section hostWrite

variable {o : BitVec 12} {w : Nat} {v : HWord} {s : State}

theorem hostWrite_unaligned (h : aligned o w = false) : hostWrite o w v s = s.refuse := by
  simp [hostWrite, h]

theorem hostWrite_unmapped (h : target o = .unmapped) : hostWrite o w v s = s.refuse := by
  simp [hostWrite, h]

theorem hostWrite_status (h : target o = .status) : hostWrite o w v s = s.refuse := by
  simp [hostWrite, h]

variable (ha : aligned o w = true) (hs : s.run ≠ .busy)

include ha hs

theorem hostWrite_ctrl (h : target o = .ctrl) : hostWrite o w v s = s.writeCtrl v := by
  simp [hostWrite, ha, hs, h]

theorem hostWrite_entry (h : target o = .entry) : hostWrite o w v s = { s with entry := v.truncate 8 } := by
  simp [hostWrite, ha, hs, h]

theorem hostWrite_dmem {a : Nat} (h : target o = .dmem a) :
    hostWrite o w v s = s.memWrite a (leBytes 4 v.toNat) := by
  simp [hostWrite, ha, hs, h]

theorem hostWrite_imem {a : Nat} (h : target o = .imem a) :
    hostWrite o w v s = s.imemWrite a (leBytes 4 v.toNat) := by
  simp [hostWrite, ha, hs, h]

end hostWrite

/-! ### The invariant through every operation -/

/-- The invariant is a matter of the two memories, STATE and ERRCODE. -/
theorem State.Inv.congr {s t : State} (h : s.Inv) (hd : t.dmem = s.dmem) (hi : t.imem = s.imem) (hr : t.run = s.run)
    (he : t.errcode = s.errcode) : t.Inv where
  dmem := hd ▸ h.dmem
  imem := hi ▸ h.imem
  errcode := by rw [hr, he]; exact h.errcode

section inv

variable {s : State}

theorem State.Inv.errcode_eq_zero (h : s.Inv) (hr : s.run ≠ .fault) : s.errcode = 0 := by
  have he := h.errcode
  cases hs : s.run with
  | fault => exact absurd hs hr
  | _ => simpa [errcodeOk, hs] using he

theorem State.Inv.hostMoves (h : s.Inv) (rest : List HostMove) : State.Inv { s with hostMoves := rest } :=
  h.congr rfl rfl rfl rfl

theorem State.Inv.takeFault (h : s.Inv) (c : Cause) : (s.takeFault c).Inv where
  dmem := h.dmem
  imem := h.imem
  errcode := by cases c <;> rfl

theorem State.Inv.finish (h : s.Inv) (hr : s.run = .busy) : s.finish.Inv where
  dmem := h.dmem
  imem := h.imem
  errcode := by simp [errcodeOk, h.errcode_eq_zero (by simp [hr])]

theorem State.Inv.memWrite (h : s.Inv) {a : Nat} {b : List Byte} (ha : a + b.length ≤ dmemSize) :
    (s.memWrite a b).Inv where
  dmem := memWrite_wf h.dmem ha
  imem := h.imem
  errcode := h.errcode

theorem State.Inv.imemWrite (h : s.Inv) {a : Nat} {b : List Byte} (ha : a + b.length ≤ imemSize) :
    (s.imemWrite a b).Inv where
  dmem := h.dmem
  imem := imemWrite_wf h.imem ha
  errcode := h.errcode

/-- A slot that the operand check accepts lies inside DMEM (R43). -/
theorem slotAddr_lt {imm : HWord} (h : imm.toNat < 16) : slotAddr imm + 32 ≤ dmemSize := by
  have hs : dmemSize = 512 := rfl
  have ha : slotAddr imm = 32 * imm.toNat := rfl
  omega

/-- Only PACK stores, and it stores inside a slot. -/
theorem State.Inv.effect (h : s.Inv) {i : Instr} (hw : i.wellFormed = true) : (Machine.effect i s).Inv where
  dmem := by
    by_cases hp : ∃ ra imm, i = .pack ra imm
    · obtain ⟨ra, imm, rfl⟩ := hp
      have hi : imm.toNat < 16 := by simpa [Instr.wellFormed] using hw
      exact memWrite_wf h.dmem (by rw [bytes256, leBytes_length]; exact slotAddr_lt hi)
    · rw [effect_dmem s (by simpa using hp)]
      exact h.dmem
  imem := by rw [effect_imem]; exact h.imem
  errcode := by rw [effect_run, effect_errcode]; exact h.errcode

theorem State.Inv.exec (h : s.Inv) (hr : s.run = .busy) {i : Instr} {t : State} (ht : Machine.exec i s = .next t) :
    t.Inv := by
  rcases exec_outcomes ht with ⟨_, rfl⟩ | ⟨c, rfl⟩ | ⟨_, hw, _, rfl⟩
  · exact h.finish hr
  · exact h.takeFault c
  · exact (h.effect hw).congr rfl rfl rfl rfl

theorem State.Inv.unitStep (h : s.Inv) {t : State} (ht : Machine.unitStep s = .next t) : t.Inv := by
  rcases unitStep_cases s with ⟨_, he⟩ | ⟨r, _, _, he⟩ | ⟨i, hr, _, he⟩ <;> rw [he] at ht
  · cases ht
    exact h
  · cases ht
    exact h.takeFault _
  · exact h.exec hr ht

theorem State.Inv.hostRead (h : s.Inv) (o : BitVec 12) (w : Nat) : (Machine.hostRead o w s).Inv := by
  obtain ⟨_, _, _, he⟩ := hostRead_reaches o w s
  rw [he]
  exact h.congr rfl rfl rfl rfl

theorem State.Inv.refuse (h : s.Inv) : s.refuse.Inv := h.congr rfl rfl rfl rfl

theorem State.Inv.clear (h : s.Inv) : s.clear.Inv := by
  rcases s.clear_cases with ⟨_, he⟩ | ⟨_, he⟩ | ⟨_, he⟩ <;> rw [he]
  · exact ⟨h.dmem, h.imem, rfl⟩
  · exact h.congr rfl rfl rfl rfl
  · exact h

theorem State.Inv.start (h : s.Inv) : s.start.Inv := by
  rcases s.start_cases with ⟨_, he⟩ | ⟨_, he⟩ <;> rw [he]
  · exact ⟨h.dmem, h.imem, rfl⟩
  · exact h.congr rfl rfl rfl rfl

theorem State.Inv.writeCtrl (h : s.Inv) (v : HWord) : (s.writeCtrl v).Inv := by
  have h1 : State.Inv { s with ie := v.getLsbD 8 } := h.congr rfl rfl rfl rfl
  unfold State.writeCtrl
  split_ifs
  · exact h1.clear.start
  · exact h1.clear
  · exact h1.start
  · exact h1

theorem State.Inv.hostWrite (h : s.Inv) (o : BitVec 12) (w : Nat) (v : HWord) : (Machine.hostWrite o w v s).Inv := by
  by_cases hs : s.run = .busy
  · rw [hostWrite_busy hs]
    exact h.refuse
  cases ha : aligned o w with
  | false =>
    rw [hostWrite_unaligned ha]
    exact h.refuse
  | true =>
    have h4 := (aligned_iff.mp ha).2
    cases ht : target o with
    | ctrl => rw [hostWrite_ctrl ha hs ht]; exact h.writeCtrl v
    | entry => rw [hostWrite_entry ha hs ht]; exact h.congr rfl rfl rfl rfl
    | status => rw [hostWrite_status ht]; exact h.refuse
    | dmem a => rw [hostWrite_dmem ha hs ht]; exact h.memWrite (by rw [leBytes_length]; exact target_dmem_lt ht h4)
    | imem a => rw [hostWrite_imem ha hs ht]; exact h.imemWrite (by rw [leBytes_length]; exact target_imem_lt ht h4)
    | unmapped => rw [hostWrite_unmapped ht]; exact h.refuse

theorem State.resetEvent_inv (s : State) : s.resetEvent.Inv := ⟨rfl, rfl, rfl⟩

end inv

/-- Settles O9: the unit's move, a read, a write and the reset each keep the invariant. -/
theorem stepKeepsTheInvariant : Obligations.StepKeepsTheInvariant := by
  intro s t hs ht
  rcases step_cases s with ⟨u, hu, he⟩ | ⟨o, w, rest, _, he⟩ | ⟨o, w, v, rest, _, he⟩ | ⟨rest, _, he⟩ <;> rw [he] at ht
  · have hui : u.Inv := by rw [hu.eq]; exact hs.hostMoves _
    exact hui.unitStep ht
  · cases ht
    exact (hs.hostMoves rest).hostRead o w
  · cases ht
    exact (hs.hostMoves rest).hostWrite o w v
  · cases ht
    exact State.resetEvent_inv _

/-- Settles O8: the unit's move answers a next state by `unitStep_next`, and every move of the host's by its definition. -/
theorem everyStepAnswersANextState : Obligations.EveryStepAnswersANextState := by
  intro s
  rcases step_cases s with ⟨u, _, h⟩ | ⟨_, _, _, _, h⟩ | ⟨_, _, _, _, _, h⟩ | ⟨_, _, h⟩
  · rw [h]
    exact unitStep_next u
  · exact ⟨_, h⟩
  · exact ⟨_, h⟩
  · exact ⟨_, h⟩

end Sys2Proof.Machine

/-! What the state is, how it changes and what the host sees of it: the statements of spec/10_state.md. -/

namespace Sys2Proof.Machine

/-! ### Reset -/

/-- Settles O10: both memories are empty and ERRCODE is 0 in IDLE. -/
theorem resetMeetsTheInvariant : Obligations.ResetMeetsTheInvariant :=
  ⟨State.reset_dmem_wf, State.reset_imem_wf, rfl⟩

@[simp] theorem State.reset_reg (r : Reg) : State.reset.reg r = 0 := Regs.read_replicate r 0

@[simp] theorem State.resetEvent_reg (s : State) (r : Reg) : s.resetEvent.reg r = 0 := Regs.read_replicate r 0

/-- Settles O11: the table of R32, field by field. -/
theorem resetValues : Obligations.ResetValues :=
  ⟨State.reset_reg, rfl, rfl, rfl, rfl, rfl, rfl, rfl, rfl, rfl, rfl, fun _ => rfl, fun _ => rfl⟩

/-- Settles O12: STATE plays no part in the reset event. -/
theorem resetInAnyStateErasesTheUnit : Obligations.ResetInAnyStateErasesTheUnit := by
  intro s rest h
  exact ⟨_, step_reset h, State.resetEvent_reg _, rfl, rfl, rfl, rfl, rfl, rfl, rfl, rfl, rfl, rfl, fun _ => rfl,
    fun _ => rfl, rfl, rfl, rfl, rfl⟩

/-! ### What an instruction reaches -/

theorem toNat_pc_add_one {pc : BitVec 8} (h : pc ≠ 255) : (pc + 1).toNat = pc.toNat + 1 := by
  bv_omega

/-- Settles O43: HALT and a fault keep PC, and every other outcome moves it on from a PC below 255. -/
theorem pcMovesByOneOrTheRunEnds : Obligations.PcMovesByOneOrTheRunEnds := by
  intro i s t h
  rcases exec_outcomes h with ⟨hi, rfl⟩ | ⟨c, rfl⟩ | ⟨hi, _, hp, rfl⟩
  · exact .inr ⟨rfl, .inl ⟨hi, rfl⟩⟩
  · exact .inr ⟨rfl, .inr rfl⟩
  · refine .inl ⟨?_, by simp, hi⟩
    simpa using toNat_pc_add_one hp

/-- Settles O44: the end of a run and a fault keep the flags, and of the effects only the named ones write them. -/
theorem flagsHaveTheirOnlyWriters : Obligations.FlagsHaveTheirOnlyWriters := by
  intro i s t h
  rcases exec_outcomes h with ⟨_, rfl⟩ | ⟨c, rfl⟩ | ⟨_, _, _, rfl⟩
  · exact ⟨fun ho => absurd rfl ho, fun hn => absurd rfl hn⟩
  · exact ⟨fun ho => absurd rfl ho, fun hn => absurd rfl hn⟩
  · constructor <;> contrapose!
    · rintro ⟨hwipe, htst⟩
      exact effect_ovf s hwipe htst
    · rintro ⟨hwipe, htst⟩
      exact effect_neg s hwipe htst

/-- Settles O45: the end of a run and a fault reach nothing named here, and an effect only what it is said to. -/
theorem instructionsReachOnlyTheirOwn : Obligations.InstructionsReachOnlyTheirOwn := by
  intro i s t h
  rcases exec_outcomes h with ⟨_, rfl⟩ | ⟨c, rfl⟩ | ⟨_, _, _, rfl⟩
  · exact ⟨fun _ => rfl, rfl, rfl, rfl, rfl, rfl, rfl, rfl, rfl, fun _ _ => rfl, fun hk => absurd rfl hk⟩
  · exact ⟨fun _ => rfl, rfl, rfl, rfl, rfl, rfl, rfl, rfl, rfl, fun _ _ => rfl, fun hk => absurd rfl hk⟩
  · refine ⟨State.imemByte_congr (by simp) (by simp), by simp, by simp, by simp, by simp, by simp, by simp, by simp,
      by simp, fun hp => State.dmemByte_congr (effect_dmem s hp), ?_⟩
    contrapose!
    rintro ⟨hwipe, hldk⟩
    exact effect_k s hwipe hldk

/-! ### Who reads K -/

section withK

variable (s : State) (v : Fe)

theorem dataOk_withK (i : Instr) : dataOk (s.withK v) i = dataOk s i := by
  cases i <;> rfl

theorem State.slotValue_withK (n : Nat) : (s.withK v).slotValue n = s.slotValue n := rfl

theorem State.withK_withK (w : Fe) : (s.withK v).withK w = s.withK w := rfl

theorem State.withRegs_withK (f : Regs) : (s.withK v).withRegs f = (s.withRegs f).withK v := rfl

theorem State.memWrite_withK (a : Nat) (b : List Byte) : (s.withK v).memWrite a b = (s.memWrite a b).withK v := rfl

theorem State.withOvf_withK (b : Bool) : (s.withK v).withOvf b = (s.withOvf b).withK v := rfl

theorem State.withNeg_withK (b : Bool) : (s.withK v).withNeg b = (s.withNeg b).withK v := rfl

/-- The effect of an instruction outside the ladder is the same but for K whatever K holds (R16). -/
theorem effect_withK {i : Instr} (h1 : i ≠ .ladderg) (h2 : ∀ ra, i ≠ .ladder ra) :
    ∃ k', effect i (s.withK v) = (effect i s).withK k' := by
  cases i with
  | ladderg => exact absurd rfl h1
  | ladder ra => exact absurd rfl (h2 ra)
  | ldk imm => exact ⟨s.slotValue (slotNumber imm), by simp only [effect, State.slotValue_withK, State.withK_withK]⟩
  | wipe => exact ⟨0, rfl⟩
  | halt => exact ⟨v, rfl⟩
  | _ =>
    exact ⟨v, by simp only [effect, opsOf, State.withK_regs, State.reg_withK, State.slotValue_withK,
      State.withRegs_withK, State.memWrite_withK, State.withOvf_withK, State.withNeg_withK]⟩

end withK

/-- Settles O46: the checks do not see K, and the effect by `effect_withK` does not either. -/
theorem scalarIsReadOnlyByTheLadder : Obligations.ScalarIsReadOnlyByTheLadder := by
  intro i s t v h1 h2 h
  change ∃ k', exec i (s.withK v) = .next (t.withK k')
  have hdata := dataOk_withK s v i
  rcases exec_cases h with ⟨rfl, rfl⟩ | ⟨hi, hw, rfl⟩ | ⟨hi, hw, hp, rfl⟩ | ⟨hi, hw, hp, hd, rfl⟩ | ⟨hi, hw, hp, hd, rfl⟩
  · exact ⟨v, rfl⟩
  · exact ⟨v, exec_illegalOperand hi hw⟩
  · exact ⟨v, exec_pcOverrun hi hw hp⟩
  · exact ⟨v, exec_notReduced hi hw hp (hdata.trans hd)⟩
  · obtain ⟨k', hk⟩ := effect_withK s v h1 h2
    exact ⟨k', Eq.trans (exec_runs hi hw hp (hdata.trans hd)) (by rw [hk]; rfl)⟩

/-! ### CTRL, ENTRY and the line irq -/

/-- An accepted write of CTRL in one update: the truth table of STATE, CLEAR and START (R20). -/
theorem State.writeCtrl_eq {s : State} (h : s.run ≠ .busy) {v : HWord} {start clear accepted : Bool}
    (hb : start = v.getLsbD 0) (hc : clear = v.getLsbD 1) (ha : accepted = (start && (clear || s.run == .idle))) :
    s.writeCtrl v = { s with
      ie := v.getLsbD 8
      run := if accepted then .busy else if clear then .idle else s.run
      pc := if accepted then s.entry else s.pc
      errcode := if accepted || (clear && s.run != .idle) then 0 else s.errcode
      herr := if start && !accepted then true else if clear then false else s.herr } := by
  subst ha
  rw [State.writeCtrl, ← hb, ← hc]
  cases hr : s.run with
  | busy => exact absurd hr h
  | idle | done | fault => cases start <;> cases clear <;> simp [State.clear, State.start]

/-- Settles O49: the update of `State.writeCtrl_eq`. -/
theorem ctrlWriteActsInOrder : Obligations.CtrlWriteActsInOrder := by
  intro s v rest hm hs
  have hw := State.writeCtrl_eq (s := { s with hostMoves := rest }) hs (v := v) rfl rfl rfl
  exact ⟨_, _, _, rfl, rfl, rfl, step_write hm (Eq.trans (hostWrite_ctrl rfl hs rfl) hw)⟩

theorem State.ctrlWord_eq (s : State) : s.ctrlWord = if s.ie then 0x100 else 0 := by
  cases h : s.ie <;> simp [State.ctrlWord, bit, h]

theorem State.entryWord_eq (s : State) : s.entryWord = BitVec.ofNat 32 s.entry.toNat := by
  apply BitVec.eq_of_toNat_eq
  simp [State.entryWord]

/-- Settles O53: each access by its row of the host window's table. -/
theorem ctrlAndEntryAccess : Obligations.CtrlAndEntryAccess := by
  intro s v rest hs
  refine ⟨fun hm => ?_, fun hm => ?_, fun hm => ?_⟩
  · rw [← State.ctrlWord_eq]
    exact step_read hm (hostRead_ctrl rfl hs rfl)
  · rw [← State.entryWord_eq]
    exact step_read hm (hostRead_entry rfl hs rfl)
  · have hv : v.truncate 8 = BitVec.ofNat 8 (v.toNat % 256) := BitVec.eq_of_toNat_eq (by simp)
    rw [← hv]
    exact step_write hm (hostWrite_entry rfl hs rfl)

theorem State.irq_iff (s : State) : s.irq = true ↔ s.ie = true ∧ (s.run = .done ∨ s.run = .fault) := by
  simp [State.irq]

/-- Settles O56: after a CLEAR the unit is IDLE or, with START beside it, BUSY. -/
theorem irqLineFollowsTheRunState : Obligations.IrqLineFollowsTheRunState := by
  refine ⟨State.irq_iff, fun s t v rest hs hm hc ht => ?_⟩
  have hr := State.writeCtrl_run (s := { s with hostMoves := rest }) hs v
  rw [step_write hm (hostWrite_ctrl rfl hs rfl)] at ht
  cases ht
  rw [hc] at hr
  rw [← Bool.not_eq_true, State.irq_iff, hr]
  cases v.getLsbD 0 <;> simp

/-! ### Refused accesses -/

/-- Settles O50: a write while BUSY, and a read other than that of STATUS, is refused. -/
theorem busyUnitRefusesTheHost : Obligations.BusyUnitRefusesTheHost := by
  intro s o w v rest hs
  exact ⟨fun hm => step_write hm (hostWrite_busy (s := { s with hostMoves := rest }) hs o w v),
    fun hm ho => step_read hm (hostRead_busy hs ho)⟩

/-- Settles O51: an access is no aligned word, or its target is unmapped or STATUS. -/
theorem senselessAccessesAreRefused : Obligations.SenselessAccessesAreRefused := by
  intro s o w v rest
  have unaligned (h : w ≠ 4 ∨ o.toNat % 4 ≠ 0) : aligned o w = false := by
    rw [← Bool.not_eq_true, aligned_iff]
    tauto
  constructor
  · rintro hm (h | h | h | rfl)
    · exact step_write hm (hostWrite_unaligned (unaligned (.inl h)))
    · exact step_write hm (hostWrite_unaligned (unaligned (.inr h)))
    · exact step_write hm (hostWrite_unmapped (target_unmapped h))
    · exact step_write hm (hostWrite_status rfl)
  · rintro hm (h | h | h)
    · exact step_read hm (hostRead_unaligned (unaligned (.inl h)))
    · exact step_read hm (hostRead_unaligned (unaligned (.inr h)))
    · exact step_read hm (hostRead_unmapped (target_unmapped h))

/-! ### STATUS -/

/-- The positions of R22. -/
theorem statusFields_layout (pc errcode : BitVec 8) (neg ovf herr : Bool) (run : RunState) {w : HWord}
    (h : w = statusFields pc errcode neg ovf herr run) :
    (w.extractLsb' 0 2 = run.code ∧ w.getLsbD 2 = herr ∧ w.getLsbD 3 = false ∧ w.extractLsb' 6 2 = 0 ∧
      w.extractLsb' 8 8 = errcode ∧ w.extractLsb' 24 8 = 0) ∧
    w.getLsbD 4 = ovf ∧ w.getLsbD 5 = neg ∧ w.extractLsb' 16 8 = pc := by
  subst h
  unfold statusFields
  simp (disch := decide) only [BitVec.extractLsb'_append_eq_of_le, BitVec.extractLsb'_append_eq_of_add_le,
    BitVec.extractLsb'_eq_self, BitVec.getLsbD_append, if_pos, if_neg, Nat.reduceSub]
  simp [bit]

section readStatus

variable {s : State}

theorem State.readStatus_busy (hs : s.run = .busy) :
    s.readStatus = { s with
      replies := s.replies ++ [statusFields (Config.busyPc s.busyReads) s.errcode (Config.busyNeg s.busyReads)
        (Config.busyOvf s.busyReads) s.herr s.run]
      busyReads := s.busyReads + 1 } := by
  simp [State.readStatus, State.statusWord, hs]

theorem State.readStatus_of_ne_busy (hs : s.run ≠ .busy) :
    s.readStatus = s.reply (statusFields s.pc s.errcode s.neg s.ovf s.herr s.run) := by
  cases hr : s.run with
  | busy => exact absurd hr hs
  | _ => simp [State.readStatus, State.statusWord, hr]

end readStatus

/-- Settles O52: while BUSY the word has free values for PC, OVF and NEG, and else the unit's own. -/
theorem statusReadShowsTheFields : Obligations.StatusReadShowsTheFields := by
  intro s rest hm
  by_cases hs : s.run = .busy
  · obtain ⟨hw, _⟩ := statusFields_layout (Config.busyPc s.busyReads) s.errcode (Config.busyNeg s.busyReads)
      (Config.busyOvf s.busyReads) s.herr s.run rfl
    obtain ⟨hstate, hherr, hbit3, hbits6, hcode, hbits24⟩ := hw
    exact ⟨_, s.busyReads + 1, step_read hm (Eq.trans (hostRead_status rfl rfl) (State.readStatus_busy hs)),
      hstate, hherr, hbit3, hbits6, hcode, hbits24, fun h => absurd hs h⟩
  · obtain ⟨hw, hovf, hneg, hpc⟩ := statusFields_layout s.pc s.errcode s.neg s.ovf s.herr s.run rfl
    obtain ⟨hstate, hherr, hbit3, hbits6, hcode, hbits24⟩ := hw
    exact ⟨_, s.busyReads, step_read hm (Eq.trans (hostRead_status rfl rfl) (State.readStatus_of_ne_busy hs)),
      hstate, hherr, hbit3, hbits6, hcode, hbits24, fun _ => ⟨hovf, hneg, hpc, rfl⟩⟩

/-! ### The transitions of STATE -/

/-- Of the host's writes only that of CTRL outside a run reaches STATE. -/
theorem hostWrite_run_ne {o : BitVec 12} {w : Nat} {v : HWord} {u : State} (h : (hostWrite o w v u).run ≠ u.run) :
    u.run ≠ .busy ∧ o = 0 ∧ w = 4 ∧ hostWrite o w v u = u.writeCtrl v := by
  have hu : u.run ≠ .busy := fun hb => h (by rw [hostWrite_busy hb, State.refuse_run])
  rcases hostWrite_cases hu o w v with hx | ctrl | hx | ⟨a, hx⟩ | ⟨a, hx⟩
  · exact absurd (by rw [hx, State.refuse_run]) h
  · exact ⟨hu, ctrl⟩
  · exact absurd (by rw [hx]) h
  · exact absurd (by rw [hx, State.memWrite_run]) h
  · exact absurd (by rw [hx, State.imemWrite_run]) h

/-- How a write of CTRL moves STATE: CLEAR ends a run that is over, and START begins one (R19, R142). -/
theorem State.writeCtrl_run_ne {u : State} {v : HWord} (hu : u.run ≠ .busy) (h : (u.writeCtrl v).run ≠ u.run) :
    ((u.run = .done ∨ u.run = .fault) ∧ v.getLsbD 1 = true ∧
      (u.writeCtrl v).run = if v.getLsbD 0 then .busy else .idle) ∨
    (u.run = .idle ∧ v.getLsbD 0 = true ∧ (u.writeCtrl v).run = .busy) := by
  rw [State.writeCtrl_run hu] at h ⊢
  generalize v.getLsbD 1 = clear at h ⊢
  generalize v.getLsbD 0 = start at h ⊢
  cases hr : u.run with
  | busy => exact absurd hr hu
  | idle | done | fault => cases clear <;> cases start <;> simp_all

/-- Settles O59: by the move that comes first. -/
theorem stateHasOnlyItsTransitions : Obligations.StateHasOnlyItsTransitions := by
  intro s t ht hne
  rcases step_cases s with ⟨u, hu, he⟩ | ⟨o, w, rest, _, he⟩ | ⟨o, w, v, rest, hm, he⟩ | ⟨rest, hm, he⟩ <;> rw [he] at ht
  · rcases unitStep_cases u with ⟨_, hx⟩ | ⟨r, hr, _, hx⟩ | ⟨i, hr, hd, hx⟩ <;> rw [hx] at ht
    · cases ht
      exact absurd hu.run hne
    · cases ht
      exact .inr (.inl ⟨u, hu.run ▸ hr, hu, .inr ⟨rfl, Cause.code_ne_zero _⟩⟩)
    · refine .inr (.inl ⟨u, hu.run ▸ hr, hu, ?_⟩)
      rcases exec_outcomes ht with ⟨rfl, rfl⟩ | ⟨c, rfl⟩ | ⟨_, _, _, rfl⟩
      · exact .inl ⟨hu.fetchWord ▸ hd, rfl⟩
      · exact .inr ⟨rfl, Cause.code_ne_zero c⟩
      · exact absurd (by simp [hu.run]) hne
  · cases ht
    obtain ⟨_, _, _, hx⟩ := hostRead_reaches o w { s with hostMoves := rest }
    exact absurd (by rw [hx]) hne
  · cases ht
    obtain ⟨hs, rfl, rfl, hx⟩ := hostWrite_run_ne hne
    rw [hx] at hne ⊢
    exact .inr (.inr ⟨v, rest, hm, State.writeCtrl_run_ne hs hne⟩)
  · cases ht
    exact .inl ⟨rest, hm, rfl⟩

end Sys2Proof.Machine

/-! The host's view of both memories: an instruction and its bytes, what a memory reads as after the host's writes, and the
statements of spec/20_memory.md. -/

namespace Sys2Proof

/-! ### The bytes of a word (R40, R41) -/

/-- Byte `j` of a little-endian word is its bits from `8 * j` on. -/
theorem leBytes_getElem_eq_extractLsb' {w : Nat} (v : BitVec w) (n j : Nat) (hj : j < (leBytes n v.toNat).length) :
    (leBytes n v.toNat)[j] = v.extractLsb' (8 * j) 8 := by
  rw [leBytes_getElem, BitVec.extractLsb', Nat.shiftRight_eq_div_pow, Nat.pow_mul]

/-- The word of a byte list has the list's entries for its bytes. -/
theorem extractLsb'_ofNat_leNat {bs : List Byte} {n : Nat} (hn : bs.length = n) (j : Nat) (hj : j < bs.length) :
    (BitVec.ofNat (8 * n) (leNat bs)).extractLsb' (8 * j) 8 = bs[j] := by
  have hlt : leNat bs < 2 ^ (8 * n) := by rw [← hn, Nat.pow_mul]; exact leNat_lt bs
  apply BitVec.eq_of_toNat_eq
  rw [BitVec.extractLsb'_toNat, BitVec.toNat_ofNat, Nat.mod_eq_of_lt hlt, Nat.shiftRight_eq_div_pow, Nat.pow_mul]
  exact leNat_byte bs j hj

/-- A word is the integer of its bytes. -/
theorem ofNat_leNat_leBytes (n : Nat) (v : BitVec (8 * n)) : BitVec.ofNat (8 * n) (leNat (leBytes n v.toNat)) = v := by
  have hlt : v.toNat < 256 ^ n := by simpa [Nat.pow_mul] using v.isLt
  rw [leNat_leBytes, Nat.mod_eq_of_lt hlt, BitVec.ofNat_toNat, BitVec.setWidth_eq]

/-- The bytes of an integer in two parts: those of its low digits, then those of the rest. -/
theorem leBytes_add (m n lo hi : Nat) (hlo : lo < 256 ^ m) :
    leBytes (m + n) (lo + 256 ^ m * hi) = leBytes m lo ++ leBytes n hi := by
  induction m generalizing lo with
  | zero =>
    obtain rfl : lo = 0 := by omega
    simp [leBytes]
  | succ m ih =>
    have hv : lo + 256 ^ (m + 1) * hi = lo + 256 * (256 ^ m * hi) := by ring
    have hdiv : (lo + 256 * (256 ^ m * hi)) / 256 = lo / 256 + 256 ^ m * hi := by omega
    have hbyte : BitVec.ofNat 8 (lo + 256 * (256 ^ m * hi)) = BitVec.ofNat 8 lo := by
      apply BitVec.eq_of_toNat_eq
      rw [BitVec.toNat_ofNat, BitVec.toNat_ofNat, Nat.add_mul_mod_self_left]
    rw [Nat.succ_add, hv, leBytes, hbyte, hdiv, ih (lo / 256) (by omega), leBytes, List.cons_append]

/-- The bytes of a word are those of its low half and then those of its high half (R41). -/
theorem leBytes_append_halves (hi lo : HWord) :
    leBytes 8 (hi ++ lo : IWord).toNat = leBytes 4 lo.toNat ++ leBytes 4 hi.toNat := by
  have hv : (hi ++ lo : IWord).toNat = lo.toNat + 256 ^ 4 * hi.toNat := by
    rw [BitVec.toNat_append, ← Nat.shiftLeft_add_eq_or_of_lt lo.isLt, Nat.shiftLeft_eq]
    omega
  rw [hv]
  exact leBytes_add 4 4 _ _ lo.isLt

/-! ### Decoding an encoded instruction -/

/-- The fields of an instruction decode to it: its opcode picks its row, and the fields the row does not use are zero. -/
theorem decodeFields_fields (i : Instr) : decodeFields i.fields = .ok i := by
  cases i <;> rfl

theorem decodeWord_encode (i : Instr) : decodeWord (encode i) = .ok i := by
  rw [decodeWord, encode, fieldsOf_word, decodeFields_fields]

/-- Eight bytes decode as their word does, and the bytes after them are left. -/
theorem decode_leBytes_append {w : IWord} {i : Instr} (h : decodeWord w = .ok i) (rest : List Byte) :
    decode (leBytes 8 w.toNat ++ rest) = .ok (i, rest) := by
  have hw : BitVec.ofNat 64 (leNat (leBytes 8 w.toNat)) = w := ofNat_leNat_leBytes 8 w
  simp only [leBytes] at hw
  simp only [leBytes, List.cons_append, List.nil_append, decode, hw, h]

/-- Settles O1: packing the fields loses none of them, and a word's bytes give it back. -/
theorem decodeOfEncodeIsTheInstruction : Obligations.DecodeOfEncodeIsTheInstruction :=
  fun i rest => ⟨decode_leBytes_append (decodeWord_encode i) rest, decodeWord_encode i⟩

end Sys2Proof

namespace Sys2Proof.Machine

/-! ### A memory after a write -/

theorem Memory.storeList_append (u : Option Byte) (bs cs : List Byte) (m : Memory) (a : Nat) :
    storeList u m a (bs ++ cs) = storeList u (storeList u m a bs) (a + bs.length) cs := by
  induction bs generalizing m a with
  | nil => rfl
  | cons b bs ih => simp only [List.cons_append, storeList, ih, List.length_cons, Nat.add_assoc, Nat.add_comm 1]

section memory

variable {s : State} {a x j : Nat} {b : List Byte}

theorem State.imemWrite_append (s : State) (a : Nat) (b c : List Byte) :
    s.imemWrite a (b ++ c) = (s.imemWrite a b).imemWrite (a + b.length) c := by
  simp only [State.imemWrite, Memory.storeList_append]

theorem State.imemByte_imemWrite_inside (hj : j < b.length) : (s.imemWrite a b).imemByte (a + j) = b[j] := by
  simp [State.imemByte, Memory.get?_storeList_none, hj]

theorem State.imemByte_imemWrite_outside (h : x < a ∨ a + b.length ≤ x) :
    (s.imemWrite a b).imemByte x = s.imemByte x := by
  have hx : ¬ (a ≤ x ∧ x < a + b.length) := by omega
  simp [State.imemByte, Memory.get?_storeList_none, hx]

/-- A read of the bytes just written returns them. -/
theorem State.imemRead_imemWrite (s : State) (a : Nat) (b : List Byte) :
    (s.imemWrite a b).imemRead a b.length = b := by
  apply List.ext_getElem (State.imemRead_length ..)
  intro j _ hj
  rw [State.imemRead_getElem, State.imemByte_imemWrite_inside hj]

theorem State.Inv.dmem_rises (h : s.Inv) : Memory.risesFrom 0 s.dmem = true := (Memory.wf_iff.mp h.dmem).1

theorem State.dmemByte_memWrite_inside (h : s.Inv) (hj : j < b.length) : (s.memWrite a b).dmemByte (a + j) = b[j] := by
  simp [State.dmemByte_memWrite s h.dmem_rises, hj]

theorem State.dmemByte_memWrite_outside (h : s.Inv) (hx : x < a ∨ a + b.length ≤ x) :
    (s.memWrite a b).dmemByte x = s.dmemByte x := by
  rw [State.dmemByte_memWrite s h.dmem_rises, if_neg (by omega)]

/-- A read of the bytes just written returns them. -/
theorem State.memRead_memWrite (h : s.Inv) (a : Nat) (b : List Byte) : (s.memWrite a b).memRead a b.length = b := by
  apply List.ext_getElem (State.memRead_length ..)
  intro j _ hj
  rw [State.memRead_getElem, State.dmemByte_memWrite_inside h hj]

/-- The word of `n` bytes of DMEM has them for its bytes. -/
theorem State.extractLsb'_memRead (s : State) (a : Nat) {n : Nat} (hj : j < n) :
    (BitVec.ofNat (8 * n) (leNat (s.memRead a n))).extractLsb' (8 * j) 8 = s.dmemByte (a + j) := by
  have hlen := s.memRead_length a n
  rw [extractLsb'_ofNat_leNat hlen j (hlen.symm ▸ hj), State.memRead_getElem]

/-- The word of `n` bytes of IMEM has them for its bytes. -/
theorem State.extractLsb'_imemRead (s : State) (a : Nat) {n : Nat} (hj : j < n) :
    (BitVec.ofNat (8 * n) (leNat (s.imemRead a n))).extractLsb' (8 * j) 8 = s.imemByte (a + j) := by
  have hlen := s.imemRead_length a n
  rw [extractLsb'_ofNat_leNat hlen j (hlen.symm ▸ hj), State.imemRead_getElem]

/-- The word at PC is the one whose bytes were just written there. -/
theorem State.fetchWord_imemWrite (w : IWord) (h : s.fetchAddr = a) :
    (s.imemWrite a (leBytes 8 w.toNat)).fetchWord = w := by
  have hread : (s.imemWrite a (leBytes 8 w.toNat)).fetchBytes = leBytes 8 w.toNat := by
    have hr := s.imemRead_imemWrite a (leBytes 8 w.toNat)
    rw [leBytes_length] at hr
    exact h ▸ hr
  rw [State.fetchWord, hread]
  exact ofNat_leNat_leBytes 8 w

/-- Writing the two halves of a word is writing its eight bytes (R41). -/
theorem State.imemWrite_halves (s : State) (a : Nat) (hi lo : HWord) :
    (s.imemWrite a (leBytes 4 lo.toNat)).imemWrite (a + 4) (leBytes 4 hi.toNat) =
      s.imemWrite a (leBytes 8 (hi ++ lo : IWord).toNat) := by
  rw [leBytes_append_halves, State.imemWrite_append, leBytes_length]

end memory

/-! ### The host's accesses to the two memories -/

section window

variable {s : State} {o : BitVec 12} {v : HWord} {a : Nat} {rest : List HostMove}

theorem target_dmem (ho : o.toNat = 0x400 + a) (ha : a < 0x200) : target o = .dmem a := by
  simp (disch := omega) only [target, ho, if_pos, if_neg, Nat.add_sub_cancel_left]

theorem target_imem (ho : o.toNat = 0x800 + a) : target o = .imem a := by
  simp (disch := omega) only [target, ho, if_neg, Nat.add_sub_cancel_left]

variable (hs : s.run ≠ .busy) (h4 : o.toNat % 4 = 0)

include hs h4

theorem hostRead_dmem (ho : o.toNat = 0x400 + a) (ha : a < 0x200) :
    hostRead o 4 s = s.reply (BitVec.ofNat 32 (leNat (s.memRead a 4))) := by
  simp [hostRead, aligned_iff.mpr ⟨rfl, h4⟩, hs, target_dmem ho ha]

theorem hostRead_imem (ho : o.toNat = 0x800 + a) :
    hostRead o 4 s = s.reply (BitVec.ofNat 32 (leNat (s.imemRead a 4))) := by
  simp [hostRead, aligned_iff.mpr ⟨rfl, h4⟩, hs, target_imem ho]

/-- A read of the word just written returns it. -/
theorem hostRead_memWrite (hi : s.Inv) (ho : o.toNat = 0x400 + a) (ha : a < 0x200) :
    hostRead o 4 (s.memWrite a (leBytes 4 v.toNat)) = (s.memWrite a (leBytes 4 v.toNat)).reply v := by
  have hread := State.memRead_memWrite hi a (leBytes 4 v.toNat)
  rw [leBytes_length] at hread
  rw [hostRead_dmem (by exact hs) h4 ho ha, hread]
  exact congrArg _ (ofNat_leNat_leBytes 4 v)

theorem step_write_dmem (hm : s.hostMoves = .write o 4 v :: rest) (ho : o.toNat = 0x400 + a) (ha : a < 0x200) :
    step s = .next (State.memWrite { s with hostMoves := rest } a (leBytes 4 v.toNat)) :=
  step_write hm (hostWrite_dmem (s := { s with hostMoves := rest }) (aligned_iff.mpr ⟨rfl, h4⟩) hs (target_dmem ho ha))

theorem step_write_imem (hm : s.hostMoves = .write o 4 v :: rest) (ho : o.toNat = 0x800 + a) :
    step s = .next (State.imemWrite { s with hostMoves := rest } a (leBytes 4 v.toNat)) :=
  step_write hm (hostWrite_imem (s := { s with hostMoves := rest }) (aligned_iff.mpr ⟨rfl, h4⟩) hs (target_imem ho))

end window

/-- Settles O54: the window's word is four bytes of DMEM, read and written by the memory laws. -/
theorem hostWritesAndReadsDmem : Obligations.HostWritesAndReadsDmem := by
  intro s o v rest hs hlo hhi h4
  obtain ⟨a, ho⟩ : ∃ a, o.toNat = 0x400 + a := ⟨o.toNat - 0x400, by omega⟩
  have ha : a < 0x200 := by omega
  have hlen : (leBytes 4 v.toNat).length = 4 := leBytes_length 4 _
  rw [show o.toNat - 0x400 = a by omega]
  refine ⟨fun hi hm => ⟨_, step_write_dmem hs h4 hm ho ha, fun j hj => ?_, fun x hx => ?_, rfl⟩,
    fun hm => ⟨_, step_read hm (hostRead_dmem hs h4 ho ha), fun j hj => State.extractLsb'_memRead _ a hj⟩,
    fun hi hm => ⟨_, step_write_dmem hs h4 hm ho ha,
      step_read rfl (hostRead_memWrite (s := { s with hostMoves := rest }) hs h4 (hi.hostMoves rest) ho ha)⟩⟩
  · rw [State.dmemByte_memWrite_inside (hi.hostMoves rest) (hlen.symm ▸ hj), leBytes_getElem_eq_extractLsb']
  · exact State.dmemByte_memWrite_outside (hi.hostMoves rest) (hlen.symm ▸ hx)

/-- Settles O60: the window's word is four bytes of IMEM, read and written by the memory laws. -/
theorem hostWritesAndReadsImem : Obligations.HostWritesAndReadsImem := by
  intro s o v rest hs hlo h4
  obtain ⟨a, ho⟩ : ∃ a, o.toNat = 0x800 + a := ⟨o.toNat - 0x800, by omega⟩
  have hlen : (leBytes 4 v.toNat).length = 4 := leBytes_length 4 _
  rw [show o.toNat - 0x800 = a by omega]
  refine ⟨fun hm => ⟨_, step_write_imem hs h4 hm ho, fun j hj => ?_, fun x hx => ?_, rfl⟩,
    fun hm => ⟨_, step_read hm (hostRead_imem hs h4 ho), fun j hj => State.extractLsb'_imemRead _ a hj⟩⟩
  · rw [State.imemByte_imemWrite_inside (hlen.symm ▸ hj), leBytes_getElem_eq_extractLsb']
  · exact State.imemByte_imemWrite_outside (hlen.symm ▸ hx)

/-- Settles O55: the two writes are one of the word's eight bytes, at the place that a fetch at PC = n reads. -/
theorem hostWritesAnInstructionWord : Obligations.HostWritesAnInstructionWord := by
  intro s n lo hi rest hs hn hm
  have hlo : (BitVec.ofNat 12 (0x800 + 8 * n)).toNat = 0x800 + 8 * n := by rw [BitVec.toNat_ofNat]; omega
  have hhi : (BitVec.ofNat 12 (0x804 + 8 * n)).toNat = 0x800 + (8 * n + 4) := by rw [BitVec.toNat_ofNat]; omega
  have hpc : 8 * (BitVec.ofNat 8 n).toNat = 8 * n := by rw [BitVec.toNat_ofNat]; omega
  refine ⟨_, State.imemWrite { s with hostMoves := rest } (8 * n) (leBytes 8 (hi ++ lo : IWord).toNat),
    step_write_imem hs (by omega) hm hlo, ?_, ?_, fun a ha => ?_, rfl⟩
  · rw [← State.imemWrite_halves]
    exact step_write_imem (by exact hs) (by omega) rfl hhi
  · exact State.fetchWord_imemWrite (s := { s with pc := BitVec.ofNat 8 n, hostMoves := rest }) (hi ++ lo) hpc
  · exact State.imemByte_imemWrite_outside (by rwa [leBytes_length])

/-! ### Outside a run -/

/-- No write of the host's reaches a register of the unit, K or a flag. -/
theorem hostWrite_keeps_registers (o : BitVec 12) (w : Nat) (v : HWord) (s : State) :
    (hostWrite o w v s).regs = s.regs ∧ (hostWrite o w v s).k = s.k ∧ (hostWrite o w v s).ovf = s.ovf ∧
      (hostWrite o w v s).neg = s.neg := by
  by_cases hs : s.run = .busy
  · simp [hostWrite_busy hs]
  · rcases hostWrite_cases hs o w v with h | ⟨_, _, h⟩ | h | ⟨_, h⟩ | ⟨_, h⟩ <;> rw [h]
    · exact ⟨rfl, rfl, rfl, rfl⟩
    · obtain ⟨_, _, _, _, _, hc⟩ := s.writeCtrl_reaches v
      simp [hc]
    · exact ⟨rfl, rfl, rfl, rfl⟩
    · exact ⟨rfl, rfl, rfl, rfl⟩
    · exact ⟨rfl, rfl, rfl, rfl⟩

/-- Settles O58: the unit's turn stutters, and by the move that comes first every other step but a reset keeps the
registers. -/
theorem nothingExecutesOutsideARun : Obligations.NothingExecutesOutsideARun := by
  have stutters : ∀ s u : State, s.run ≠ .busy → UnitTurn s u → step s = .next u := fun s u hs hu =>
    (step_unitTurn hu).trans (unitStep_idle (hu.run ▸ hs))
  refine ⟨stutters, fun s t hs ht hm => ?_⟩
  rcases step_cases s with ⟨u, hu, _⟩ | ⟨o, w, rest, _, he⟩ | ⟨o, w, v, rest, _, he⟩ | ⟨rest, hr, _⟩
  · cases (stutters s u hs hu).symm.trans ht
    rw [hu.eq]
    exact ⟨fun _ => rfl, rfl, rfl, rfl⟩
  · cases he.symm.trans ht
    obtain ⟨_, _, _, hx⟩ := hostRead_reaches o w { s with hostMoves := rest }
    rw [hx]
    exact ⟨fun _ => rfl, rfl, rfl, rfl⟩
  · cases he.symm.trans ht
    obtain ⟨hregs, hflags⟩ := hostWrite_keeps_registers o w v { s with hostMoves := rest }
    exact ⟨fun r => by rw [State.reg, hregs]; rfl, hflags⟩
  · exact absurd (by rw [hr]; rfl) hm

end Sys2Proof.Machine

/-! Which words are instructions and what the unit does with the others: the opcode map as match and mask, the order of
the checks, and the statements of spec/30_encoding.md. -/

namespace Sys2Proof

/-! ### A masked word, field by field (R61, R65) -/

/-- Each field under the mask's. -/
def Fields.and (f m : Fields) : Fields :=
  ⟨f.op &&& m.op, f.rd &&& m.rd, f.ra &&& m.ra, f.rb &&& m.rb, f.rc &&& m.rc, f.z &&& m.z, f.imm &&& m.imm⟩

theorem fieldsOf_and (w m : IWord) : fieldsOf (w &&& m) = (fieldsOf w).and (fieldsOf m) := by
  simp only [fieldsOf, Fields.and, BitVec.extractLsb'_and]

theorem fieldsOf_injective : Function.Injective fieldsOf := Function.LeftInverse.injective word_fieldsOf

/-- A word matches under a mask when its fields do. -/
theorem and_eq_iff_fieldsOf_and_eq {w m p : IWord} :
    w &&& m = p ↔ (fieldsOf w).and (fieldsOf m) = fieldsOf p := by
  rw [← fieldsOf_and, fieldsOf_injective.eq_iff]

/-! ### The rows of the opcode map (R62, R65, R66) -/

/-- Fields that carry the opcode of `r` decode by the row `r`: to an instruction of its mnemonic, whose fields they are,
when they match under the row's mask, and to a reserved field otherwise. -/
def DecodesByRow (r : OpcodeRow) (f : Fields) : Prop :=
  ∃ i, i.mnemonic = r.mnemonic ∧ decodeFields f = reserved (f.and (fieldsOf r.mask) = fieldsOf r.pattern) i ∧
    (f.and (fieldsOf r.mask) = fieldsOf r.pattern → i.fields = f)

theorem decodesByRow_of_reserved {r : OpcodeRow} {f : Fields} {i : Instr} {zero : Bool} (hm : i.mnemonic = r.mnemonic)
    (hd : decodeFields f = reserved zero i) (hz : zero = true ↔ f.and (fieldsOf r.mask) = fieldsOf r.pattern)
    (hf : zero = true → i.fields = f) : DecodesByRow r f := by
  have hb : zero = decide (f.and (fieldsOf r.mask) = fieldsOf r.pattern) := by
    rw [Bool.eq_iff_iff, hz, decide_eq_true_iff]
  exact ⟨i, hm, hb ▸ hd, fun h => hf (hz.mpr h)⟩

theorem and_eq_left_of_eq_allOnes {n : Nat} {m : BitVec n} (h : m = BitVec.allOnes n) (b : BitVec n) : b &&& m = b :=
  h ▸ BitVec.and_allOnes

/-- The 23 rows, each with the fields it does not use under its mask. -/
theorem decodesByRow_of_opcode {r : OpcodeRow} (hr : r ∈ opcodeTable) {f : Fields}
    (ho : f.op = (fieldsOf r.pattern).op) : DecodesByRow r f := by
  obtain ⟨op, rd, ra, rb, rc, z, imm⟩ := f
  simp only [opcodeTable, List.cons_append, List.nil_append, List.mem_cons, List.not_mem_nil, or_false] at hr
  obtain rfl := ho
  rcases hr with rfl | rfl | rfl | rfl | rfl | rfl | rfl | rfl | rfl | rfl | rfl | rfl | rfl | rfl | rfl | rfl | rfl |
    rfl | rfl | rfl | rfl | rfl | rfl
  all_goals
    refine decodesByRow_of_reserved rfl rfl ?_ ?_
    · simp (disch := decide) [fieldsOf, Fields.and, and_eq_left_of_eq_allOnes, and_assoc]
    · simp +contextual [Instr.fields, Instr.opcode, fieldsOf]

theorem decodeFields_of_no_row {f : Fields} (h : ∀ r ∈ opcodeTable, f.op ≠ (fieldsOf r.pattern).op) :
    decodeFields f = .error .illegalOpcode := by
  simp only [opcodeTable, List.cons_append, List.nil_append, List.forall_mem_cons, fieldsOf, ne_eq, ← BitVec.toNat_inj,
    BitVec.ofNat_eq_ofNat, BitVec.extractLsb'_toNat, BitVec.toNat_ofNat, Nat.reducePow, Nat.reduceMod,
    Nat.reduceShiftRight] at h
  unfold decodeFields
  split
  case h_24 => rfl
  all_goals omega

theorem opcode_eq_of_match {r : OpcodeRow} (hr : r ∈ opcodeTable) {w : IWord} (h : w &&& r.mask = r.pattern) :
    (fieldsOf w).op = (fieldsOf r.pattern).op := by
  have hmask : ∀ r ∈ opcodeTable, (fieldsOf r.mask).op = BitVec.allOnes 8 := by decide
  calc (fieldsOf w).op = (fieldsOf w).op &&& (fieldsOf r.mask).op := by rw [hmask r hr, BitVec.and_allOnes]
    _ = (fieldsOf r.pattern).op := congrArg Fields.op (and_eq_iff_fieldsOf_and_eq.mp h)

theorem decodeWord_of_match {r : OpcodeRow} (hr : r ∈ opcodeTable) {w : IWord} (h : w &&& r.mask = r.pattern) :
    ∃ i, decodeWord w = .ok i ∧ i.mnemonic = r.mnemonic := by
  obtain ⟨i, hm, hd, _⟩ := decodesByRow_of_opcode hr (opcode_eq_of_match hr h)
  refine ⟨i, ?_, hm⟩
  rw [decodeWord, hd, decide_eq_true (and_eq_iff_fieldsOf_and_eq.mp h)]
  rfl

theorem decodeWord_of_mismatch {r : OpcodeRow} (hr : r ∈ opcodeTable) {w : IWord}
    (ho : (fieldsOf w).op = (fieldsOf r.pattern).op) (h : w &&& r.mask ≠ r.pattern) :
    decodeWord w = .error .reservedField := by
  obtain ⟨i, _, hd, _⟩ := decodesByRow_of_opcode hr ho
  rw [decodeWord, hd, decide_eq_false (mt and_eq_iff_fieldsOf_and_eq.mpr h)]
  rfl

/-- A word that decodes matches a row, and is the word of what it decodes to. -/
theorem exists_row_of_decodeWord_eq_ok {w : IWord} {i : Instr} (h : decodeWord w = .ok i) :
    ∃ r ∈ opcodeTable, i.mnemonic = r.mnemonic ∧ w &&& r.mask = r.pattern ∧ encode i = w := by
  by_cases hrow : ∃ r ∈ opcodeTable, (fieldsOf w).op = (fieldsOf r.pattern).op
  · obtain ⟨r, hr, ho⟩ := hrow
    obtain ⟨j, hm, hd, hf⟩ := decodesByRow_of_opcode hr ho
    obtain ⟨hmatch, rfl⟩ := reserved_eq_ok (hd.symm.trans h)
    rw [decide_eq_true_iff] at hmatch
    refine ⟨r, hr, hm, and_eq_iff_fieldsOf_and_eq.mpr hmatch, ?_⟩
    rw [encode, hf hmatch, word_fieldsOf]
  · push Not at hrow
    cases (decodeFields_of_no_row hrow).symm.trans h

theorem opcodeRow_eq_of_mnemonic_eq {r q : OpcodeRow} (hr : r ∈ opcodeTable) (hq : q ∈ opcodeTable)
    (h : r.mnemonic = q.mnemonic) : r = q := by
  have hnodup : (opcodeTable.map OpcodeRow.mnemonic).Nodup := by decide
  exact List.inj_on_of_nodup_map hnodup hr hq h

/-- Settles O2: the row that the word matches has zero for every field that the instruction does not hold. -/
theorem encodeOfDecodeIsTheWord : Obligations.EncodeOfDecodeIsTheWord := by
  intro w i h
  obtain ⟨_, _, _, _, hw⟩ := exists_row_of_decodeWord_eq_ok h
  exact hw

/-- Settles O3: a word that decodes matches a row of its mnemonic, and no two rows have one mnemonic. -/
theorem wordIsInstanceOfRowIffMaskMatches : Obligations.WordIsInstanceOfRowIffMaskMatches := by
  refine ⟨rfl, fun w r hr => ⟨?_, decodeWord_of_match hr⟩⟩
  rintro ⟨i, hd, hm⟩
  obtain ⟨q, hq, hi, hmatch, _⟩ := exists_row_of_decodeWord_eq_ok hd
  obtain rfl := opcodeRow_eq_of_mnemonic_eq hq hr (hi.symm.trans hm)
  exact hmatch

/-- Settles O4: each word is evaluated. -/
theorem workedEncodingsDecode : Obligations.WorkedEncodingsDecode :=
  ⟨rfl, rfl, rfl, rfl, rfl, rfl, rfl, rfl, rfl⟩

end Sys2Proof

namespace Sys2Proof.Machine

/-! ### The unit's turn, by the word at PC -/

section turn

variable {s u : State} (hr : s.run = .busy) (hu : UnitTurn s u)

include hr hu

theorem step_of_decodeWord_eq_ok {i : Instr} (hd : decodeWord s.fetchWord = .ok i) : step s = exec i u :=
  (step_unitTurn hu).trans (unitStep_ok (hu.run.trans hr) ((congrArg decodeWord hu.fetchWord).trans hd))

theorem step_of_decodeWord_eq_error {e : Reject} (hd : decodeWord s.fetchWord = .error e) :
    step s = .next (u.takeFault (rejectCause e)) :=
  (step_unitTurn hu).trans (unitStep_error (hu.run.trans hr) ((congrArg decodeWord hu.fetchWord).trans hd))

end turn

/-- Settles O6: the opcode is that of no row, or of a row which the word matches under its mask or does not. -/
theorem wordsOutsideTheTableEndTheRun : Obligations.WordsOutsideTheTableEndTheRun := by
  refine ⟨fun s u hr hu => ⟨fun hno => ?_, fun r hrow ho => ⟨fun hmis => ?_, decodeWord_of_match hrow⟩⟩, rfl⟩
  · have hd : decodeWord s.fetchWord = .error .illegalOpcode := decodeFields_of_no_row hno
    exact ⟨hd, step_of_decodeWord_eq_error hr hu hd⟩
  · have hd : decodeWord s.fetchWord = .error .reservedField := decodeWord_of_mismatch hrow ho hmis
    exact ⟨hd, step_of_decodeWord_eq_error hr hu hd⟩

/-! ### The order of the checks (R154) -/

/-- Only PACK, TSTOVF and TSTNEG check data, and each that its source is reduced. -/
theorem dataOk_iff {s : State} {i : Instr} :
    dataOk s i = true ↔
      ∀ ra, i = .tstovf ra ∨ i = .tstneg ra ∨ (∃ imm, i = .pack ra imm) → (s.reg ra).toNat < 2 ^ 255 := by
  cases i with
  | pack ra imm => simp [dataOk, isReduced]
  | tstovf ra => simp [dataOk, isReduced]
  | tstneg ra => simp [dataOk, isReduced]
  | _ => simp [dataOk]

/-- An instruction none of whose checks fails ends in no fault; HALT checks nothing. -/
theorem exists_exec_run_ne_fault {s : State} {i : Instr} (hr : s.run = .busy) (hw : i.wellFormed = true)
    (hp : i = .halt ∨ s.pc ≠ 255) (hd : dataOk s i = true) : ∃ t, exec i s = .next t ∧ t.run ≠ .fault := by
  by_cases hi : i = .halt
  · subst hi
    exact ⟨_, exec_halt s, by simp⟩
  · exact ⟨_, exec_runs hi hw (hp.resolve_left hi) hd, by simp [hr]⟩

/-- Settles O42: the step is `exec` of the instruction, whose checks stand in the order of `complete`. -/
theorem firstFailingCheckWins : Obligations.FirstFailingCheckWins := by
  intro s u i hr hu hd
  rw [step_of_decodeWord_eq_ok hr hu hd, ← hu.pc]
  simp only [← hu.reg]
  refine ⟨fun hw => ?_, fun hw hi hp => exec_pcOverrun hi hw hp, fun ra hra hw hp hge => ?_, fun hw hp hlt => ?_⟩
  · exact exec_illegalOperand (by rintro rfl; cases hw) hw
  · have hdata : dataOk u i = false := by
      rw [← Bool.not_eq_true, dataOk_iff]
      exact fun h => absurd (h ra hra) (Nat.not_lt.mpr hge)
    exact exec_notReduced (by rintro rfl; simp at hra) hw hp hdata
  · exact exists_exec_run_ne_fault (hu.run.trans hr) hw hp (dataOk_iff.mpr hlt)

end Sys2Proof.Machine

/-! The moves between registers, the slots of DMEM and K: what a slot holds, the frame of a register write, and the
statements of spec/40_move_and_io.md. -/

namespace Sys2Proof.Machine

/-! ### The frame of a write of registers -/

/-- An effect that writes registers has the registers it changes for its frame. -/
theorem Frame.withRegs_advance {dests : List Reg} {s : State} {f : Regs} (h : ∀ q ∉ dests, f.read q = s.reg q) :
    Frame dests s (s.withRegs f).advance where
  reg := h
  k := rfl
  ovf := rfl
  neg := rfl
  run := rfl
  errcode := rfl
  herr := rfl
  ie := rfl
  entry := rfl
  dmem _ := rfl
  imem _ := rfl
  hostMoves := rfl
  replies := rfl
  imemGen := rfl
  busyReads := rfl

theorem Frame.write_advance (s : State) (rd : Reg) (v : Fe) : Frame [rd] s (s.withRegs (s.regs.write rd v)).advance :=
  Frame.withRegs_advance fun _ hq => Regs.read_write_of_ne (List.ne_of_not_mem_cons hq) s.regs v

/-- An instruction whose effect is a write of `v` to `rd` leaves `v` there, moves PC on and reaches nothing else. -/
theorem exec_writes_register {i : Instr} {s : State} {rd : Reg} {v : Fe} (hi : i ≠ .halt) (hw : i.wellFormed = true)
    (hp : s.pc ≠ 255) (hd : dataOk s i = true) (he : effect i s = s.withRegs (s.regs.write rd v)) :
    ∃ t, exec i s = .next t ∧ t.reg rd = v ∧ t.pc = s.pc + 1 ∧ Frame [rd] s t := by
  refine ⟨(s.withRegs (s.regs.write rd v)).advance, ?_, ?_, rfl, Frame.write_advance s rd v⟩
  · rw [exec_runs hi hw hp hd, he]
  · exact Regs.read_write_self s.regs rd v

/-- Settles O13: the effect is a write of the immediate, extended with zeros. -/
theorem setWritesTheUnsignedImmediate : Obligations.SetWritesTheUnsignedImmediate := by
  intro rd imm s
  refine ⟨decodeWord_encode (.set rd imm), fun hp => ?_⟩
  obtain ⟨t, ht, hv, hpc, hframe⟩ := exec_writes_register (i := .set rd imm) nofun rfl hp rfl rfl
  exact ⟨t, ht, by rw [hv, setValue_toNat], hpc, hframe⟩

/-- Settles O14: the effect is a write of the source's content. -/
theorem cpyCopiesAllBits : Obligations.CpyCopiesAllBits := fun rd ra _ =>
  ⟨decodeWord_encode (.cpy rd ra), fun hp => exec_writes_register nofun rfl hp rfl rfl⟩

/-- Settles O18: the effect is `State.wipe`, which R85 describes. -/
theorem wipeClearsTheRegisterState : Obligations.WipeClearsTheRegisterState := fun s =>
  ⟨decodeWord_encode .wipe, fun hp => ⟨_, exec_runs nofun rfl hp rfl, s.reg_wipe, rfl⟩⟩

/-! ### The value of a slot (R40, R45) -/

/-- Byte `j` of a slot's value is byte `j` of the slot. -/
theorem State.extractLsb'_slotValue (s : State) (n : Nat) {j : Nat} (hj : j < 32) :
    (s.slotValue n).extractLsb' (8 * j) 8 = s.dmemByte (32 * n + j) :=
  s.extractLsb'_memRead (32 * n) hj

theorem State.getLsbD_slotValue (s : State) (n : Nat) {i : Nat} (hi : i < 256) :
    (s.slotValue n).getLsbD i = (s.dmemByte (32 * n + i / 8)).getLsbD (i % 8) := by
  have hbit : i % 8 < 8 := Nat.mod_lt i (by decide)
  rw [← s.extractLsb'_slotValue n (show i / 8 < 32 by omega), BitVec.getLsbD_extractLsb', decide_eq_true hbit,
    Bool.true_and, Nat.div_add_mod]

/-- Settles O15: the effect is a write of the slot's value, whose bytes are the slot's. -/
theorem unpackLoadsTheSlotRaw : Obligations.UnpackLoadsTheSlotRaw := by
  intro rd imm s
  refine ⟨decodeWord_encode (.unpack rd imm), fun himm hp => ?_, fun himm => ?_⟩
  · obtain ⟨t, ht, hv, hpc, hframe⟩ :=
      exec_writes_register (i := .unpack rd imm) nofun (decide_eq_true himm) hp rfl rfl
    exact ⟨t, ht, fun j hj => by rw [hv]; exact s.extractLsb'_slotValue _ hj, hpc, hframe⟩
  · exact exec_illegalOperand nofun (decide_eq_false (Nat.not_lt.mpr himm))

/-- The state after a write of K. It is stated for every value because comparing two states that hold a slot's value makes
Lean evaluate the 32 bytes of it. -/
theorem State.withK_advance (s : State) (v : Fe) : (s.withK v).advance = { s with k := v, pc := s.pc + 1 } := rfl

/-- Settles O17: the effect is a write of the slot's value to K, whose bits are those of the slot's bytes. -/
theorem ldkLoadsTheScalar : Obligations.LdkLoadsTheScalar := by
  intro imm s
  refine ⟨decodeWord_encode (.ldk imm), fun himm hp => ⟨s.slotValue (slotNumber imm), ?_, fun i hi => ?_⟩,
    fun himm => ?_⟩
  · have he : effect (.ldk imm) s = s.withK (s.slotValue (slotNumber imm)) := rfl
    rw [exec_runs (i := .ldk imm) nofun (decide_eq_true himm) hp rfl, he, State.withK_advance]
  · exact s.getLsbD_slotValue (slotNumber imm) hi
  · exact exec_illegalOperand nofun (decide_eq_false (Nat.not_lt.mpr himm))

/-! ### The bytes PACK stores (R83) -/

/-- Byte `j` of a value's 32 bytes is digit `j` of its integer in base 256 (R40). -/
theorem bytes256_getElem_toNat (v : Fe) (j : Nat) (hj : j < (bytes256 v).length) :
    ((bytes256 v)[j]).toNat = v.toNat / 2 ^ (8 * j) % 256 := by
  have hbyte : (bytes256 v)[j] = BitVec.ofNat 8 (v.toNat / 256 ^ j) := leBytes_getElem 32 v.toNat j hj
  rw [hbyte, BitVec.toNat_ofNat, Nat.pow_mul]

/-- Settles O16: the effect is a store of the canonical value's bytes inside the slot, read back by the memory laws; the
faults are those of the slot number and of the data check. -/
theorem packStoresTheCanonicalBytes : Obligations.PackStoresTheCanonicalBytes := by
  intro ra imm s hs
  have hlen : (bytes256 (canonical (s.reg ra))).length = 32 := leBytes_length 32 _
  refine ⟨decodeWord_encode (.pack ra imm), fun himm hp hred => ?_, fun himm => ?_, fun himm hp hge => ?_⟩
  · refine ⟨_, exec_runs nofun (decide_eq_true himm) hp (decide_eq_true hred), fun j hj => ?_, fun a ha => ?_, rfl, rfl⟩
    · have hj' : j < (bytes256 (canonical (s.reg ra))).length := hlen.symm ▸ hj
      calc _ = ((bytes256 (canonical (s.reg ra)))[j]).toNat :=
            congrArg BitVec.toNat (State.dmemByte_memWrite_inside hs hj')
        _ = (s.reg ra).toNat % Config.P / 2 ^ (8 * j) % 256 := by rw [bytes256_getElem_toNat, canonical_toNat hred]
    · exact State.dmemByte_memWrite_outside hs (hlen.symm ▸ ha)
  · exact exec_illegalOperand nofun (decide_eq_false (Nat.not_lt.mpr himm))
  · exact exec_notReduced nofun (decide_eq_true himm) hp (decide_eq_false (Nat.not_lt.mpr hge))

end Sys2Proof.Machine

/-! The field arithmetic: the limbs of a register content, the bounds of the results, the value each instruction writes,
and the statements of spec/41_field_arith.md. -/

namespace Sys2Proof.Machine

/-! ### The fold (R90) -/

theorem fold1_modEq (t : Nat) : fold1 t ≡ t [MOD Config.P] := (ZMod.natCast_eq_natCast_iff _ _ _).mp (fold1_cast t)

theorem fold1_lt_self {t : Nat} (h : 2 ^ 255 ≤ t) : fold1 t < t := by
  unfold fold1
  omega

/-! ### Lists of limbs (R11) -/

theorem limbsNat_append (ls ms : List (BitVec 16)) :
    limbsNat (ls ++ ms) = limbsNat ls + 2 ^ (16 * ls.length) * limbsNat ms := by
  induction ls with
  | nil => simp [limbsNat]
  | cons l ls ih =>
    rw [List.cons_append, limbsNat, limbsNat, ih, List.length_cons]
    ring

/-- Lists of equally many limbs that stand for one integer are equal. -/
theorem limbsNat_injective {ls ms : List (BitVec 16)} (hlen : ls.length = ms.length) (h : limbsNat ls = limbsNat ms) :
    ls = ms := by
  induction ls generalizing ms with
  | nil => exact (List.length_eq_zero_iff.mp hlen.symm).symm
  | cons l ls ih =>
    cases ms with
    | nil => cases hlen
    | cons m ms =>
      have hl := l.isLt
      have hm := m.isLt
      simp only [limbsNat] at h
      rw [BitVec.eq_of_toNat_eq (show l.toNat = m.toNat by omega), ih (Nat.succ.inj hlen) (by omega)]

@[simp] theorem addCarry_length (ls : List (BitVec 16)) (c : Nat) : (addCarry ls c).length = ls.length := by
  induction ls generalizing c with
  | nil => rfl
  | cons l ls ih => rw [addCarry, List.length_cons, ih, List.length_cons]

/-- The carry chain adds, modulo the size of the list. -/
theorem limbsNat_addCarry (ls : List (BitVec 16)) (c : Nat) :
    limbsNat (addCarry ls c) = (limbsNat ls + c) % 2 ^ (16 * ls.length) := by
  induction ls generalizing c with
  | nil => simp [addCarry, limbsNat, Nat.mod_one]
  | cons l ls ih =>
    have hmod : (l.toNat + 2 ^ 16 * limbsNat ls + c) % 2 ^ 16 = (l.toNat + c) % 2 ^ 16 := by omega
    have hdiv : (l.toNat + 2 ^ 16 * limbsNat ls + c) / 2 ^ 16 = limbsNat ls + (l.toNat + c) / 2 ^ 16 := by omega
    rw [addCarry, limbsNat, limbsNat, ih, BitVec.toNat_ofNat, List.length_cons, Nat.mul_succ, Nat.add_comm (16 * _),
      Nat.pow_add, Nat.mod_mul, hmod, hdiv]

/-! ### The limbs of a register content (R11) -/

theorem limb_toNat (v : Fe) (i : Nat) : (limb v i).toNat = v.toNat / 2 ^ (16 * i) % 2 ^ 16 := by
  rw [limb, BitVec.extractLsb'_toNat, Nat.shiftRight_eq_div_pow]

/-- The `n` limbs from limb `i` on stand for the bits they hold. -/
theorem limbsNat_map_limb (v : Fe) (i n : Nat) :
    limbsNat ((List.range' i n).map (limb v)) = v.toNat / 2 ^ (16 * i) % 2 ^ (16 * n) := by
  induction n generalizing i with
  | zero => simp [limbsNat, Nat.mod_one]
  | succ n ih =>
    rw [List.range'_succ, List.map_cons, limbsNat, ih, limb_toNat, Nat.mul_succ 16 n, Nat.add_comm (16 * n),
      Nat.pow_add, Nat.mod_mul, Nat.mul_succ, Nat.pow_add, Nat.div_div_eq_div_mul]

theorem limbsNat_limbs (v : Fe) : limbsNat (limbs v) = v.toNat := by
  have h := limbsNat_map_limb v 0 16
  rw [Nat.mul_zero, Nat.pow_zero, Nat.div_one, Nat.mod_eq_of_lt v.isLt] at h
  exact h

theorem fold1Limbs_length (v : Fe) : (fold1Limbs v).length = 16 := addCarry_length _ _

/-- The list without bit 255 stands for V mod 2^255, and nothing is carried out of its last limb. -/
theorem limbsNat_fold1Limbs (v : Fe) : limbsNat (fold1Limbs v) = fold1 v.toNat := by
  have hv := v.isLt
  have hlow : limbsNat ((limbs v).take 15) = v.toNat % 2 ^ 240 := by
    have h := limbsNat_map_limb v 0 15
    rw [Nat.mul_zero, Nat.pow_zero, Nat.div_one] at h
    exact h
  have htop : (limb v 15).toNat = v.toNat / 2 ^ 240 := by
    rw [limb_toNat]
    omega
  have hrest : (BitVec.ofNat 16 ((limb v 15).toNat % 2 ^ 15)).toNat = v.toNat / 2 ^ 240 % 2 ^ 15 := by
    rw [BitVec.toNat_ofNat, htop]
    omega
  have hcarry : (limb v 15).toNat / 2 ^ 15 = v.toNat / 2 ^ 255 := by rw [htop, Nat.div_div_eq_div_mul, ← Nat.pow_add]
  have hmod : v.toNat % 2 ^ 240 + 2 ^ 240 * (v.toNat / 2 ^ 240 % 2 ^ 15) = v.toNat % 2 ^ 255 :=
    (Nat.mod_mul (a := 2 ^ 240) (b := 2 ^ 15)).symm
  have hlen : ((limbs v).take 15).length = 15 := rfl
  rw [fold1Limbs, limbsNat_addCarry, limbsNat_append, limbsNat, hlow, hrest, hcarry, List.length_append, hlen]
  simp only [limbsNat, Nat.mul_zero, Nat.add_zero, List.length_singleton, Nat.reduceMul, Nat.reduceAdd, hmod, fold1]
  omega

/-- Settles O19: the laws of `fold1`, and the carry chain by `limbsNat_fold1Limbs`. -/
theorem foldProperties : Obligations.FoldProperties :=
  ⟨fun t => ⟨rfl, fold1_modEq t, fold1_eq_self, fold1_lt_self, fun _ => fold1_lt⟩,
    fun v => ⟨fold1Limbs_length v, limbsNat_fold1Limbs v, limbsNat_limbs v⟩⟩

/-! ### The product from three half-size products (R100) -/

/-- The cross terms are what is left of the product of the sums. -/
theorem karatsuba_cross (aL aH bL bH : Nat) :
    (aL + aH) * (bL + bH) - aL * bL - aH * bH = aL * bH + aH * bL := by
  have h : (aL + aH) * (bL + bH) = aL * bH + aH * bL + aH * bH + aL * bL := by ring
  rw [h, Nat.add_sub_cancel, Nat.add_sub_cancel]

theorem karatsuba_eq_mul (a b : Nat) : karatsuba a b = a * b := by
  rw [karatsuba, karatsuba_cross]
  calc _ = (a % 2 ^ 128 + 2 ^ 128 * (a / 2 ^ 128)) * (b % 2 ^ 128 + 2 ^ 128 * (b / 2 ^ 128)) := by ring
    _ = a * b := by rw [Nat.mod_add_div, Nat.mod_add_div]

/-- Settles O20: the identity needs no bound on the operands. -/
theorem karatsubaIsTheExactProduct : Obligations.KaratsubaIsTheExactProduct := fun a b _ _ => karatsuba_eq_mul a b

/-! ### The bounds of the results (R94 to R98) -/

theorem feAdd_le (a b : Fe) : (feAdd a b).toNat ≤ 2 ^ 255 + 55 := by
  have ha := a.isLt
  have hb := b.isLt
  rw [feAdd_toNat, fold1]
  omega

theorem feSub_le (a b : Fe) : (feSub a b).toNat ≤ 2 ^ 255 + 75 := by
  have ha := a.isLt
  have hb := b.isLt
  rw [feSub_toNat, P_eq, fold1]
  omega

/-- The bias of SUB exceeds every operand. -/
theorem feSub_exact_nonneg (a b : Fe) : 0 ≤ (a.toNat : Int) + 4 * Config.P - b.toNat := by
  have hb := b.isLt
  have hP := P_eq
  omega

theorem feSub_toNat_int (a b : Fe) :
    ((feSub a b).toNat : Int) = (fold1 ((a.toNat : Int) + 4 * Config.P - b.toNat).toNat : Nat) := by
  have hexact : ((a.toNat : Int) + 4 * Config.P - b.toNat).toNat = a.toNat + 4 * Config.P - b.toNat := by omega
  rw [hexact, feSub_toNat]

theorem mulsExact_of_nonneg (a : Fe) {m : Int} (h : 0 ≤ m) : mulsExact a m = m * a.toNat := if_pos h

theorem mulsExact_of_neg (a : Fe) {m : Int} (h : m < 0) : mulsExact a m = m * a.toNat + 2 ^ 30 * Config.P :=
  if_neg (Int.not_le.mpr h)

/-- The bias of MULS exceeds every product with a negative multiplier. -/
theorem mulsExact_pos_of_neg (a : Fe) {m : Int} (h1 : -2 ^ 28 ≤ m) (h : m < 0) : 0 < mulsExact a m := by
  have ha : (a.toNat : Int) ≤ 2 ^ 256 := by
    have := a.isLt
    omega
  have hle : -m * a.toNat ≤ 2 ^ 28 * 2 ^ 256 := mul_le_mul (by omega) ha (Int.natCast_nonneg _) (by norm_num)
  rw [neg_mul] at hle
  rw [mulsExact_of_neg a h, P_eq]
  omega

/-- The second fold of an integer below 2^286 leaves a reduced value. -/
theorem fold1_fold1_lt {t : Nat} (h : t < 2 ^ 256 * 2 ^ 30) : fold1 (fold1 t) < 2 ^ 255 := by
  have h1 : fold1 t < 2 ^ 255 + 19 * (2 ^ 31 - 1) := fold1_lt (by omega)
  unfold fold1 at h1 ⊢
  omega

theorem feMuls_lt (a : Fe) {m : Int} (h1 : -2 ^ 28 ≤ m) (h2 : m ≤ 2 ^ 28) : (feMuls a m).toNat < 2 ^ 255 := by
  obtain ⟨_, hlt⟩ := mulsExact_bounds a h1 h2
  rw [feMuls_toNat a h1 h2]
  exact fold1_fold1_lt (by omega)

/-! ### The arithmetic instructions -/

/-- Settles O21: the effect is a write of `feAdd`. -/
theorem addResult : Obligations.AddResult := by
  intro rd ra rb s
  refine ⟨decodeWord_encode (.add rd ra rb), fun hp => ?_⟩
  obtain ⟨t, ht, hv, hpc, hframe⟩ := exec_writes_register (i := .add rd ra rb) nofun rfl hp rfl rfl
  refine ⟨t, ht, ?_, ?_, ?_, hpc, hframe⟩ <;> rw [hv]
  · exact feAdd_toNat _ _
  · exact feAdd_le _ _
  · exact feAdd_residue _ _

/-- Settles O22: the effect is a write of `feSub`. -/
theorem subResult : Obligations.SubResult := by
  intro rd ra rb s
  refine ⟨decodeWord_encode (.sub rd ra rb), fun hp => ?_⟩
  obtain ⟨t, ht, hv, hpc, hframe⟩ := exec_writes_register (i := .sub rd ra rb) nofun rfl hp rfl rfl
  refine ⟨t, ht, ?_, feSub_exact_nonneg _ _, ?_, ?_, hpc, hframe⟩ <;> rw [hv]
  · exact feSub_toNat_int _ _
  · exact feSub_le _ _
  · exact feSub_residue _ _

/-- Settles O23: the effect is a write of `feMul`. -/
theorem mulResult : Obligations.MulResult := by
  intro rd ra rb s
  refine ⟨decodeWord_encode (.mul rd ra rb), fun hp => ?_⟩
  obtain ⟨t, ht, hv, hpc, hframe⟩ := exec_writes_register (i := .mul rd ra rb) nofun rfl hp rfl rfl
  refine ⟨t, ht, ?_, ?_, ?_, hpc, hframe⟩ <;> rw [hv]
  · exact feMul_toNat _ _
  · exact feMul_lt _ _
  · exact feMul_residue _ _

/-- SQR and MUL of a register by itself are one meaning (R97). -/
theorem exec_sqr (rd ra : Reg) (s : State) : exec (.sqr rd ra) s = exec (.mul rd ra ra) s := rfl

/-- Settles O24: MUL of the register by itself has the value, the bound and the frame, by `mulResult`. -/
theorem sqrResult : Obligations.SqrResult := by
  intro rd ra s
  refine ⟨decodeWord_encode (.sqr rd ra), fun hp => ?_⟩
  obtain ⟨_, hmul⟩ := mulResult rd ra ra s
  obtain ⟨t, ht, hv, hlt, hres, hpc, hframe⟩ := hmul hp
  exact ⟨t, (exec_sqr rd ra s).trans ht, ht, hv, hlt, by rw [hres, pow_two], hpc, hframe⟩

theorem muls_wellFormed (rd ra : Reg) {imm : HWord} :
    (Instr.muls rd ra imm).wellFormed = true ↔ -2 ^ 28 ≤ imm.toInt ∧ imm.toInt ≤ 2 ^ 28 := by
  rw [← operandsOk_eq_wellFormed]
  exact multiplierOk_iff imm

/-- A MULS whose multiplier is within its bound writes `feMuls`. -/
theorem exec_muls_writes (rd ra : Reg) {imm : HWord} {s : State} (h1 : -2 ^ 28 ≤ imm.toInt)
    (h2 : imm.toInt ≤ 2 ^ 28) (hp : s.pc ≠ 255) :
    ∃ t, exec (.muls rd ra imm) s = .next t ∧ t.reg rd = feMuls (s.reg ra) imm.toInt ∧ t.pc = s.pc + 1 ∧
      Frame [rd] s t :=
  exec_writes_register nofun ((muls_wellFormed rd ra).mpr ⟨h1, h2⟩) hp rfl rfl

/-- Settles O25: the effect is a write of `feMuls`, and the operand check is the bound on the multiplier. -/
theorem mulsResult : Obligations.MulsResult := by
  intro rd ra imm s
  refine ⟨decodeWord_encode (.muls rd ra imm), fun h1 h2 hp => ?_, fun himm => ?_⟩
  · obtain ⟨t, ht, hv, hpc, hframe⟩ := exec_muls_writes rd ra h1 h2 hp
    have hexact := feMuls_toNat (s.reg ra) h1 h2
    refine ⟨t, ht, fun hm => ?_, fun hm => ?_, ?_, ?_, hpc, hframe⟩
    · rw [hv, hexact, mulsExact_of_nonneg _ hm]
    · rw [hv, hexact, ← mulsExact_of_neg _ hm]
      exact ⟨mulsExact_pos_of_neg _ h1 hm, rfl⟩
    · rw [hv]
      exact feMuls_lt _ h1 h2
    · rw [hv]
      exact feMuls_residue _ h1 h2
  · have hw : (Instr.muls rd ra imm).wellFormed = false := by
      rw [← Bool.not_eq_true, muls_wellFormed]
      omega
    exact exec_illegalOperand nofun hw

/-- Settles O26: the effect is a write of `feReduce`. -/
theorem reduceResult : Obligations.ReduceResult := by
  intro rd ra s
  refine ⟨decodeWord_encode (.reduce rd ra), fun hp => ?_⟩
  obtain ⟨t, ht, hv, hpc, hframe⟩ := exec_writes_register (i := .reduce rd ra) nofun rfl hp rfl rfl
  refine ⟨t, ht, ?_, ?_, ?_, ?_, hpc, hframe⟩ <;> rw [hv]
  · exact feReduce_toNat _
  · exact feReduce_lt _
  · exact feReduce_residue _
  · exact feReduce_eq_self

/-! ### The laws of the arithmetic instructions (R101) -/

/-- Two instructions with the same checks and the same effect have the same meaning. -/
theorem exec_congr {i j : Instr} {s : State} (hi : i ≠ .halt) (hj : j ≠ .halt) (hw : i.wellFormed = j.wellFormed)
    (hd : dataOk s i = dataOk s j) (he : effect i s = effect j s) : exec i s = exec j s := by
  rw [exec_eq_complete hi, exec_eq_complete hj, hw, hd, he]

theorem exec_add_comm (rd ra rb : Reg) (s : State) : exec (.add rd ra rb) s = exec (.add rd rb ra) s :=
  exec_congr nofun nofun rfl rfl (congrArg (fun v => s.withRegs (s.regs.write rd v)) (feAdd_comm _ _))

theorem exec_mul_comm (rd ra rb : Reg) (s : State) : exec (.mul rd ra rb) s = exec (.mul rd rb ra) s :=
  exec_congr nofun nofun rfl rfl (congrArg (fun v => s.withRegs (s.regs.write rd v)) (feMul_comm _ _))

/-- REDUCE of a reduced register into itself moves PC and changes nothing else. -/
theorem exec_reduce_self (rd : Reg) {t : State} (hp : t.pc ≠ 255) (h : (t.reg rd).toNat < 2 ^ 255) :
    exec (.reduce rd rd) t = .next { t with pc := t.pc + 1 } := by
  have he : effect (.reduce rd rd) t = t := by
    calc effect (.reduce rd rd) t = t.withRegs (t.regs.write rd (feReduce (t.reg rd))) := rfl
      _ = t.withRegs (t.regs.write rd (t.regs.read rd)) := by rw [feReduce_eq_self h, State.reg_eq]
      _ = t := by rw [Regs.write_read_self]; rfl
  rw [exec_runs (i := .reduce rd rd) nofun rfl hp rfl, he]
  rfl

/-- The arithmetic instructions have no data to check. -/
theorem dataOk_of_arithmeticOperands {i : Instr} {rd : Reg} {sources : List Reg}
    (h : arithmeticOperands i = some (rd, sources)) (s : State) : dataOk s i = true := by
  cases i with
  | pack | tstovf | tstneg => cases h
  | _ => rfl

/-- What the effect of an arithmetic instruction leaves in its destination depends on its sources only (R101). -/
theorem effect_reg_congr {i : Instr} {rd : Reg} {sources : List Reg} (h : arithmeticOperands i = some (rd, sources))
    {s s' : State} (hs : ∀ r ∈ sources, s.reg r = s'.reg r) : (effect i s).reg rd = (effect i s').reg rd := by
  cases i with
  | add | sub | mul | sqr | muls | reduce =>
    cases h
    simp only [List.forall_mem_cons, State.reg_eq] at hs
    simp [effect, opsOf, MicroOp.apply, hs]
  | _ => cases h

/-- Two states that agree on the sources of an arithmetic instruction get one value in its destination (R101). -/
theorem exec_arithmetic_congr {i : Instr} {rd : Reg} {sources : List Reg} {s s' : State}
    (hi : arithmeticOperands i = some (rd, sources)) (hw : i.wellFormed = true) (hp : s.pc ≠ 255) (hp' : s'.pc ≠ 255)
    (hs : ∀ r ∈ sources, s.reg r = s'.reg r) :
    ∃ t t', exec i s = .next t ∧ exec i s' = .next t' ∧ t.reg rd = t'.reg rd := by
  have hhalt : i ≠ .halt := by
    rintro rfl
    cases hi
  exact ⟨_, _, exec_runs hhalt hw hp (dataOk_of_arithmeticOperands hi s),
    exec_runs hhalt hw hp' (dataOk_of_arithmeticOperands hi s'), effect_reg_congr hi hs⟩

/-- Settles O57: the results of the six instructions, and the laws of the values they write. -/
theorem arithmeticLaws : Obligations.ArithmeticLaws := by
  refine ⟨fun rd ra rb s hp => ⟨?_, ?_, ?_, ?_, fun imm h1 h2 hb => ?_, ?_⟩,
    fun i rd sources s s' hi hw hp hp' hs => exec_arithmetic_congr hi hw hp hp' hs⟩
  · obtain ⟨t, ht, -, -, hres, -⟩ := (addResult rd ra rb s).2 hp
    exact ⟨t, ht, exec_add_comm rd rb ra s ▸ ht, hres⟩
  · obtain ⟨t, ht, -, -, -, hres, -⟩ := (subResult rd ra rb s).2 hp
    exact ⟨t, ht, hres⟩
  · obtain ⟨t, ht, -, -, hres, -⟩ := (mulResult rd ra rb s).2 hp
    exact ⟨t, ht, exec_mul_comm rd rb ra s ▸ ht, hres⟩
  · obtain ⟨t, ht, hmul, -⟩ := (sqrResult rd ra s).2 hp
    exact ⟨t, ht, hmul⟩
  · obtain ⟨t, ht, hv, -⟩ := exec_muls_writes rd ra h1 h2 hp
    obtain ⟨u, hu, hw, -⟩ := exec_writes_register (i := .mul rd ra rb) nofun rfl hp rfl rfl
    exact ⟨t, u, ht, hu, by rw [hv, hw]; exact feMuls_residue_eq_feMul _ _ h1 h2 hb⟩
  · obtain ⟨t, ht, -, hlt, -⟩ := (reduceResult rd ra s).2 hp
    exact ⟨t, ht, fun hpt => exec_reduce_self rd hpt hlt⟩

/-! ### The tests (R102 to R105) -/

/-- P is odd, so taking it off a value turns bit 0 (R105). -/
theorem negOf_eq {v : Fe} (h : v.toNat < 2 ^ 255) : negOf v = decide (v.toNat % Config.P % 2 = 1) := by
  have hbit : v.getLsbD 0 = decide (v.toNat % 2 = 1) := Nat.testBit_zero v.toNat
  have hP := P_eq
  rw [negOf, ovfOf, hbit]
  by_cases hge : Config.P ≤ v.toNat
  · have hmod : v.toNat % Config.P = v.toNat - Config.P := by
      rw [hP] at hge ⊢
      omega
    rw [decide_eq_true hge, hmod, Bool.true_xor, ← decide_not, decide_eq_decide]
    omega
  · rw [decide_eq_false hge, Bool.false_xor, Nat.mod_eq_of_lt (Nat.lt_of_not_le hge)]

/-- Settles O27: the effect is a write of `ovfOf`, and the data check is that the source is reduced. -/
theorem tstovfResult : Obligations.TstovfResult := fun ra _ =>
  ⟨decodeWord_encode (.tstovf ra), fun hp =>
    ⟨fun hlt => exec_runs (i := .tstovf ra) nofun rfl hp (decide_eq_true hlt),
      fun hge => exec_notReduced (i := .tstovf ra) nofun rfl hp (decide_eq_false (Nat.not_lt.mpr hge))⟩⟩

/-- Settles O28: the effect is a write of `negOf`, and the data check is that the source is reduced. -/
theorem tstnegResult : Obligations.TstnegResult := by
  refine fun ra s => ⟨decodeWord_encode (.tstneg ra), fun hp => ⟨fun hlt => ?_, fun hge => ?_⟩⟩
  · rw [← negOf_eq hlt]
    exact exec_runs (i := .tstneg ra) nofun rfl hp (decide_eq_true hlt)
  · exact exec_notReduced nofun rfl hp (decide_eq_false (Nat.not_lt.mpr hge))

/-! ### The overflow test in the limbs (R103) -/

theorem ovfOf_iff {v : Fe} : ovfOf v = true ↔ Config.P ≤ v.toNat := decide_eq_true_iff

/-- The limbs of a reduced value that is at least P (R103). -/
def OverflowLimbs (v : Fe) : Prop :=
  limb v 15 = 0x7FFF ∧ (∀ i, 1 ≤ i → i ≤ 14 → limb v i = 0xFFFF) ∧ 0xFFED ≤ (limb v 0).toNat

/-- The limbs above limb 0 are those of 2^255 - 1. -/
theorem map_limb_eq_ones_iff (v : Fe) :
    (List.range' 1 15).map (limb v) = List.replicate 14 0xFFFF ++ [0x7FFF] ↔
      limb v 15 = 0x7FFF ∧ ∀ i, 1 ≤ i → i ≤ 14 → limb v i = 0xFFFF := by
  have hmem (i : Nat) : i ∈ List.range' 1 14 ↔ 1 ≤ i ∧ i ≤ 14 := by
    rw [List.mem_range'_1]
    omega
  calc _ ↔ (List.range' 1 14).map (limb v) = List.replicate 14 0xFFFF ∧ [limb v 15] = [0x7FFF] := by
        rw [List.range'_1_concat (n := 14), List.map_append]
        exact ⟨fun h => List.append_inj' h rfl, fun ⟨hinit, hlast⟩ => hinit ▸ hlast ▸ rfl⟩
    _ ↔ _ := by
        rw [List.eq_replicate_iff, List.forall_mem_map, List.singleton_inj, and_comm]
        simp [hmem]

/-- The 19 reduced values from P on differ from 2^255 - 1 in limb 0 only. -/
theorem ovfOf_iff_overflowLimbs {v : Fe} (h : v.toNat < 2 ^ 255) : ovfOf v = true ↔ OverflowLimbs v := by
  have hlow : (limb v 0).toNat = v.toNat % 2 ^ 16 := by simpa using limb_toNat v 0
  have hhigh : limbsNat ((List.range' 1 15).map (limb v)) = v.toNat / 2 ^ 16 := by
    rw [limbsNat_map_limb, Nat.mod_eq_of_lt (by omega)]
  have hones : limbsNat (List.replicate 14 0xFFFF ++ [0x7FFF]) = 2 ^ 239 - 1 := by decide
  rw [ovfOf_iff, P_eq, OverflowLimbs, ← and_assoc, ← map_limb_eq_ones_iff, hlow]
  constructor
  · intro hge
    exact ⟨limbsNat_injective rfl (by omega), by omega⟩
  · rintro ⟨hl, h0⟩
    rw [hl, hones] at hhigh
    omega

/-- The test of the limbs, from limb 15 down. -/
theorem ovfLimbs_iff (v : Fe) : ovfLimbs v = true ↔ OverflowLimbs v := by
  have hmem (i : Nat) : (1 ≤ i ∧ i ≤ 14) ↔ i ∈ [14, 13, 12, 11, 10, 9, 8, 7, 6, 5, 4, 3, 2, 1] := by
    simp only [List.mem_cons, List.not_mem_nil, or_false]
    omega
  simp only [OverflowLimbs, ← and_imp, hmem]
  simp [ovfLimbs, and_assoc]

/-- Settles O29: both tests by the condition on the limbs. -/
theorem overflowTestInLimbsAgrees : Obligations.OverflowTestInLimbsAgrees := by
  refine ⟨fun v h => ⟨ovfOf_iff, ovfOf_iff_overflowLimbs h, ?_⟩, by decide⟩
  rw [Bool.eq_iff_iff, ovfOf_iff_overflowLimbs h, ovfLimbs_iff]

end Sys2Proof.Machine

/-! The exponentiation: the powers of the source that the registers hold along the chain of spec/42_exponentiation.md R111,
and the statements of RECIP, RECIPS and SQRT. -/

namespace Sys2Proof.Machine

/-! ### Registers that hold powers (the column "Exponent" of R111) -/

/-- Register `r` holds the power `n` of `x` mod P. -/
def HoldsPower (x : GF) (f : Regs) (r : Reg) (n : Nat) : Prop := residue (f.read r) = x ^ n

section powers

variable {x : GF} {f : Regs} {a b q r : Reg} {m n : Nat}

theorem HoldsPower.of_eq (h : HoldsPower x f r m) (e : m = n) : HoldsPower x f r n := e ▸ h

theorem HoldsPower.runOps_of_not_mem {ops : List MicroOp} (h : HoldsPower x f q n) (hq : q ∉ destsOf ops) :
    HoldsPower x (runOps ops f) q n := by
  rw [HoldsPower, read_runOps hq]
  exact h

theorem HoldsPower.apply_of_not_mem {op : MicroOp} (h : HoldsPower x f q n) (hq : q ∉ op.dests) :
    HoldsPower x (op.apply f) q n := by
  rw [HoldsPower, MicroOp.read_apply hq]
  exact h

theorem HoldsPower.sqr (d : Reg) (h : HoldsPower x f a n) : HoldsPower x ((MicroOp.sqr d a).apply f) d (2 * n) := by
  rw [HoldsPower, MicroOp.read_sqr, if_pos rfl, feSqr_residue, h, ← pow_mul, mul_comm]

theorem HoldsPower.mul (d : Reg) (ha : HoldsPower x f a m) (hb : HoldsPower x f b n) :
    HoldsPower x ((MicroOp.mul d a b).apply f) d (m + n) := by
  rw [HoldsPower, MicroOp.read_mul, if_pos rfl, feMul_residue, ha, hb, ← pow_add]

/-- `n × { SQR a, b ; SQR b, a }` is 2n squarings of `b`. -/
theorem HoldsPower.squarings (h : HoldsPower x f b m) (a : Reg) (n : Nat) :
    HoldsPower x (runOps (times n [.sqr a b, .sqr b a]) f) b (4 ^ n * m) := by
  induction n generalizing f m with
  | zero => exact h.of_eq (by rw [pow_zero, one_mul])
  | succ n ih =>
    rw [runOps_times_succ]
    exact (ih ((h.sqr a).sqr b)).of_eq (by ring)

/-- After the squarings the other register is one squaring behind. -/
theorem HoldsPower.squarings_behind (h : HoldsPower x f b m) (hab : a ≠ b) (n : Nat) :
    HoldsPower x (runOps (times (n + 1) [.sqr a b, .sqr b a]) f) a (2 * (4 ^ n * m)) := by
  induction n generalizing f m with
  | zero => exact ((h.sqr a).apply_of_not_mem (op := .sqr b a) (mt List.mem_singleton.mp hab)).of_eq (by ring)
  | succ n ih =>
    rw [runOps_times_succ]
    exact (ih ((h.sqr a).sqr b)).of_eq (by ring)

end powers

/-! ### The chain (R111) -/

/-- The stage of the chain that doubles the length of an exponent: from x^(2^k - 1) in `c`, with k = 2·(n + 1), to
x^(2^(2k) - 1) in `a`. -/
def doublingOps (a b c : Reg) (n : Nat) : List MicroOp :=
  [.sqr a c, .sqr b a] ++ (times n [.sqr a b, .sqr b a] ++ [.mul a b c])

theorem chain17_eq : chain17 = doublingOps .t1 .t3 .t2 4 := rfl

theorem chain21_eq : chain21 = doublingOps .t3 .t4 .t1 9 := rfl

theorem chain27_eq : chain27 = doublingOps .t2 .t3 .t1 24 := rfl

theorem chain31_eq : chain31 = doublingOps .t3 .t4 .t2 49 := rfl

/-- k = 2·(n + 1) squarings, then the product with the value they started from. -/
theorem HoldsPower.doubling {x : GF} {f : Regs} {a b c : Reg} {k m n : Nat} {ops : List MicroOp} (h : HoldsPower x f c m)
    (hops : ops = doublingOps a b c n) (hc : c ∉ [a, b]) (hk : (4 ^ (n + 1) + 1) * m = k) :
    HoldsPower x (runOps ops f) a k := by
  subst hops hk
  rw [doublingOps, runOps_append, runOps_append]
  have hb : HoldsPower x (runOps [.sqr a c, .sqr b a] f) b (2 * (2 * m)) := (h.sqr a).sqr b
  have hc' : HoldsPower x (runOps [.sqr a c, .sqr b a] f) c m := h.runOps_of_not_mem hc
  exact ((hb.squarings a n).mul a (hc'.runOps_of_not_mem (mt mem_destsOf_times hc))).of_eq (by ring)

/-- Steps 1 to 13. -/
theorem holdsPower_chain13 (f : Regs) {r : Reg} (hr : r ∉ chainTemps) :
    HoldsPower (residue (f.read r)) (runOps (chain13 r) f) .t0 11 ∧
    HoldsPower (residue (f.read r)) (runOps (chain13 r) f) .t2 (2 ^ 10 - 1) := by
  simp only [chainTemps, Reg.t0, Reg.t1, Reg.t2, List.mem_cons, not_or] at hr
  obtain ⟨h0, h1, h2, -⟩ := hr
  simp only [HoldsPower, chain13, runOps_cons, runOps_nil, MicroOp.read_mul, MicroOp.read_sqr, Reg.t0, Reg.t1, Reg.t2,
    Reg.t3, h0, h1, h2, Fin.reduceEq, if_true, if_false, feMul_residue, feSqr_residue]
  constructor <;> ring

/-- Steps 22 and 23. -/
theorem holdsPower_chain23 {x : GF} {f : Regs} (h3 : HoldsPower x f .t3 (2 ^ 40 - 1))
    (h2 : HoldsPower x f .t2 (2 ^ 10 - 1)) :
    HoldsPower x (runOps chain23 f) .t1 (2 ^ 50 - 1) := by
  rw [chain23, runOps_append]
  exact ((h3.squarings .t1 5).mul .t1 (h2.runOps_of_not_mem (by decide))).of_eq (by norm_num)

/-- What the temporaries hold at the end of the chain for `x`, with the powers `n1` and `n2` in T1 and T2 (R111 to R113). -/
structure ChainPowers (x : GF) (n1 n2 : Nat) (f : Regs) : Prop where
  t0 : HoldsPower x f .t0 11
  t1 : HoldsPower x f .t1 n1
  t2 : HoldsPower x f .t2 n2
  t3 : HoldsPower x f .t3 (2 ^ 250 - 2 ^ 50)
  t4 : HoldsPower x f .t4 (2 ^ 249 - 2 ^ 49)

/-- Steps 32 to 35. -/
theorem chainPowers_chain35 {x : GF} {f : Regs} (h0 : HoldsPower x f .t0 11) (h1 : HoldsPower x f .t1 (2 ^ 50 - 1))
    (h3 : HoldsPower x f .t3 (2 ^ 200 - 1)) : ChainPowers x (2 ^ 251 - 2) (2 ^ 252 - 4) (runOps chain35 f) := by
  have h4 := h3.squarings_behind (a := .t4) (by decide) 24
  have h3 := h3.squarings .t4 25
  have h0 := h0.runOps_of_not_mem (ops := times 25 [.sqr .t4 .t3, .sqr .t3 .t4]) (by decide)
  have h1 := h1.runOps_of_not_mem (ops := times 25 [.sqr .t4 .t3, .sqr .t3 .t4]) (by decide)
  rw [chain35, runOps_append]
  generalize runOps (times 25 [.sqr .t4 .t3, .sqr .t3 .t4]) f = g at h0 h1 h3 h4 ⊢
  have h2 := (h3.mul .t2 h1).sqr .t1
  refine ⟨h0.runOps_of_not_mem (by decide), ?_, ?_, (h3.runOps_of_not_mem (by decide)).of_eq (by norm_num),
    (h4.runOps_of_not_mem (by decide)).of_eq (by norm_num)⟩ <;> simp only [runOps_cons, runOps_nil]
  · exact (h2.apply_of_not_mem (by decide)).of_eq (by norm_num)
  · exact (h2.sqr .t2).of_eq (by norm_num)

/-- Steps 1 to 35. -/
theorem chainPowers_chainOps (f : Regs) {r : Reg} (hr : r ∉ chainTemps) :
    ChainPowers (residue (f.read r)) (2 ^ 251 - 2) (2 ^ 252 - 4) (runOps (chainOps r) f) := by
  simp only [chainOps, runOps_append]
  obtain ⟨h0, h2⟩ := holdsPower_chain13 f hr
  have h1 := h2.doubling chain17_eq (by decide) (k := 2 ^ 20 - 1) (by norm_num)
  have h3 := h1.doubling chain21_eq (by decide) (k := 2 ^ 40 - 1) (by norm_num)
  have h2 := (h2.runOps_of_not_mem (ops := chain17) (by decide)).runOps_of_not_mem (ops := chain21) (by decide)
  have h1 := holdsPower_chain23 h3 h2
  have h2 := h1.doubling chain27_eq (by decide) (k := 2 ^ 100 - 1) (by norm_num)
  have h3 := h2.doubling chain31_eq (by decide) (k := 2 ^ 200 - 1) (by norm_num)
  have h1 := (h1.runOps_of_not_mem (ops := chain27) (by decide)).runOps_of_not_mem (ops := chain31) (by decide)
  refine chainPowers_chain35 ?_ h1 h3
  iterate 5 refine HoldsPower.runOps_of_not_mem ?_ (by decide)
  exact h0

/-! ### RECIP and RECIPS (R112, R113) -/

/-- What a chain and a last MUL into `rd` leave: the power `n` of `x` as a MUL output, and the chain's powers in the
temporaries that `rd` does not name. -/
structure PowerResult (x : GF) (n n1 n2 : Nat) (rd : Reg) (f : Regs) : Prop where
  result : HoldsPower x f rd n
  bound : (f.read rd).toNat < 2 ^ 255 + 1444
  t0 : rd ≠ .t0 → HoldsPower x f .t0 11
  t1 : rd ≠ .t1 → HoldsPower x f .t1 n1
  t2 : rd ≠ .t2 → HoldsPower x f .t2 n2
  t3 : rd ≠ .t3 → HoldsPower x f .t3 (2 ^ 250 - 2 ^ 50)
  t4 : rd ≠ .t4 → HoldsPower x f .t4 (2 ^ 249 - 2 ^ 49)

/-- The last MUL, which alone writes `rd`. -/
theorem ChainPowers.mul {x : GF} {n1 n2 n m k : Nat} {a b : Reg} {f : Regs} (h : ChainPowers x n1 n2 f) (rd : Reg)
    (ha : HoldsPower x f a m) (hb : HoldsPower x f b k) (hn : m + k = n) :
    PowerResult x n n1 n2 rd ((MicroOp.mul rd a b).apply f) := by
  have keep {q : Reg} {e : Nat} (hq : HoldsPower x f q e) (hne : rd ≠ q) :
      HoldsPower x ((MicroOp.mul rd a b).apply f) q e :=
    hq.apply_of_not_mem (mt List.mem_singleton.mp hne.symm)
  refine ⟨(ha.mul rd hb).of_eq hn, ?_, keep h.t0, keep h.t1, keep h.t2, keep h.t3, keep h.t4⟩
  rw [MicroOp.read_mul, if_pos rfl]
  exact feMul_lt _ _

/-- Steps 36 to 38. -/
theorem ChainPowers.squarings {x : GF} {f : Regs} (h : ChainPowers x (2 ^ 251 - 2) (2 ^ 252 - 4) f) :
    ChainPowers x (2 ^ 255 - 32) (2 ^ 254 - 16) (runOps [.sqr .t1 .t2, .sqr .t2 .t1, .sqr .t1 .t2] f) := by
  have h2 := (h.t2.sqr .t1).sqr .t2
  refine ⟨h.t0.runOps_of_not_mem (by decide), ?_, ?_, h.t3.runOps_of_not_mem (by decide),
    h.t4.runOps_of_not_mem (by decide)⟩ <;> simp only [runOps_cons, runOps_nil]
  · exact (h2.sqr .t1).of_eq (by norm_num)
  · exact (h2.apply_of_not_mem (by decide)).of_eq (by norm_num)

section recip

variable (f : Regs) (rd : Reg) {r : Reg} (hr : r ∉ chainTemps)

include hr

theorem powerResult_recipOps :
    PowerResult (residue (f.read r)) (Config.P - 2) (2 ^ 255 - 32) (2 ^ 254 - 16) rd (runOps (recipOps rd r) f) := by
  have h := (chainPowers_chainOps f hr).squarings
  rw [recipOps, runOps_append]
  exact h.mul rd h.t1 h.t0 (by decide)

theorem powerResult_recipsOps :
    PowerResult (residue (f.read r)) ((Config.P - 5) / 8) (2 ^ 251 - 2) (2 ^ 252 - 4) rd (runOps (recipsOps rd r) f) := by
  have h := chainPowers_chainOps f hr
  have hx : HoldsPower (residue (f.read r)) (runOps (chainOps r) f) r 1 := by
    rw [HoldsPower, pow_one, read_runOps (mt destsOf_chainOps hr)]
  rw [recipsOps, runOps_append]
  exact h.mul rd hx h.t2 (by decide)

end recip

theorem destsOf_chainOps_subset (rd r : Reg) : destsOf (chainOps r) ⊆ rd :: chainTemps := fun _ h =>
  List.mem_cons_of_mem rd (destsOf_chainOps h)

theorem destsOf_recipOps_subset (rd r : Reg) : destsOf (recipOps rd r) ⊆ rd :: chainTemps := by
  rw [recipOps, destsOf_append]
  exact List.append_subset.mpr ⟨destsOf_chainOps_subset rd r, by simp [destsOf, MicroOp.dests, chainTemps]⟩

theorem destsOf_recipsOps_subset (rd r : Reg) : destsOf (recipsOps rd r) ⊆ rd :: chainTemps := by
  rw [recipsOps, destsOf_append]
  exact List.append_subset.mpr ⟨destsOf_chainOps_subset rd r, by simp [destsOf, MicroOp.dests]⟩

/-- An instruction whose effect is a sequence of operations leaves the registers as the sequence does, moves PC on and
reaches nothing but the registers the sequence writes. -/
theorem exec_runs_sequence {i : Instr} {s : State} {ops : List MicroOp} {dests : List Reg} (hi : i ≠ .halt)
    (hw : i.wellFormed = true) (hp : s.pc ≠ 255) (hd : dataOk s i = true)
    (he : effect i s = s.withRegs (runOps ops s.regs)) (hops : destsOf ops ⊆ dests) :
    ∃ t, exec i s = .next t ∧ t.regs = runOps ops s.regs ∧ t.pc = s.pc + 1 ∧ Frame dests s t := by
  refine ⟨_, exec_runs hi hw hp hd, ?_⟩
  rw [he]
  exact ⟨rfl, rfl, Frame.withRegs_advance fun q hq => read_runOps (mt (@hops q) hq) s.regs⟩

theorem recip_wellFormed (rd ra : Reg) : (Instr.recip rd ra).wellFormed = true ↔ ra ∉ chainTemps := by
  rw [← operandsOk_eq_wellFormed]
  exact recipSourceOk_iff ra

theorem recips_wellFormed (rd ra : Reg) : (Instr.recips rd ra).wellFormed = true ↔ ra ∉ chainTemps :=
  recip_wellFormed rd ra

theorem wellFormed_eq_false {i : Instr} {r : Reg} {l : List Reg} (hw : i.wellFormed = true ↔ r ∉ l) (h : r ∈ l) :
    i.wellFormed = false :=
  Bool.eq_false_iff.mpr fun ht => hw.mp ht h

/-- Settles O30: the effect is the sequence of R112, and the operand check is that of R110. -/
theorem recipIsThePowerPMinusTwo : Obligations.RecipIsThePowerPMinusTwo := by
  intro rd ra s
  refine ⟨decodeWord_encode (.recip rd ra), fun hra hp => ?_, fun hra => ?_⟩
  · obtain ⟨t, ht, hregs, hpc, hframe⟩ := exec_runs_sequence (i := .recip rd ra) nofun
      ((recip_wellFormed rd ra).mpr hra) hp rfl (ops := recipOps rd ra) rfl (destsOf_recipOps_subset rd ra)
    have h := powerResult_recipOps s.regs rd hra
    rw [← hregs] at h
    exact ⟨t, ht, h.result, h.bound, h.t0, h.t1, h.t2, h.t3, h.t4, hpc, hframe⟩
  · exact exec_illegalOperand nofun (wellFormed_eq_false (recip_wellFormed rd ra) hra)

/-- Settles O31: the effect is the sequence of R113, and the operand check is that of R110. -/
theorem recipsIsThePowerForSquareRoots : Obligations.RecipsIsThePowerForSquareRoots := by
  intro rd ra s
  refine ⟨decodeWord_encode (.recips rd ra), fun hra hp => ?_, fun hra => ?_⟩
  · obtain ⟨t, ht, hregs, hpc, hframe⟩ := exec_runs_sequence (i := .recips rd ra) nofun
      ((recips_wellFormed rd ra).mpr hra) hp rfl (ops := recipsOps rd ra) rfl (destsOf_recipsOps_subset rd ra)
    have h := powerResult_recipsOps s.regs rd hra
    rw [← hregs] at h
    exact ⟨t, ht, h.result, by decide, h.bound, h.t0, h.t1, h.t2, h.t3, h.t4, hpc, hframe⟩
  · exact exec_illegalOperand nofun (wellFormed_eq_false (recips_wellFormed rd ra) hra)

/-! ### SQRT (R114) -/

/-- Steps 3 to 7 of R114. -/
def sqrtFormulaOps : List MicroOp :=
  [.sqr .z0 .x0, .mul .z0 .dx .z0, .set .t0 1, .sub .z0 .z0 .t0, .mul .dx .x0 .z0]

/-- Steps 1 to 7 of R114. -/
def sqrtWorkOps (u : Reg) : List MicroOp := .add .dx u u :: (recipsOps .x0 .dx ++ sqrtFormulaOps)

theorem sqrtOps_eq (rd u : Reg) : sqrtOps rd u = sqrtWorkOps u ++ [.mul rd u .dx] := by
  simp only [sqrtOps, sqrtWorkOps, sqrtFormulaOps, List.cons_append, List.nil_append, List.append_assoc]

/-- The registers SQRT works in. -/
def sqrtTemps : List Reg := [Reg.dx, Reg.x0, Reg.z0] ++ chainTemps

theorem destsOf_sqrtWorkOps_subset (u : Reg) : destsOf (sqrtWorkOps u) ⊆ sqrtTemps := by
  rw [sqrtWorkOps, destsOf, destsOf_append]
  refine List.append_subset.mpr ⟨by simp [MicroOp.dests, sqrtTemps], List.append_subset.mpr ⟨?_, by decide⟩⟩
  exact List.Subset.trans (destsOf_recipsOps_subset .x0 .dx) (by decide)

theorem destsOf_sqrtOps_subset (rd u : Reg) : destsOf (sqrtOps rd u) ⊆ rd :: sqrtTemps := by
  rw [sqrtOps_eq, destsOf_append]
  exact List.append_subset.mpr
    ⟨List.subset_cons_of_subset rd (destsOf_sqrtWorkOps_subset u), by simp [destsOf, MicroOp.dests]⟩

/-- What steps 1 to 7 leave for the source's residue `u` and the power `v` of 2u. -/
structure SqrtValues (u v : GF) (f : Regs) : Prop where
  dx : residue (f.read .dx) = v * (2 * u * v ^ 2 - 1)
  x0 : residue (f.read .x0) = v
  z0 : residue (f.read .z0) = 2 * u * v ^ 2 - 1
  t0 : (f.read .t0).toNat = 1
  t1 : HoldsPower (2 * u) f .t1 (2 ^ 251 - 2)
  t2 : HoldsPower (2 * u) f .t2 (2 ^ 252 - 4)
  t3 : HoldsPower (2 * u) f .t3 (2 ^ 250 - 2 ^ 50)
  t4 : HoldsPower (2 * u) f .t4 (2 ^ 249 - 2 ^ 49)

/-- Steps 3 to 7, from `w` in DX and `v` in X0. -/
theorem residue_sqrtFormulaOps (f : Regs) {v w : GF} (hv : residue (f.read .x0) = v)
    (hw : residue (f.read .dx) = w) :
    residue ((runOps sqrtFormulaOps f).read .dx) = v * (w * v ^ 2 - 1) ∧
    residue ((runOps sqrtFormulaOps f).read .z0) = w * v ^ 2 - 1 ∧
    ((runOps sqrtFormulaOps f).read .t0).toNat = 1 := by
  have one : residue (setValue 1) = 1 := by simp
  subst hv hw
  simp only [sqrtFormulaOps, runOps_cons, runOps_nil, MicroOp.read_mul, MicroOp.read_sqr, MicroOp.read_sub,
    MicroOp.read_set, Reg.dx, Reg.x0, Reg.z0, Reg.t0, Fin.reduceEq, if_true, if_false, feMul_residue, feSqr_residue,
    feSub_residue, one, setValue_toNat]
  decide

theorem sqrtValues_sqrtWorkOps (f : Regs) (r : Reg) {u v : GF} (hu : u = residue (f.read r))
    (hv : v = (2 * u) ^ ((Config.P - 5) / 8)) : SqrtValues u v (runOps (sqrtWorkOps r) f) := by
  have hdx : residue (((MicroOp.add .dx r r).apply f).read .dx) = 2 * u := by
    rw [MicroOp.read_add, if_pos rfl, feAdd_residue, ← hu, two_mul]
  have h := powerResult_recipsOps ((MicroOp.add .dx r r).apply f) .x0 (r := .dx) (by decide)
  have hw : residue ((runOps (recipsOps .x0 .dx) ((MicroOp.add .dx r r).apply f)).read .dx) = 2 * u := by
    rw [read_runOps (mt (@destsOf_recipsOps_subset .x0 .dx _) (by decide)), hdx]
  rw [hdx] at h
  rw [sqrtWorkOps, runOps_cons, runOps_append]
  obtain ⟨hDx, hZ0, hT0⟩ := residue_sqrtFormulaOps _ (h.result.trans hv.symm) hw
  exact
    { dx := hDx
      z0 := hZ0
      t0 := hT0
      x0 := (h.result.runOps_of_not_mem (by decide)).trans hv.symm
      t1 := (h.t1 (by decide)).runOps_of_not_mem (by decide)
      t2 := (h.t2 (by decide)).runOps_of_not_mem (by decide)
      t3 := (h.t3 (by decide)).runOps_of_not_mem (by decide)
      t4 := (h.t4 (by decide)).runOps_of_not_mem (by decide) }

theorem sqrt_wellFormed (rd ra : Reg) : (Instr.sqrt rd ra).wellFormed = true ↔ ra ∉ sqrtTemps := by
  rw [← operandsOk_eq_wellFormed]
  exact (sqrtSourceOk_iff ra).trans (not_congr (List.Perm.mem_iff (by decide)))

/-- Settles O32: the effect is the sequence of R114, whose last MUL alone writes the destination and reads the source. -/
theorem sqrtResult : Obligations.SqrtResult := by
  intro rd ra s
  refine ⟨decodeWord_encode (.sqrt rd ra), fun hra hp => ?_, fun hra => ?_⟩
  · obtain ⟨t, ht, hregs, hpc, hframe⟩ := exec_runs_sequence (i := .sqrt rd ra) nofun
      ((sqrt_wellFormed rd ra).mpr hra) hp rfl (ops := sqrtOps rd ra) rfl (destsOf_sqrtOps_subset rd ra)
    rw [sqrtOps_eq, runOps_append] at hregs
    refine ⟨t, ht, fun u v hu hv => ?_, hpc, hframe⟩
    have h := sqrtValues_sqrtWorkOps s.regs ra hu hv
    have hsource : residue ((runOps (sqrtWorkOps ra) s.regs).read ra) = u := by
      rw [read_runOps (mt (@destsOf_sqrtWorkOps_subset ra _) hra), hu, State.reg_eq]
    have hrd : residue (t.reg rd) = u * v * (2 * u * v ^ 2 - 1) := by
      rw [State.reg_eq, hregs, runOps_cons, runOps_nil, MicroOp.read_mul, if_pos rfl, feMul_residue, hsource, h.dx,
        mul_assoc u v]
    have keep {q : Reg} (hq : rd ≠ q) : t.reg q = (runOps (sqrtWorkOps ra) s.regs).read q := by
      rw [State.reg_eq, hregs, runOps_cons, runOps_nil, MicroOp.read_mul, if_neg hq.symm]
    refine ⟨hrd, fun hq => ?_, fun hq => ?_, fun hq => ?_, fun hq => ?_, fun hq => ?_, fun hq => ?_, fun hq => ?_,
      fun hq => ?_⟩ <;> rw [keep hq]
    exacts [h.dx, h.x0, h.z0, h.t0, h.t1, h.t2, h.t3, h.t4]
  · exact exec_illegalOperand nofun (wellFormed_eq_false (sqrt_wellFormed rd ra) hra)

end Sys2Proof.Machine

/-! The Montgomery point operations: what their sequences write, their operand checks, and the statements of
spec/43_montgomery.md. -/

namespace Sys2Proof.Machine

/-! ### MPREP (R121) -/

theorem mprep_wellFormed (rd ra rb rc : Reg) : (Instr.mprep rd ra rb rc).wellFormed = true ↔ rd ≠ rc :=
  decide_eq_true_iff

/-- MPREP with different destinations leaves the sum in one and the difference in the other, whatever the sources. -/
theorem read_mprepOps (f : Regs) {rd rc : Reg} (h : rd ≠ rc) (ra rb : Reg) :
    (runOps (mprepOps rd ra rb rc) f).read rd = feAdd (f.read ra) (f.read rb) ∧
    (runOps (mprepOps rd ra rb rc) f).read rc = feSub (f.read ra) (f.read rb) := by
  rw [mprepOps, runOps_cons, runOps_nil, MicroOp.read_prep, MicroOp.read_prep, if_neg h, if_pos rfl, if_pos rfl]
  exact ⟨rfl, rfl⟩

/-- Settles O33: the effect is one operation, which reads both sources before it writes. -/
theorem mprepWritesSumAndDifference : Obligations.MprepWritesSumAndDifference := by
  intro rd ra rb rc s
  refine ⟨decodeWord_encode (.mprep rd ra rb rc), fun hne hp => ?_, fun heq => ?_⟩
  · obtain ⟨t, ht, hregs, hpc, hframe⟩ := exec_runs_sequence (i := .mprep rd ra rb rc) nofun
      ((mprep_wellFormed rd ra rb rc).mpr hne) hp rfl (ops := mprepOps rd ra rb rc) rfl (List.Subset.refl [rd, rc])
    obtain ⟨hsum, hdiff⟩ := read_mprepOps s.regs hne ra rb
    rw [← hregs] at hsum hdiff
    refine ⟨t, ht, ?_, ?_, ?_, ?_, hpc, hframe⟩
    · exact (congrArg BitVec.toNat hsum).trans (feAdd_toNat _ _)
    · exact (congrArg BitVec.toNat hdiff).trans (feSub_toNat _ _)
    · exact (congrArg residue hsum).trans (feAdd_residue _ _)
    · exact (congrArg residue hdiff).trans (feSub_residue _ _)
  · exact exec_illegalOperand nofun (decide_eq_false (not_not_intro heq))

/-! ### MADD (R122) -/

theorem madd_wellFormed (ra rb rc : Reg) : (Instr.madd ra rb rc).wellFormed = true ↔
    ra ≠ rb ∧ ra ≠ rc ∧ rb ≠ rc ∧ ra.val < 12 ∧ rb.val < 12 ∧ rc.val < 12 := decide_eq_true_iff

theorem madd_wellFormed_eq_false {ra rb rc : Reg}
    (h : ra = rb ∨ ra = rc ∨ rb = rc ∨ 12 ≤ ra.val ∨ 12 ≤ rb.val ∨ 12 ≤ rc.val) :
    (Instr.madd ra rb rc).wellFormed = false := by
  rw [Bool.eq_false_iff, ne_eq, madd_wellFormed]
  simpa only [ne_eq, not_and_or, not_not, not_lt] using h

theorem destsOf_maddOps_subset (x z d : Reg) : destsOf (maddOps x z d) ⊆ [x, z, Reg.t1, Reg.t2] := by
  simp [maddOps, destsOf, MicroOp.dests]

/-- Settles O34: the effect is the sequence of R122, and the residues are those of the values it leaves. -/
theorem maddResult : Obligations.MaddResult := by
  intro ra rb rc s
  refine ⟨decodeWord_encode (.madd ra rb rc), fun hab hac hbc ha hb hc hp => ?_, fun hbad => ?_⟩
  · obtain ⟨t, ht, hregs, hpc, hframe⟩ := exec_runs_sequence (i := .madd ra rb rc) nofun
      ((madd_wellFormed ra rb rc).mpr ⟨hab, hac, hbc, ha, hb, hc⟩) hp rfl (ops := maddOps ra rb rc) rfl
      (destsOf_maddOps_subset ra rb rc)
    have values {m n : Fe} := read_maddOps s.regs hab hac hbc ha hb hc (m := m) (n := n)
    simp only [← hregs, ← State.reg_eq] at values
    refine ⟨t, ht, fun _ _ => values, fun a b hA hB => ?_, hpc, hframe⟩
    obtain ⟨hx, hz, -, -⟩ := values rfl rfl
    rw [hx, hz, hA, hB]
    simp only [feSqr_residue, feAdd_residue, feSub_residue, feMul_residue, mul_comm (residue (s.reg rc)), and_self]
  · exact exec_illegalOperand nofun (madd_wellFormed_eq_false hbad)

/-! ### MDBL (R123) -/

theorem mdbl_wellFormed (ra rb : Reg) : (Instr.mdbl ra rb).wellFormed = true ↔
    ra ≠ rb ∧ ra.val < 12 ∧ rb.val < 12 := decide_eq_true_iff

theorem mdbl_wellFormed_eq_false {ra rb : Reg} (h : ra = rb ∨ 12 ≤ ra.val ∨ 12 ≤ rb.val) :
    (Instr.mdbl ra rb).wellFormed = false := by
  rw [Bool.eq_false_iff, ne_eq, mdbl_wellFormed]
  simpa only [ne_eq, not_and_or, not_not, not_lt] using h

theorem destsOf_mdblOps_subset (x z : Reg) : destsOf (mdblOps x z) ⊆ [x, z, Reg.t1, Reg.t2] := by
  simp [mdblOps, destsOf, MicroOp.dests]

/-- The curve constant is in the range of a multiplier. -/
theorem feMuls_a24_residue (v : Fe) : residue (feMuls v 121665) = 121665 * residue v :=
  (feMuls_residue v (by decide) (by decide)).trans (by norm_cast)

/-- Settles O35: the effect is the sequence of R123, and the residues are those of the values it leaves. -/
theorem mdblResult : Obligations.MdblResult := by
  intro ra rb s
  refine ⟨decodeWord_encode (.mdbl ra rb), fun hab ha hb hp => ?_, fun hbad => ?_⟩
  · obtain ⟨t, ht, hregs, hpc, hframe⟩ := exec_runs_sequence (i := .mdbl ra rb) nofun
      ((mdbl_wellFormed ra rb).mpr ⟨hab, ha, hb⟩) hp rfl (ops := mdblOps ra rb) rfl (destsOf_mdblOps_subset ra rb)
    have values {p m : Fe} := read_mdblOps s.regs hab ha hb (p := p) (m := m)
    simp only [← hregs, ← State.reg_eq] at values
    refine ⟨t, ht, fun _ _ _ hp hm he => he ▸ values hp hm, fun p m hp hm => ?_, hpc, hframe⟩
    obtain ⟨hx, hz, -, -⟩ := values rfl rfl
    rw [hx, hz, hp, hm]
    simp only [feSqr_residue, feAdd_residue, feSub_residue, feMul_residue, feMuls_a24_residue, and_self]
  · exact exec_illegalOperand nofun (mdbl_wellFormed_eq_false hbad)

end Sys2Proof.Machine

/-! The ladder: one step and all 256 against the x-only formulas, the affine extraction, the degenerate inputs, and the
statements of spec/44_ladder.md. -/

namespace Sys2Proof.Machine

/-! ### The two slots (R132) -/

/-- The point that slot `b` of a register file stands for. -/
def pointAt (f : Regs) (b : Bool) : XZ := ⟨residue (f.read (slotX b)), residue (f.read (slotZ b))⟩

/-- The two slots that a register file stands for. -/
def slotsOf (f : Regs) : Slots := ⟨pointAt f false, pointAt f true⟩

theorem pointAt_runOps_of_not_mem {ops : List MicroOp} {b : Bool} (hx : slotX b ∉ destsOf ops)
    (hz : slotZ b ∉ destsOf ops) (f : Regs) : pointAt (runOps ops f) b = pointAt f b := by
  rw [pointAt, read_runOps hx, read_runOps hz, pointAt]

/-- The registers of a slot are operands that MADD, with DX for the difference, and MDBL allow. -/
theorem slot_regs (b : Bool) :
    slotX b ≠ slotZ b ∧ slotX b ≠ .dx ∧ slotZ b ≠ .dx ∧ (slotX b).val < 12 ∧ (slotZ b).val < 12 := by
  cases b <;> decide

/-! ### One step (R132) -/

/-- The two MPREPs of a step. -/
def stepPrepOps (b : Bool) : List MicroOp :=
  mprepOps .t1 (slotX !b) (slotZ !b) .t2 ++ mprepOps .t3 (slotX b) (slotZ b) .t4

theorem stepOps_eq (b : Bool) :
    stepOps b = stepPrepOps b ++ (maddOps (slotX !b) (slotZ !b) .dx ++ mdblOps (slotX b) (slotZ b)) := by
  rw [stepOps, stepPrepOps, List.append_assoc]

/-- The MPREPs leave the sum and the difference of slot A in T1 and T2 and of slot B in T3 and T4. -/
theorem read_stepPrepOps (f : Regs) (b : Bool) :
    (runOps (stepPrepOps b) f).read .t1 = feAdd (f.read (slotX !b)) (f.read (slotZ !b)) ∧
    (runOps (stepPrepOps b) f).read .t2 = feSub (f.read (slotX !b)) (f.read (slotZ !b)) ∧
    (runOps (stepPrepOps b) f).read .t3 = feAdd (f.read (slotX b)) (f.read (slotZ b)) ∧
    (runOps (stepPrepOps b) f).read .t4 = feSub (f.read (slotX b)) (f.read (slotZ b)) := by
  rw [stepPrepOps, runOps_append]
  obtain ⟨h1, h2⟩ := read_mprepOps f (rd := .t1) (rc := .t2) (by decide) (slotX !b) (slotZ !b)
  obtain ⟨h3, h4⟩ := read_mprepOps (runOps (mprepOps .t1 (slotX !b) (slotZ !b) .t2) f) (rd := .t3) (rc := .t4)
    (by decide) (slotX b) (slotZ b)
  have hx : slotX b ∉ destsOf (mprepOps .t1 (slotX !b) (slotZ !b) .t2) := by cases b <;> decide
  have hz : slotZ b ∉ destsOf (mprepOps .t1 (slotX !b) (slotZ !b) .t2) := by cases b <;> decide
  rw [read_runOps hx, read_runOps hz] at h3 h4
  refine ⟨?_, ?_, h3, h4⟩
  · rw [read_runOps (q := .t1) (by cases b <;> decide), h1]
  · rw [read_runOps (q := .t2) (by cases b <;> decide), h2]

/-- A step adds slot A and slot B into slot A. -/
theorem pointAt_stepOps_not (f : Regs) (b : Bool) :
    pointAt (runOps (stepOps b) f) (!b) = XZ.add (residue (f.read .dx)) (pointAt f !b) (pointAt f b) := by
  obtain ⟨hxz, hxd, hzd, hx, hz⟩ := slot_regs !b
  obtain ⟨h1, h2, h3, h4⟩ := read_stepPrepOps f b
  obtain ⟨hX, hZ, -, -⟩ := read_maddOps (runOps (stepPrepOps b) f) hxz hxd hzd hx hz (by decide) rfl rfl
  rw [read_runOps (q := .dx) (ops := stepPrepOps b) (by cases b <;> decide)] at hZ
  rw [stepOps_eq, runOps_append, runOps_append, pointAt_runOps_of_not_mem (by cases b <;> decide) (by cases b <;> decide),
    pointAt, hX, hZ, h1, h2, h3, h4]
  simp only [XZ.add, pointAt, feSqr_residue, feAdd_residue, feSub_residue, feMul_residue, mul_comm (residue (f.read .dx))]

/-- MDBL's exact results in slot B, from the old contents of slot B. -/
theorem read_stepOps_double (f : Regs) (b : Bool) {p m : Fe}
    (hp : p = feSqr (feAdd (f.read (slotX b)) (f.read (slotZ b))))
    (hm : m = feSqr (feSub (f.read (slotX b)) (f.read (slotZ b)))) :
    (runOps (stepOps b) f).read (slotX b) = feMul p m ∧
    (runOps (stepOps b) f).read (slotZ b) = feMul (feAdd p (feMuls (feSub p m) 121665)) (feSub p m) := by
  obtain ⟨hxz, -, -, hx, hz⟩ := slot_regs b
  obtain ⟨-, -, h3, h4⟩ := read_stepPrepOps f b
  rw [stepOps_eq, runOps_append, runOps_append]
  generalize hg : runOps (stepPrepOps b) f = g at h3 h4 ⊢
  have keep {q : Reg} (hq : q ∉ destsOf (maddOps (slotX !b) (slotZ !b) .dx)) := read_runOps hq g
  obtain ⟨hX, hZ, -, -⟩ := read_mdblOps (runOps (maddOps (slotX !b) (slotZ !b) .dx) g) hxz hx hz (p := p) (m := m)
    (by rw [keep (by cases b <;> decide), h3, hp]) (by rw [keep (by cases b <;> decide), h4, hm])
  exact ⟨hX, hZ⟩

/-- A step doubles slot B. -/
theorem pointAt_stepOps (f : Regs) (b : Bool) : pointAt (runOps (stepOps b) f) b = (pointAt f b).double := by
  obtain ⟨hX, hZ⟩ := read_stepOps_double f b rfl rfl
  rw [pointAt, hX, hZ]
  simp only [XZ.double, pointAt, feSqr_residue, feAdd_residue, feSub_residue, feMul_residue, feMuls_a24_residue]

theorem slotsOf_stepOps (f : Regs) (b : Bool) :
    slotsOf (runOps (stepOps b) f) = (slotsOf f).step (residue (f.read .dx)) b := by
  have hsum := pointAt_stepOps_not f b
  have hdouble := pointAt_stepOps f b
  cases b with
  | false => exact congrArg₂ Slots.mk hdouble hsum
  | true => exact congrArg₂ Slots.mk hsum hdouble

/-! ### The 256 steps (R131, R133) -/

theorem destsOf_stepOps_subset (b : Bool) : destsOf (stepOps b) ⊆ [8, 9, 10, 11, 12, 13, 14, 15] := by
  cases b <;> decide

theorem destsOf_stepsOps_subset (k : Fe) (n : Nat) : destsOf (stepsOps k n) ⊆ [8, 9, 10, 11, 12, 13, 14, 15] := by
  induction n with
  | zero => exact List.nil_subset _
  | succ n ih =>
    rw [stepsOps, destsOf_append]
    exact List.append_subset.mpr ⟨destsOf_stepOps_subset _, ih⟩

theorem slotsOf_stepsOps (k : Fe) (n : Nat) (f : Regs) :
    slotsOf (runOps (stepsOps k n) f) = Slots.steps (residue (f.read .dx)) k n (slotsOf f) := by
  induction n generalizing f with
  | zero => rfl
  | succ n ih =>
    have hdx : (runOps (stepOps (k.getLsbD n)) f).read .dx = f.read .dx :=
      read_runOps (mt (@destsOf_stepOps_subset _ _) (by decide)) f
    rw [stepsOps, runOps_append, ih, hdx, slotsOf_stepOps, Slots.steps]

/-! ### The whole sequence (R131, R134) -/

/-- The initialisation after DX is set. -/
def slotInitOps : List MicroOp := [.set .x0 1, .set .z0 0, .cpy .x1 .dx, .set .z1 1]

/-- Everything of LADDER and LADDERG but the operation that sets DX. -/
def ladderBody (k : Fe) : List MicroOp := slotInitOps ++ ladderTail k

theorem destsOf_ladderBody_subset (k : Fe) : destsOf (ladderBody k) ⊆ workingRegs := by
  simp only [ladderBody, ladderTail, destsOf_append]
  refine List.append_subset.mpr ⟨by decide, List.append_subset.mpr ⟨List.append_subset.mpr ⟨?_, ?_⟩, by decide⟩⟩
  · exact List.Subset.trans (destsOf_stepsOps_subset k 256) (by decide)
  · exact List.Subset.trans (destsOf_recipOps_subset .t1 .z0) (by decide)

/-- The registers before the affine extraction. -/
def ladderRegs (k : Fe) (f : Regs) : Regs := runOps (stepsOps k 256) (runOps slotInitOps f)

theorem runOps_ladderBody (k : Fe) (f : Regs) :
    runOps (ladderBody k) f = (MicroOp.mul .dx .x0 .t1).apply (runOps (recipOps .t1 .z0) (ladderRegs k f)) := by
  rw [ladderBody, ladderTail, runOps_append, runOps_append, runOps_append, runOps_cons, runOps_nil, ladderRegs]

/-- The initialisation makes ((1 : 0), (x : 1)) for the x-coordinate in DX. -/
theorem slotsOf_slotInitOps (f : Regs) : slotsOf (runOps slotInitOps f) = ⟨⟨1, 0⟩, ⟨residue (f.read .dx), 1⟩⟩ := by
  have one : residue (setValue 1) = 1 := by simp
  have zero : residue (setValue 0) = 0 := by simp
  simp only [slotsOf, pointAt, slotX, slotZ, slotInitOps, runOps_cons, runOps_nil, MicroOp.read_set, MicroOp.read_cpy,
    Reg.dx, Reg.x0, Reg.z0, Reg.x1, Reg.z1, Fin.reduceEq, Bool.false_eq_true, if_true, if_false, one, zero]

theorem slotsOf_ladderRegs (k : Fe) (f : Regs) : slotsOf (ladderRegs k f) = ladderSlots (residue (f.read .dx)) k := by
  rw [ladderRegs, slotsOf_stepsOps, slotsOf_slotInitOps, read_runOps (by decide), ladderSlots]

theorem read_recipOps_of_not_mem {rd r q : Reg} (hq : q ∉ rd :: chainTemps) (f : Regs) :
    (runOps (recipOps rd r) f).read q = f.read q :=
  read_runOps (mt (@destsOf_recipOps_subset rd r q) hq) f

/-- What R134 says, from the x-coordinate in DX. -/
theorem ladderResult_of_regs {k : Fe} {f : Regs} {t : State} (ht : t.regs = runOps (ladderBody k) f) :
    LadderResult (residue (f.read .dx)) k t := by
  have hslots := slotsOf_ladderRegs k f
  have h := powerResult_recipOps (ladderRegs k f) .t1 (r := .z0) (by decide)
  have keep {q : Reg} (hq : q ∉ Reg.t1 :: chainTemps) := read_recipOps_of_not_mem (r := .z0) hq (ladderRegs k f)
  have hreg {q : Reg} (hq : q ≠ .dx) : t.reg q = (runOps (recipOps .t1 .z0) (ladderRegs k f)).read q := by
    rw [State.reg_eq, ht, runOps_ladderBody, MicroOp.read_mul, if_neg hq]
  have hdx : t.reg .dx = feMul ((ladderRegs k f).read .x0) ((runOps (recipOps .t1 .z0) (ladderRegs k f)).read .t1) := by
    rw [State.reg_eq, ht, runOps_ladderBody, MicroOp.read_mul, if_pos rfl, keep (by decide)]
  exact
    { x0 := by rw [hreg (by decide), keep (by decide), ← hslots]; rfl
      z0 := by rw [hreg (by decide), keep (by decide), ← hslots]; rfl
      x1 := by rw [hreg (by decide), keep (by decide), ← hslots]; rfl
      z1 := by rw [hreg (by decide), keep (by decide), ← hslots]; rfl
      t1 := by rw [hreg (by decide), ← hslots]; exact h.result
      dx := by rw [hdx, feMul_residue, h.result, ← hslots]; rfl
      dxBound := by rw [hdx]; exact feMul_lt _ _
      t0 := by rw [hreg (by decide), ← hslots]; exact h.t0 (by decide)
      t2 := by rw [hreg (by decide), ← hslots]; exact h.t2 (by decide)
      t3 := by rw [hreg (by decide), ← hslots]; exact h.t3 (by decide)
      t4 := by rw [hreg (by decide), ← hslots]; exact h.t4 (by decide) }

/-- An instruction that sets DX and goes on as the ladder leaves what R134 says, moves PC on and reaches nothing but the
working registers. -/
theorem exec_runs_ladder {i : Instr} {s : State} {op : MicroOp} (hi : i ≠ .halt) (hw : i.wellFormed = true)
    (hp : s.pc ≠ 255) (hd : dataOk s i = true) (he : effect i s = s.withRegs (runOps (op :: ladderBody s.k) s.regs))
    (hop : op.dests = [.dx]) :
    ∃ t, exec i s = .next t ∧ t.regs = runOps (ladderBody s.k) (op.apply s.regs) ∧
      LadderResult (residue ((op.apply s.regs).read .dx)) s.k t ∧ t.pc = s.pc + 1 ∧ Frame workingRegs s t := by
  have hops : destsOf (op :: ladderBody s.k) ⊆ workingRegs := by
    rw [destsOf, hop]
    exact List.append_subset.mpr ⟨by decide, destsOf_ladderBody_subset s.k⟩
  obtain ⟨t, ht, hregs, hpc, hframe⟩ := exec_runs_sequence hi hw hp hd he hops
  rw [runOps_cons] at hregs
  exact ⟨t, ht, hregs, ladderResult_of_regs hregs, hpc, hframe⟩

theorem exec_ladderg {s : State} (hp : s.pc ≠ 255) :
    ∃ t, exec .ladderg s = .next t ∧
      t.regs = runOps (ladderBody s.k) ((MicroOp.set .dx Config.GX).apply s.regs) ∧
      LadderResult 9 s.k t ∧ t.pc = s.pc + 1 ∧ Frame workingRegs s t := by
  obtain ⟨t, ht, hregs, h, hpc, hframe⟩ :=
    exec_runs_ladder (i := .ladderg) (op := .set .dx Config.GX) nofun rfl hp rfl rfl rfl
  rw [MicroOp.read_set, if_pos rfl, setValue_residue] at h
  exact ⟨t, ht, hregs, h, hpc, hframe⟩

/-- Settles O36: the sequence of R131, whose steps are those of the field ladder. -/
theorem ladderRefinesTheFieldLadder : Obligations.LadderRefinesTheFieldLadder := by
  intro ra s
  refine ⟨decodeWord_encode (.ladder ra), fun hp => ?_⟩
  obtain ⟨t, ht, -, h, hpc, hframe⟩ :=
    exec_runs_ladder (i := .ladder ra) (op := .cpy .dx ra) nofun rfl hp rfl rfl rfl
  rw [MicroOp.read_cpy, if_pos rfl] at h
  exact ⟨t, ht, h, hpc, hframe⟩

/-- Settles O37: the sequence of R135, which differs from that of LADDER in what it sets DX to. -/
theorem laddergRefinesTheFieldLadder : Obligations.LaddergRefinesTheFieldLadder := by
  intro s
  refine ⟨decodeWord_encode .ladderg, fun hp => ?_⟩
  obtain ⟨t, ht, -, h, hpc, hframe⟩ := exec_ladderg hp
  exact ⟨t, ht, h, hpc, hframe⟩

/-! ### The degenerate inputs (R136 (c)) -/

/-- The point at infinity is its own double. -/
theorem XZ.double_infinity : XZ.double ⟨1, 0⟩ = ⟨1, 0⟩ := by
  simp [XZ.double]

theorem getLsbD_zero_fe (n : Nat) : (0 : Fe).getLsbD n = false := BitVec.getLsbD_zero

/-- For K = 0 slot 0 keeps the point at infinity. -/
theorem Slots.steps_zero_slot0 (d : GF) (n : Nat) {S : Slots} (h : S.slot0 = ⟨1, 0⟩) :
    (Slots.steps d 0 n S).slot0 = ⟨1, 0⟩ := by
  induction n generalizing S with
  | zero => exact h
  | succ n ih =>
    rw [Slots.steps, getLsbD_zero_fe]
    exact ih ((congrArg XZ.double h).trans XZ.double_infinity)

theorem ladderSlots_zero_slot0 (d : GF) : (ladderSlots d 0).slot0 = ⟨1, 0⟩ := Slots.steps_zero_slot0 d 256 rfl

/-- A point whose affine x-coordinate, as the extraction computes it, is 0. -/
def XZ.Degenerate (A : XZ) : Prop := A.x = 0 ∨ A.z = 0

theorem XZ.Degenerate.affine {A : XZ} (h : A.Degenerate) : A.x * A.z ^ (Config.P - 2) = 0 := by
  rcases h with hx | hz
  · rw [hx, zero_mul]
  · rw [hz, zero_pow (by decide), mul_zero]

theorem XZ.Degenerate.double {A : XZ} (h : A.Degenerate) : A.double.Degenerate := by
  have he : (A.x + A.z) ^ 2 - (A.x - A.z) ^ 2 = 0 := by
    rcases h with hx | hz
    · rw [hx]; ring
    · rw [hz]; ring
  exact .inr (mul_eq_zero_of_right _ he)

/-- A sum whose difference has x-coordinate 0. -/
theorem XZ.degenerate_add_zero (A B : XZ) : (XZ.add 0 A B).Degenerate := .inr (zero_mul _)

/-- For a base of 0 both slots stay degenerate, whatever the key bits. -/
theorem Slots.degenerate_steps (k : Fe) (n : Nat) {S : Slots} (h0 : S.slot0.Degenerate) (h1 : S.slot1.Degenerate) :
    (Slots.steps 0 k n S).slot0.Degenerate := by
  induction n generalizing S with
  | zero => exact h0
  | succ n ih =>
    rw [Slots.steps]
    cases k.getLsbD n with
    | false => exact ih h0.double (XZ.degenerate_add_zero _ _)
    | true => exact ih (XZ.degenerate_add_zero _ _) h1.double

/-- The slot that the result is extracted from is degenerate for K = 0 and for a base of 0. -/
theorem degenerate_ladderSlots {d : GF} {k : Fe} (h : k = 0 ∨ d = 0) : (ladderSlots d k).slot0.Degenerate := by
  rcases h with rfl | rfl
  · rw [ladderSlots_zero_slot0]
    exact .inr rfl
  · exact Slots.degenerate_steps k 256 (.inr rfl) (.inl rfl)

theorem LadderResult.dx_eq_zero {d : GF} {k : Fe} {t : State} (h : LadderResult d k t) (hdk : k = 0 ∨ d = 0) :
    residue (t.reg .dx) = 0 :=
  h.dx.trans (degenerate_ladderSlots hdk).affine

theorem LadderResult.z0_eq_zero {d : GF} {t : State} (h : LadderResult d 0 t) : residue (t.reg .z0) = 0 := by
  rw [h.z0, ladderSlots_zero_slot0]

/-! ### Contents that are not 0 bit for bit

A result ≡ 0 is P itself, and not the integer 0, because a fold of a positive integer is positive: a difference is never 0,
and a sum or a product of contents that are not 0 is not 0. -/

theorem fold1_pos {t : Nat} (h : 0 < t) : 0 < fold1 t := by
  unfold fold1; omega

theorem ne_zero_of_toNat_pos {v : Fe} (h : 0 < v.toNat) : v ≠ 0 := by
  rintro rfl
  exact absurd h (by decide)

theorem toNat_pos_of_ne_zero {v : Fe} (h : v ≠ 0) : 0 < v.toNat :=
  Nat.pos_of_ne_zero fun e => h (BitVec.eq_of_toNat_eq e)

theorem feSub_ne_zero (a b : Fe) : feSub a b ≠ 0 := by
  have hb := b.isLt
  refine ne_zero_of_toNat_pos ?_
  rw [feSub_toNat, P_eq]
  exact fold1_pos (by omega)

section ne_zero

variable {a : Fe} (ha : a ≠ 0)

include ha

theorem feAdd_ne_zero (b : Fe) : feAdd a b ≠ 0 := by
  refine ne_zero_of_toNat_pos ?_
  rw [feAdd_toNat]
  exact fold1_pos (Nat.add_pos_left (toNat_pos_of_ne_zero ha) _)

theorem feMul_ne_zero {b : Fe} (hb : b ≠ 0) : feMul a b ≠ 0 := by
  refine ne_zero_of_toNat_pos ?_
  rw [feMul_toNat]
  exact fold1_pos (fold1_pos (Nat.mul_pos (toNat_pos_of_ne_zero ha) (toNat_pos_of_ne_zero hb)))

theorem feSqr_ne_zero : feSqr a ≠ 0 := feMul_ne_zero ha ha

end ne_zero

/-- A lazy value that is ≡ 0 and not 0 is P. -/
theorem toNat_eq_P {v : Fe} (hres : residue v = 0) (hlt : v.toNat < 2 ^ 255 + 1444) (hne : v ≠ 0) :
    v.toNat = Config.P := by
  obtain ⟨c, hc⟩ := (ZMod.natCast_eq_zero_iff v.toNat Config.P).mp hres
  have hpos := toNat_pos_of_ne_zero hne
  rw [P_eq] at hc ⊢
  omega

/-- A step for key bit 0 leaves neither register of slot 0 at 0 if X0 is not. -/
theorem stepOps_false_ne_zero {f : Regs} (h : f.read .x0 ≠ 0) :
    (runOps (stepOps false) f).read .x0 ≠ 0 ∧ (runOps (stepOps false) f).read .z0 ≠ 0 := by
  obtain ⟨hX, hZ⟩ := read_stepOps_double f false rfl rfl
  have hp := feSqr_ne_zero (feAdd_ne_zero h (f.read .z0))
  have hm := feSqr_ne_zero (feSub_ne_zero (f.read .x0) (f.read .z0))
  exact ⟨hX ▸ feMul_ne_zero hp hm, hZ ▸ feMul_ne_zero (feAdd_ne_zero hp _) (feSub_ne_zero _ _)⟩

theorem stepsOps_zero_ne_zero (n : Nat) {f : Regs} (h : f.read .x0 ≠ 0) :
    (runOps (stepsOps 0 (n + 1)) f).read .x0 ≠ 0 ∧ (runOps (stepsOps 0 (n + 1)) f).read .z0 ≠ 0 := by
  have hstep := stepOps_false_ne_zero h
  rw [stepsOps, getLsbD_zero_fe, runOps_append]
  induction n generalizing f with
  | zero => exact hstep
  | succ n ih =>
    rw [stepsOps, getLsbD_zero_fe, runOps_append]
    exact ih hstep.1 (stepOps_false_ne_zero hstep.1)

theorem ladderRegs_zero_ne_zero (f : Regs) : (ladderRegs 0 f).read .x0 ≠ 0 ∧ (ladderRegs 0 f).read .z0 ≠ 0 := by
  refine stepsOps_zero_ne_zero 255 ?_
  have hx0 : (runOps slotInitOps f).read .x0 = setValue 1 := by
    rw [slotInitOps, runOps_cons, read_runOps (by decide), MicroOp.read_set, if_pos rfl]
  rw [hx0]
  decide

/-- No register of `l` is 0. -/
def NonzeroOn (l : List Reg) (f : Regs) : Prop := ∀ r ∈ l, f.read r ≠ 0

/-- Every operation is a SQR or a MUL of registers of `l` and of registers written earlier. -/
def productsOf (l : List Reg) : List MicroOp → Bool
  | [] => true
  | .sqr rd ra :: ops => decide (ra ∈ l) && productsOf (l.insert rd) ops
  | .mul rd ra rb :: ops => decide (ra ∈ l) && decide (rb ∈ l) && productsOf (l.insert rd) ops
  | _ :: _ => false

theorem NonzeroOn.write {l : List Reg} {f : Regs} (h : NonzeroOn l f) (r : Reg) {v : Fe} (hv : v ≠ 0) :
    NonzeroOn (l.insert r) (f.write r v) := by
  intro q hq
  rw [Regs.read_write]
  split
  · exact hv
  · next hne => exact h q ((List.mem_insert_iff.mp hq).resolve_left hne)

/-- Products of registers that are not 0 leave no register at 0. -/
theorem NonzeroOn.runOps_products {l : List Reg} {ops : List MicroOp} {f : Regs} (h : NonzeroOn l f)
    (hops : productsOf l ops = true) : NonzeroOn (l ++ destsOf ops) (runOps ops f) := by
  induction ops generalizing l f with
  | nil => rwa [destsOf, List.append_nil]
  | cons op ops ih =>
    have step {rd : Reg} {v : Fe} (hv : v ≠ 0) (hrest : productsOf (l.insert rd) ops = true) :
        NonzeroOn (l ++ rd :: destsOf ops) (runOps ops (f.write rd v)) := fun q hq =>
      ih (h.write rd hv) hrest q (by simpa [or_assoc, or_left_comm] using hq)
    cases op with
    | sqr rd ra =>
      rw [productsOf, Bool.and_eq_true, decide_eq_true_iff] at hops
      exact step (feSqr_ne_zero (h ra hops.1)) hops.2
    | mul rd ra rb =>
      simp only [productsOf, Bool.and_eq_true, decide_eq_true_iff] at hops
      obtain ⟨⟨ha, hb⟩, hrest⟩ := hops
      exact step (feMul_ne_zero (h ra ha) (h rb hb)) hrest
    | set | cpy | add | sub | muls | reduce | prep => exact absurd hops (by simp [productsOf])

theorem NonzeroOn.mono {l m : List Reg} {f : Regs} (h : NonzeroOn l f) (hm : m ⊆ l) : NonzeroOn m f :=
  fun r hr => h r (hm hr)

theorem NonzeroOn.runOps_keep {l : List Reg} {ops : List MicroOp} {f : Regs} (h : NonzeroOn l f)
    (hops : productsOf l ops = true) : NonzeroOn l (runOps ops f) :=
  (h.runOps_products hops).mono (List.subset_append_left _ _)

/-- RECIP is a sequence of products: of a content that is not 0 it does not leave 0, though the residue may be 0. -/
theorem recipOps_ne_zero {f : Regs} (h : f.read .z0 ≠ 0) : (runOps (recipOps .t1 .z0) f).read .t1 ≠ 0 := by
  have hz0 : NonzeroOn [.z0] f := List.forall_mem_singleton.mpr h
  have h13 : NonzeroOn [.t0, .t1, .t2, .t3] (runOps (chain13 .z0) f) := (hz0.runOps_products (by decide)).mono (by decide)
  have h21 : NonzeroOn chainTemps (runOps chain21 (runOps chain17 (runOps (chain13 .z0) f))) :=
    ((h13.runOps_keep (by decide)).runOps_products (by decide)).mono (by decide)
  have h27 := (h21.runOps_keep (ops := chain23) (by decide)).runOps_keep (ops := chain27) (by decide)
  have h35 := (h27.runOps_keep (ops := chain31) (by decide)).runOps_keep (ops := chain35) (by decide)
  simp only [recipOps, chainOps, runOps_append]
  exact h35.runOps_keep (by decide) .t1 (by decide)

/-- For K = 0 the result is not 0 bit for bit. -/
theorem ladderBody_zero_ne_zero (f : Regs) : (runOps (ladderBody 0) f).read .dx ≠ 0 := by
  obtain ⟨hx0, hz0⟩ := ladderRegs_zero_ne_zero f
  rw [runOps_ladderBody, MicroOp.read_mul, if_pos rfl, read_recipOps_of_not_mem (by decide)]
  exact feMul_ne_zero hx0 (recipOps_ne_zero hz0)

/-- Settles O38: slot 0 is the point at infinity for K = 0 and degenerate for a base of 0; of the two lazy values ≡ 0 the
result is P, because no product on the way to it is of a content that is 0. -/
theorem degenerateLadderInputsGiveZero : Obligations.DegenerateLadderInputsGiveZero := by
  refine ⟨fun ra s hp hdeg => ?_, fun s hp hk => ?_⟩
  · obtain ⟨-, hrefines⟩ := ladderRefinesTheFieldLadder ra s
    obtain ⟨t, ht, h, -, hframe⟩ := hrefines hp
    exact ⟨t, ht, hframe.run, h.dx_eq_zero hdeg, fun hk => LadderResult.z0_eq_zero (hk ▸ h)⟩
  · obtain ⟨t, ht, hregs, h, -, hframe⟩ := exec_ladderg hp
    rw [hk] at hregs h
    have hdx : residue (t.reg .dx) = 0 := h.dx_eq_zero (.inl rfl)
    have hne : t.reg .dx ≠ 0 := by
      rw [State.reg_eq, hregs]
      exact ladderBody_zero_ne_zero _
    exact ⟨t, ht, hframe.run, toNat_eq_P hdx h.dxBound hne, hdx, h.z0_eq_zero⟩

end Sys2Proof.Machine

/-! Control: HALT, the last word and the length of a run, and the statements of spec/45_control.md. -/

namespace Sys2Proof.Machine

/-! ### The instruction at PC (R141) -/

/-- The bytes at PC are one word, so they decode as the word does. -/
theorem decodeWord_fetchWord_of_decode {s : State} {i : Instr} {rest : List Byte}
    (h : decode s.fetchBytes = .ok (i, rest)) : decodeWord s.fetchWord = .ok i := by
  simp only [State.fetchBytes, State.imemRead, decode] at h
  split at h
  · next hd =>
    cases h
    exact hd
  · cases h

/-- Settles O5: either way it is the unit's turn, and the bytes at PC decode as their word. -/
theorem stepRunsTheDecodedInstruction : Obligations.StepRunsTheDecodedInstruction := by
  intro s i hr hd
  have hw := decodeWord_fetchWord_of_decode hd
  exact ⟨fun hm => step_of_decodeWord_eq_ok hr (unitTurn_nil hm) hw,
    fun _ hm => step_of_decodeWord_eq_ok hr (unitTurn_wait hm) hw⟩

/-! ### HALT and the last word (R140, R144) -/

@[simp] theorem State.finish_irq (s : State) : s.finish.irq = s.ie := Bool.and_true _

/-- Settles O39: HALT checks nothing, PC included. -/
theorem haltEndsTheRun : Obligations.HaltEndsTheRun :=
  ⟨decodeWord_instrWord 0x01 0 0 0 0 0, fun s => ⟨s.finish, exec_halt s, rfl, s.finish_irq⟩⟩

/-- Settles O40: the operand check comes before that of PC, and HALT makes neither. -/
theorem lastWordOverruns : Obligations.LastWordOverruns := by
  refine fun i s hp => ⟨fun hi => ?_, fun hi => hi ▸ exec_halt s⟩
  cases hw : i.wellFormed with
  | false => exact exec_illegalOperand hi hw
  | true => exact exec_pcOverrun hi hw hp

/-! ### The length of a run (R143, R145) -/

/-- The step from `s` to `t` ended the run: by HALT, by a fault, or by a reset. -/
def EndsRun (s t : State) : Prop :=
  t.run = .done ∨ t.run = .fault ∨ (t.run = .idle ∧ .reset ∈ s.hostMoves)

/-- A step from `s` to `t` that does not end the run used up a word or one of the host's moves. -/
inductive KeepsRun (s t : State) : Prop where
  /-- The unit executed an instruction, when the host had no move or waited. -/
  | instruction (hpc : t.pc.toNat = s.pc.toNat + 1) (hmoves : t.hostMoves = s.hostMoves.tail)
  /-- The host made an access, and the unit executed nothing. -/
  | access (m : HostMove) (hm : m ≠ .wait) (hmoves : s.hostMoves = m :: t.hostMoves) (hpc : t.pc = s.pc)

theorem UnitTurn.hostMoves {s u : State} (h : UnitTurn s u) : u.hostMoves = s.hostMoves.tail := by
  rcases h with ⟨hnil, rfl⟩ | ⟨rest, hwait, rfl⟩
  · simp [hnil]
  · simp [hwait]

/-- What an instruction does to the run it is part of. -/
theorem exec_run_cases {i : Instr} {s t : State} (h : exec i s = .next t) :
    t.run = .done ∨ t.run = .fault ∨
    (t.run = s.run ∧ t.pc.toNat = s.pc.toNat + 1 ∧ t.hostMoves = s.hostMoves) := by
  rcases exec_outcomes h with ⟨_, rfl⟩ | ⟨c, rfl⟩ | ⟨_, _, hp, rfl⟩
  · exact .inl rfl
  · exact .inr (.inl rfl)
  · exact .inr (.inr ⟨by simp, by simpa using toNat_pc_add_one hp, by simp⟩)

/-- A step of a busy machine, by the move that comes first: it ends the run, or the run goes on with less to come. -/
theorem exists_step_of_busy {s : State} (hr : s.run = .busy) :
    ∃ t, step s = .next t ∧ (EndsRun s t ∨ (t.run = .busy ∧ KeepsRun s t)) := by
  rcases step_cases s with ⟨u, hu, he⟩ | ⟨o, w, rest, hm, he⟩ | ⟨o, w, v, rest, hm, he⟩ | ⟨rest, hm, he⟩
  · rcases unitStep_cases u with ⟨hnot, _⟩ | ⟨_, _, _, hx⟩ | ⟨i, hbusy, _, hx⟩
    · exact absurd (hu.run.trans hr) hnot
    · exact ⟨_, he.trans hx, .inl (.inr (.inl rfl))⟩
    · obtain ⟨t, ht⟩ := exec_next i u
      refine ⟨t, he.trans (hx.trans ht), ?_⟩
      rcases exec_run_cases ht with hdone | hfault | ⟨hrun, hpc, hmoves⟩
      · exact .inl (.inl hdone)
      · exact .inl (.inr (.inl hfault))
      · exact .inr ⟨hrun.trans hbusy, .instruction (hu.pc ▸ hpc) (hmoves.trans hu.hostMoves)⟩
  · obtain ⟨_, _, _, hx⟩ := hostRead_reaches o w { s with hostMoves := rest }
    rw [hx] at he
    exact ⟨_, he, .inr ⟨hr, .access _ (by simp) hm rfl⟩⟩
  · have hrefused := hostWrite_busy (s := { s with hostMoves := rest }) hr o w v
    exact ⟨_, step_write hm hrefused, .inr ⟨hr, .access _ (by simp) hm rfl⟩⟩
  · exact ⟨_, he, .inl (.inr (.inr ⟨rfl, by simp [hm]⟩))⟩

section keepsRun

variable {s t : State} (h : KeepsRun s t)

include h

theorem KeepsRun.mem_hostMoves {m : HostMove} (hm : m ∈ t.hostMoves) : m ∈ s.hostMoves := by
  rcases h with ⟨_, hmoves⟩ | ⟨_, _, hmoves, _⟩
  · exact List.mem_of_mem_tail (hmoves ▸ hm)
  · simp [hmoves, hm]

/-- What is to come of a run grows less: words from PC on and moves of the host's together. -/
theorem KeepsRun.remaining_lt :
    256 - t.pc.toNat + t.hostMoves.length < 256 - s.pc.toNat + s.hostMoves.length := by
  have hlt := s.pc.isLt
  rcases h with ⟨hpc, hmoves⟩ | ⟨_, _, hmoves, hpc⟩
  · rw [hmoves, List.length_tail]
    omega
  · rw [hmoves, hpc, List.length_cons]
    omega

/-- The step is paid for by the word it executed, or by the access it made. -/
theorem KeepsRun.bound (n : Nat) :
    256 - t.pc.toNat + accessCount (t.hostMoves.take n) + 1 ≤
      256 - s.pc.toNat + accessCount (s.hostMoves.take (n + 1)) := by
  have hlt := t.pc.isLt
  rcases h with ⟨hpc, hmoves⟩ | ⟨m, hm, hmoves, hpc⟩
  · have htake : t.hostMoves.take n = (s.hostMoves.take (n + 1)).tail := by
      rw [hmoves, List.tail_take_eq_take_tail, Nat.add_sub_cancel]
    have hcount : accessCount (t.hostMoves.take n) ≤ accessCount (s.hostMoves.take (n + 1)) :=
      htake ▸ (List.tail_sublist _).countP_le
    omega
  · simp [accessCount, hmoves, hpc, hm]

end keepsRun

/-- The run in progress in `s` ends after `n` steps, as R143 and R145 have it. -/
structure RunEnds (s : State) (n : Nat) (t : State) : Prop where
  bound : n ≤ 256 - s.pc.toNat + accessCount (s.hostMoves.take n)
  run : Host.Core.run Sys2Proof.core n s = .next t
  ends : EndsRun s t
  busy : ∀ m, m < n → ∃ u, Host.Core.run Sys2Proof.core m s = .next u ∧ u.run = .busy

theorem runEnds_of_endsRun {s t : State} (hr : s.run = .busy) (ht : step s = .next t) (h : EndsRun s t) : RunEnds s 1 t where
  bound := by
    have := s.pc.isLt
    omega
  run := core_run_succ ht 0
  ends := h
  busy m hm := ⟨s, by rw [Nat.lt_one_iff.mp hm]; rfl, hr⟩

theorem RunEnds.of_step {s u t : State} {n : Nat} (hr : s.run = .busy) (hu : step s = .next u) (hk : KeepsRun s u)
    (h : RunEnds u n t) : RunEnds s (n + 1) t where
  bound := (Nat.succ_le_succ h.bound).trans (hk.bound n)
  run := (core_run_succ hu n).trans h.run
  ends := h.ends.imp_right (Or.imp_right (And.imp_right hk.mem_hostMoves))
  busy
    | 0, _ => ⟨s, rfl, hr⟩
    | m + 1, hm => core_run_succ hu m ▸ h.busy m (Nat.lt_of_succ_lt_succ hm)

/-- Every run ends: each step ends it or leaves less of it to come. -/
theorem exists_runEnds (s : State) (hr : s.run = .busy) : ∃ n t, RunEnds s n t := by
  obtain ⟨u, hu, hend | ⟨hbusy, hk⟩⟩ := exists_step_of_busy hr
  · exact ⟨1, u, runEnds_of_endsRun hr hu hend⟩
  · obtain ⟨n, t, h⟩ := exists_runEnds u hbusy
    exact ⟨n + 1, t, h.of_step hr hu hk⟩
termination_by 256 - s.pc.toNat + s.hostMoves.length
decreasing_by exact hk.remaining_lt

/-- Settles O7: the run ends by `exists_runEnds`, each of its steps paid for by a word or an access. -/
theorem everyRunEndsWithin256Instructions : Obligations.EveryRunEndsWithin256Instructions := by
  intro s hr
  obtain ⟨n, t, h⟩ := exists_runEnds s hr
  exact ⟨n, t, h.bound, h.run, h.ends, h.busy⟩

end Sys2Proof.Machine

/-! What a fault leaves (spec/60_exceptions.md R150, R155): every fault of the unit is taken by `takeFault`. -/

namespace Sys2Proof.Machine

/-! ### Taking a fault (R150, R155) -/

/-- The five codes of R150. -/
theorem Cause.code_bounds (c : Cause) : 1 ≤ c.code.toNat ∧ c.code.toNat ≤ 5 := by
  cases c <;> decide

@[simp] theorem State.takeFault_irq (s : State) (c : Cause) : (s.takeFault c).irq = s.ie := Bool.and_true _

theorem UnitTurn.ie {s u : State} (h : UnitTurn s u) : u.ie = s.ie := by rw [h.eq]

/-- An instruction of a run that leaves STATE = FAULT took a fault and did nothing else. -/
theorem eq_takeFault_of_exec {i : Instr} {s t : State} (hr : s.run = .busy) (h : exec i s = .next t)
    (hf : t.run = .fault) : ∃ c, t = s.takeFault c := by
  rcases exec_outcomes h with ⟨_, rfl⟩ | taken | ⟨_, _, _, rfl⟩
  · simp at hf
  · exact taken
  · simp [hr] at hf

/-- The unit's move in a run, when it leaves STATE = FAULT, took a fault and did nothing else: the decoder's or the
instruction's. -/
theorem eq_takeFault_of_unitStep {s t : State} (hr : s.run = .busy) (h : unitStep s = .next t)
    (hf : t.run = .fault) : ∃ c, t = s.takeFault c := by
  rcases unitStep_cases s with ⟨hnot, _⟩ | ⟨r, _, _, hx⟩ | ⟨i, _, _, hx⟩
  · exact absurd hr hnot
  · rw [hx] at h
    cases h
    exact ⟨rejectCause r, rfl⟩
  · exact eq_takeFault_of_exec hr (hx.symm.trans h) hf

/-- Settles O41: a step that ends in a fault is `takeFault`, whose ERRCODE is the code of its cause. -/
theorem faultHasNoEffect : Obligations.FaultHasNoEffect := by
  intro s u t hr hu ht hf
  obtain ⟨c, rfl⟩ := eq_takeFault_of_unitStep (hu.run.trans hr) ((step_unitTurn hu).symm.trans ht) hf
  obtain ⟨hlow, hhigh⟩ := c.code_bounds
  exact ⟨rfl, hlow, hhigh, (u.takeFault_irq c).trans hu.ie⟩

end Sys2Proof.Machine

/-! The trace of primitive operations (spec/70_reset_and_hazards.md R192, R194): one key bit changes nothing of a ladder step
but which slot is which, and the counts of a sequence are the sums of those of its parts. -/

namespace Sys2Proof.Machine

/-! ### Constant structure (R192) -/

/-- A key bit decides nothing of a step but which slot is which (R132). -/
theorem map_mergeSlots_stepOps (b c : Bool) : (stepOps b).map MicroOp.mergeSlots = (stepOps c).map MicroOp.mergeSlots := by
  cases b <;> cases c <;> rfl

theorem map_mergeSlots_stepsOps (k k' : Fe) (n : Nat) :
    (stepsOps k n).map MicroOp.mergeSlots = (stepsOps k' n).map MicroOp.mergeSlots := by
  induction n with
  | zero => rfl
  | succ n ih =>
    rw [stepsOps, stepsOps, List.map_append, List.map_append, ih, map_mergeSlots_stepOps _ (k'.getLsbD n)]

theorem map_mergeSlots_ladderTail (k k' : Fe) :
    (ladderTail k).map MicroOp.mergeSlots = (ladderTail k').map MicroOp.mergeSlots := by
  simp only [ladderTail, List.map_append, map_mergeSlots_stepsOps k k']

theorem map_mergeSlots_opsOf (k k' : Fe) (i : Instr) :
    (opsOf k i).map MicroOp.mergeSlots = (opsOf k' i).map MicroOp.mergeSlots := by
  cases i with
  | ladder ra => simp only [opsOf, ladderOps, List.map_append, map_mergeSlots_ladderTail k k']
  | ladderg => simp only [opsOf, laddergOps, List.map_append, map_mergeSlots_ladderTail k k']
  | _ => rfl

theorem MicroOp.names_mergeSlots (op : MicroOp) : op.mergeSlots.names = op.names := by
  cases op <;> rfl

/-- A trace shows names, so it does not tell the two slots apart. -/
theorem traceOps_map_mergeSlots (ops : List MicroOp) : traceOps (ops.map MicroOp.mergeSlots) = traceOps ops := by
  induction ops with
  | nil => rfl
  | cons op ops ih => rw [List.map_cons, traceOps, traceOps, ih, op.names_mergeSlots]

theorem traceOf_scalar_irrelevant (k k' : Fe) (i : Instr) : traceOf k i = traceOf k' i := by
  rw [traceOf, traceOf, ← traceOps_map_mergeSlots, map_mergeSlots_opsOf k k', traceOps_map_mergeSlots]

/-! ### The operations are what is executed (R192) -/

/-- An instruction that performs primitive operations has no data to check, and its effect is those operations. -/
theorem effect_of_opsOf_ne_nil {i : Instr} {s : State} (h : opsOf s.k i ≠ []) :
    i ≠ .halt ∧ dataOk s i = true ∧ effect i s = s.withRegs (runOps (opsOf s.k i) s.regs) := by
  cases i with
  | halt | unpack | pack | ldk | wipe | tstovf | tstneg => exact absurd rfl h
  | _ => exact ⟨nofun, rfl, rfl⟩

/-- Settles O47: the ladder's steps agree up to the slots, and the effect of an instruction with operations is to run them. -/
theorem traceIsConstantStructure : Obligations.TraceIsConstantStructure := by
  refine ⟨map_mergeSlots_opsOf, traceOf_scalar_irrelevant, fun i s hops hw hp => ?_⟩
  obtain ⟨hi, hd, he⟩ := effect_of_opsOf_ne_nil hops
  rw [exec_runs hi hw hp hd, he]
  rfl

/-! ### Counts of sequences (R194) -/

/-- How often each name occurs in the trace of a sequence, in the order of R194's table. -/
def opCounts (ops : List MicroOp) : List Nat := traceCounts (traceOps ops)

theorem traceCounts_append (a b : List PrimName) :
    traceCounts (a ++ b) = List.zipWith (· + ·) (traceCounts a) (traceCounts b) := by
  simp only [traceCounts, List.count_append, List.zipWith_cons_cons, List.zipWith_nil_left]

theorem opCounts_append (a b : List MicroOp) : opCounts (a ++ b) = List.zipWith (· + ·) (opCounts a) (opCounts b) := by
  rw [opCounts, traceOps_append, traceCounts_append, opCounts, opCounts]

/-- The repeated pairs of squarings in the chain (R111). -/
theorem opCounts_times_sqr (n : Nat) (a b c d : Reg) :
    opCounts (times n [.sqr a b, .sqr c d]) = [0, 0, 0, 0, 0, 2 * n, 0, 0] := by
  induction n with
  | zero => rfl
  | succ n ih =>
    rw [times, opCounts_append, ih, Nat.mul_succ, Nat.add_comm]
    rfl

/-- R194's table has a column for every name, so its row adds up to the length of the trace. -/
theorem sum_traceCounts (l : List PrimName) : (traceCounts l).sum = l.length := by
  induction l with
  | nil => rfl
  | cons p l ih =>
    rw [← List.singleton_append, traceCounts_append, List.length_append, ← ih]
    cases p <;> simp [traceCounts] <;> omega

theorem length_traceOps {ops : List MicroOp} {c : List Nat} (h : opCounts ops = c) : (traceOps ops).length = c.sum := by
  rw [← h, opCounts, sum_traceCounts]

/-! ### Counts of the exponentiations (R111 to R114) -/

theorem opCounts_chainOps (x : Reg) : opCounts (chainOps x) = [0, 0, 0, 0, 10, 251, 0, 0] := by
  simp only [chainOps, chain17, chain21, chain23, chain27, chain31, chain35, opCounts_append, opCounts_times_sqr]
  rfl

theorem opCounts_recipOps (rd x : Reg) : opCounts (recipOps rd x) = [0, 0, 0, 0, 11, 254, 0, 0] := by
  rw [recipOps, opCounts_append, opCounts_chainOps]
  rfl

theorem opCounts_recipsOps (rd x : Reg) : opCounts (recipsOps rd x) = [0, 0, 0, 0, 11, 251, 0, 0] := by
  rw [recipsOps, opCounts_append, opCounts_chainOps]
  rfl

theorem opCounts_sqrtOps (rd u : Reg) : opCounts (sqrtOps rd u) = [1, 0, 1, 1, 14, 252, 0, 0] := by
  rw [sqrtOps, opCounts_append, opCounts_append, opCounts_recipsOps]
  rfl

/-! ### Counts of the point operations and the ladder (R121 to R123, R136) -/

theorem opCounts_mprepOps (rd ra rb rc : Reg) : opCounts (mprepOps rd ra rb rc) = [0, 0, 1, 1, 0, 0, 0, 0] := rfl

theorem opCounts_maddOps (x z d : Reg) : opCounts (maddOps x z d) = [0, 0, 1, 1, 3, 2, 0, 0] := rfl

theorem opCounts_mdblOps (x z : Reg) : opCounts (mdblOps x z) = [0, 0, 1, 1, 2, 2, 1, 0] := rfl

theorem opCounts_stepOps (b : Bool) : opCounts (stepOps b) = [0, 0, 4, 4, 5, 4, 1, 0] := by
  simp only [stepOps, opCounts_append, opCounts_mprepOps, opCounts_maddOps, opCounts_mdblOps]
  rfl

theorem opCounts_stepsOps (k : Fe) (n : Nat) : opCounts (stepsOps k n) = [0, 0, 4 * n, 4 * n, 5 * n, 4 * n, n, 0] := by
  induction n with
  | zero => rfl
  | succ n ih =>
    rw [stepsOps, opCounts_append, opCounts_stepOps, ih]
    simp only [List.zipWith_cons_cons, List.zipWith_nil_left, Nat.mul_succ, Nat.add_comm]

theorem opCounts_ladderTail (k : Fe) : opCounts (ladderTail k) = [0, 0, 1024, 1024, 1292, 1278, 256, 0] := by
  rw [ladderTail, opCounts_append, opCounts_append, opCounts_stepsOps, opCounts_recipOps]
  rfl

theorem opCounts_ladderOps (k : Fe) (ra : Reg) : opCounts (ladderOps k ra) = [3, 2, 1024, 1024, 1292, 1278, 256, 0] := by
  rw [ladderOps, opCounts_append, opCounts_ladderTail]
  rfl

theorem opCounts_laddergOps (k : Fe) : opCounts (laddergOps k) = [4, 1, 1024, 1024, 1292, 1278, 256, 0] := by
  rw [laddergOps, opCounts_append, opCounts_ladderTail]
  rfl

/-- Settles O48: the counts of each sequence, and their sums. -/
theorem operationCounts : Obligations.OperationCounts := fun k rd ra rb rc _ b =>
  ⟨rfl, rfl, rfl, rfl, rfl, rfl, rfl, rfl, rfl, rfl, rfl, rfl, rfl, rfl, rfl,
    opCounts_mprepOps rd ra rb rc, opCounts_maddOps ra rb rc, opCounts_mdblOps ra rb,
    opCounts_recipOps rd ra, opCounts_recipsOps rd ra, opCounts_sqrtOps rd ra,
    opCounts_stepOps b, opCounts_laddergOps k, opCounts_ladderOps k ra,
    length_traceOps (opCounts_mprepOps rd ra rb rc), length_traceOps (opCounts_maddOps ra rb rc),
    length_traceOps (opCounts_mdblOps ra rb), length_traceOps (opCounts_recipOps rd ra),
    length_traceOps (opCounts_recipsOps rd ra), length_traceOps (opCounts_sqrtOps rd ra),
    length_traceOps (opCounts_stepOps b), length_traceOps (opCounts_ladderOps k ra),
    length_traceOps (opCounts_laddergOps k)⟩

end Sys2Proof.Machine
